-- ==== Sys2Proof/Word.lean ====
section
/-! DEFINITION. The word types of MMCHE. Every register, command word, argument, flags value and response word is an
unsigned 32-bit value (00_scope.md R111); a block is a sequence of bytes, lowest address first. -/

namespace Sys2Proof

/-- An unsigned 32-bit value, `u32` (00_scope.md R111). -/
abbrev Word := BitVec 32

/-- One byte of a block. -/
abbrev Byte := BitVec 8

end Sys2Proof
end

