-- ==== Sys2Proof/Config.lean ====
section
/-! DEFINITION. What one MMCHE is configured with (00_scope.md R110), the constants the source fixes (00_scope.md R109)
and the free values. The parameters form one record of plain data, so that a claim can hold for every value of each;
the values State.reset takes stand in Machine/Defaults.lean. -/

namespace Sys2Proof

/-- `RSP_CODE`, the 3-bit code of each response kind (30_encoding.md R203). -/
structure RspTable where
  none : BitVec 3
  r1   : BitVec 3
  r2   : BitVec 3
  r3   : BitVec 3
  r4   : BitVec 3
  r5   : BitVec 3
  r6   : BitVec 3
  r7   : BitVec 3
  r1b  : BitVec 3
  deriving DecidableEq, Repr

/-- The values of the CommandFlags bits (30_encoding.md R207). -/
structure FlagLayout where
  rspPresent : Word
  rsp136     : Word
  rspCrc     : Word
  rspBusy    : Word
  rspOpcode  : Word
  cmdMask    : Word
  cmdAc      : Word
  cmdAdtc    : Word
  cmdBc      : Word
  cmdBcr     : Word
  deriving DecidableEq, Repr

/-- The parameters of 00_scope.md R110, but BASE, which is an operand of CONSTRUCT. Masks are masks of the register or
word they name; durations are in microseconds (log entry 26). -/
structure Config where
  rspCode          : RspTable
  cmdDataPresent   : Word
  cmdWrite         : Word
  cmdStop          : Word
  cmdBlklenMask    : Word
  flags            : FlagLayout
  stsSdcBusy       : Word
  stsCmdBusy       : Word
  cfgEnable        : Word
  cfgMode          : Word
  txcntLsb         : Nat
  acmdDoneBit      : Nat
  pioAck           : Bool
  tuningOpcodes    : List Word
  multiblockOpcodes : List Word
  tSettle          : Nat
  /-- `none` is infinity, the source's behaviour. -/
  pollLimit        : Option Nat
  r1SwitchError    : Word
  r1UnexpectedMask : Word
  ocrSupported     : Word
  extBlkcnt        : Bool
  deriving DecidableEq, Repr

/-- The environment's answer to a read no queued answer is there for: free, one value for each value of the counter
State.freeCount (20_memory.md R189; log entry 5). -/
opaque Config.freeAnswer : Nat → Word

/-- REM after CONSTRUCT: unspecified (10_state.md R155; log entry 2). -/
opaque Config.freeRem : Nat → Fin 513

/-- DONE after CONSTRUCT: unspecified (10_state.md R155; log entry 2). -/
opaque Config.freeDone : Nat → Bool

/-- Byte `i` of BUF after CONSTRUCT: unspecified (10_state.md R155; log entry 2). -/
opaque Config.freeByte : Nat → Nat → Byte

end Sys2Proof
end

