-- ==== Sys2Proof/Machine/Defaults.lean ====
section
/-! DEFINITION. The values of the constants of 00_scope.md R109 and the default values of the parameters of
00_scope.md R110. The defaults the spec marks as general knowledge are PRESUMED (log entry 4); the OPEN parameters
take a named value in the reset state only (DESIGN CHOICE, log entry 3). -/

namespace Sys2Proof.Machine

/-- `BLKSZ` = 512 bytes (00_scope.md R109, 10_state.md R122). -/
def blksz : Nat := 512
/-- `FIFO_THRESHOLD` = 64 bytes. -/
def fifoThreshold : Nat := 64
/-- `FIFO_SIZE` = 128 bytes. -/
def fifoSize : Nat := 128
/-- `OPCOND_ATTEMPTS` = 100. -/
def opcondAttempts : Nat := 100
/-- `OPCOND_DELAY` = 10 ms, in microseconds. -/
def opcondDelay : Nat := 10000
/-- `RCA` = 1 (10_state.md R128). -/
def rca : BitVec 16 := 1
/-- `EXT_CSD_PARTITION_CONFIG` = 179. -/
def extCsdPartitionConfig : Word := 179
/-- `PARTITION_CONFIG_BASE` = 0x48. -/
def partitionConfigBase : Word := 0x48
/-- `OCR_HCS`, bit 30. -/
def ocrHcs : Word := 0x40000000
/-- `STATE_PRG` = 7, the current-state field of a programming card. -/
def statePrg : Nat := 7

/-- `RSP_CODE` (30_encoding.md R203). PRESUMED, log entry 4. -/
def defaultRspTable : RspTable :=
  { none := 0, r1 := 1, r2 := 2, r3 := 3, r4 := 4, r5 := 1, r6 := 1, r7 := 1, r1b := 7 }

/-- The flag bits of 30_encoding.md R207. PRESUMED, log entry 4. -/
def defaultFlagLayout : FlagLayout :=
  { rspPresent := 0x01, rsp136 := 0x02, rspCrc := 0x04, rspBusy := 0x08, rspOpcode := 0x10,
    cmdMask := 0x60, cmdAc := 0x00, cmdAdtc := 0x20, cmdBc := 0x40, cmdBcr := 0x60 }

/-- The parameters with the defaults of 00_scope.md R110. CFG_ENABLE, CFG_MODE, T_SETTLE, OCR_SUPPORTED and EXT_BLKCNT
are OPEN there: DESIGN CHOICE, log entry 3. -/
def defaultConfig : Config :=
  { rspCode := defaultRspTable
    cmdDataPresent := 0x00000800
    cmdWrite := 0x00002000
    cmdStop := 0x00004000
    cmdBlklenMask := 0x0FFF0000
    flags := defaultFlagLayout
    stsSdcBusy := 0x00000001
    stsCmdBusy := 0x00000002
    cfgEnable := 0x00000001
    cfgMode := 0x00000002
    txcntLsb := 24
    acmdDoneBit := 16
    pioAck := false
    tuningOpcodes := [19, 21]
    multiblockOpcodes := [18, 25]
    tSettle := 0
    pollLimit := none
    r1SwitchError := 0x00000080
    r1UnexpectedMask := 0xFDFFA000
    ocrSupported := 0x00780000
    extBlkcnt := false }

/-- BASE in the reset state: the example value of 40_register_interface.md. DESIGN CHOICE, log entry 1. -/
def resetBase : Word := 0x11230000

end Sys2Proof.Machine
end

