-- ==== Sys2Proof/Syntax.lean ====
section
/-! DEFINITION. The instructions of MMCHE: one constructor per row of spec/opcode_table.json. The first twenty are the
eMMC/SD commands (41_command_codec.md R255 to R274) with the operands of 30_encoding.md R222, then the two illegal
commands (R266, R269), then the twenty-one host operations (30_encoding.md R224). -/

namespace Sys2Proof

/-- ResponseKind, nine members (30_encoding.md R210). -/
inductive Kind where
  | kNone | kR1 | kR2 | kR3 | kR4 | kR5 | kR6 | kR7 | kR1B
  deriving DecidableEq, Repr

/-- An instruction: one request of the host to MMCHE. -/
inductive Instr where
  -- eMMC/SD commands
  | goIdleState (arg flags : Word)
  | sendOpCond (arg flags : Word)
  | allSendCid (arg flags : Word)
  | setRelativeAddr (arg flags : Word)
  | switchFunc (arg flags : Word)
  | selectCard (arg flags : Word)
  /-- SELECT_CARD with argument 0 (41_command_codec.md R260), a row of its own in the table. -/
  | deselectCard (flags : Word)
  | sendExtCsd (arg flags : Word)
  | stopTransmission (arg flags : Word)
  | sendStatus (arg flags : Word)
  | setBlocklen (arg flags : Word)
  | readSingleBlock (arg flags : Word)
  | sendTuningBlock (arg flags : Word)
  | sendTuningBlockHs200 (arg flags : Word)
  | writeBlock (arg flags : Word)
  | fastIo (arg flags : Word)
  | goIrqState (arg flags : Word)
  | sdAppOpCond (arg flags : Word)
  | appCmd (arg flags : Word)
  /-- Any other opcode in 0..63 (41_command_codec.md R274). -/
  | generic (opcode : BitVec 6) (arg flags : Word)
  -- illegal commands
  | readMultipleBlock (arg flags : Word)
  | writeMultipleBlock (arg flags : Word)
  -- host operations; `reg` is the offset of the register named
  | regRead (reg : Word)
  | regWrite (reg value : Word)
  | regSetBits (reg mask : Word)
  | regClearBits (reg mask : Word)
  | classify (opcode arg flags : Word)
  | encode (opcode arg : Word) (kind : Kind) (flags : Word)
  | submit (opcode arg flags : Word)
  | await
  | cmd (opcode arg flags : Word)
  | pioRead
  | pioWrite (data : List Byte)
  | bringup
  | opcondLoop (ocrArg : Word)
  | ffs (x : Word)
  | selectWindow (m : Word)
  | switchPart (partitionId : Word)
  | readBlock (addr : Word)
  /-- The host operation write_block(addr, data), tag 0x46 (30_encoding.md R224). -/
  | writeBlockOp (addr : Word) (data : List Byte)
  | construct (base : Word)
  | resetHook
  | deviceReset
  deriving DecidableEq, Repr

end Sys2Proof
end

