-- ==== Sys2Proof/Machine/Flags.lean ====
section
/-! DEFINITION. The flag computations: the CommandFlags bitmask with its composite constants and classes
(30_encoding.md R207 to R209), the kind a flags value stands for (41_command_codec.md R251), and the interrupt masks
(10_state.md R138). -/

namespace Sys2Proof.Machine

/-- `F_RSP_NONE` (30_encoding.md R208). -/
def fRspNone : Word := 0
/-- `F_RSP_R1`, also R5, R6, R7: PRESENT, CRC, OPCODE. -/
def fRspR1 (l : FlagLayout) : Word := l.rspPresent ||| l.rspCrc ||| l.rspOpcode
/-- `F_RSP_R1B`: PRESENT, CRC, OPCODE, BUSY. -/
def fRspR1B (l : FlagLayout) : Word := l.rspPresent ||| l.rspCrc ||| l.rspOpcode ||| l.rspBusy
/-- `F_RSP_R2`: PRESENT, 136, CRC. -/
def fRspR2 (l : FlagLayout) : Word := l.rspPresent ||| l.rsp136 ||| l.rspCrc
/-- `F_RSP_R3`, also R4: PRESENT. -/
def fRspR3 (l : FlagLayout) : Word := l.rspPresent

/-- `F_RSP_MASK`, the response-shape bits (30_encoding.md R207). -/
def fRspMask (l : FlagLayout) : Word :=
  l.rspPresent ||| l.rsp136 ||| l.rspCrc ||| l.rspBusy ||| l.rspOpcode

/-- Every bit a flags value may have; a value with another bit is Refused(BadFlags). Under the default layout the other bits
are 31:7, as 30_encoding.md R207 words it; that under another layout of the parameters `F_*` (00_scope.md R110) they are the
bits outside that layout's own masks is the model's choice (log entry 30). -/
def fValidMask (l : FlagLayout) : Word := fRspMask l ||| l.cmdMask

/-- `class(flags)` (30_encoding.md R209). -/
def cmdClass (l : FlagLayout) (flags : Word) : Word := flags &&& l.cmdMask

/-- `kind_from_flags`, the flags-derived table; `none` is its last row, Refused(Sequencing) (41_command_codec.md R251). -/
def kindFromFlags (l : FlagLayout) (flags : Word) : Option Kind :=
  let s := flags &&& fRspMask l
  if s = fRspNone then some .kNone
  else if s = fRspR1 l then some .kR1
  else if s = fRspR1B l then some .kR1B
  else if s = fRspR2 l then some .kR2
  else if s = fRspR3 l then some .kR3
  else none

/-- The number of response words of a kind (10_state.md R153). -/
def kindWords : Kind → Nat
  | .kNone => 0
  | .kR2 => 4
  | .kR1 | .kR3 | .kR4 | .kR5 | .kR6 | .kR7 | .kR1B => 1

/-- `INT_CMDRDY`, bit 8 (10_state.md R138). -/
def intCmdRdy : Word := 0x00000100
/-- `INT_CMDTMO`, bit 9. -/
def intCmdTmo : Word := 0x00000200
/-- `INT_RSPCRCERR`, bit 10. -/
def intRspCrcErr : Word := 0x00000400
/-- `INT_XFER_COMPL`, bit 12. -/
def intXferCompl : Word := 0x00001000
/-- `INT_DATTMO`, bit 14. -/
def intDatTmo : Word := 0x00004000
/-- `INT_DATCRCERR`, bit 15. -/
def intDatCrcErr : Word := 0x00008000

/-- `CMD_WAIT_MASK`: the command bits AWAIT polls for, with the app-command-done bit (10_state.md R138). -/
def cmdWaitMask (cfg : Config) : Word :=
  intCmdRdy ||| intRspCrcErr ||| intCmdTmo ||| ((1 : Word) <<< cfg.acmdDoneBit)
/-- `CMD_ERR_MASK` = 0x600. -/
def cmdErrMask : Word := intRspCrcErr ||| intCmdTmo
/-- `XFER_INTS` = 0xD000. -/
def xferInts : Word := intXferCompl ||| intDatTmo ||| intDatCrcErr
/-- `XFER_ERR_MASK` = 0xC000. -/
def xferErrMask : Word := intDatTmo ||| intDatCrcErr

end Sys2Proof.Machine
end

