-- ==== Sys2Proof/Machine/Operands.lean ====
section
/-! DEFINITION. The operand forms: register offsets (10_state.md R136), opcode numbers (30_encoding.md R216), argument
layouts (30_encoding.md R211 to R214), register and response fields (10_state.md R140, 42_command_response_engine.md
R314, R315), word and byte assembly (20_memory.md R176), and the voltage-window functions (44_card_session.md R355,
R356). -/

namespace Sys2Proof.Machine

/-! Register offsets (10_state.md R136). -/

def offCfg : Word := 0x00
def offIocon : Word := 0x04
def offPs : Word := 0x08
def offInt : Word := 0x0C
def offInten : Word := 0x10
def offFifocs : Word := 0x14
def offTxdata : Word := 0x18
def offRxdata : Word := 0x1C
def offSdcCfg : Word := 0x30
def offSdcCmd : Word := 0x34
def offSdcArg : Word := 0x38
def offSdcSts : Word := 0x3C
def offSdcResp0 : Word := 0x40
def offSdcResp1 : Word := 0x44
def offSdcResp2 : Word := 0x48
def offSdcResp3 : Word := 0x4C
def offSdcBlkNum : Word := 0x50

/-- Whether an offset is one the register operations take: a 32-bit cell of the map's range 0x00 to 0xFC (10_state.md R136;
20_memory.md R175). The cells the map does not list, 0x20 to 0x2C, 0x54 to 0x8C and 0xA0 to 0xAC, and those of its DMA and
PAD ranges, are taken: 93_implementation_defined.md U16 lets REG_READ of them return any value and passes REG_WRITE
through. What is no cell of the range is Refused(BadRegister). The preamble of 40_register_interface.md would refuse the
unlisted cells too (log entry 23). -/
def inMap (off : Word) : Bool := off.toNat % 4 == 0 && off.toNat ≤ 0xFC

/-! Opcode numbers (30_encoding.md R216). -/

def opGoIdleState : Word := 0
def opSendOpCond : Word := 1
def opAllSendCid : Word := 2
def opSetRelativeAddr : Word := 3
def opSwitch : Word := 6
def opSelectCard : Word := 7
def opSendExtCsd : Word := 8
def opStopTransmission : Word := 12
def opSendStatus : Word := 13
def opSetBlocklen : Word := 16
def opReadSingleBlock : Word := 17
def opReadMultipleBlock : Word := 18
def opSendTuningBlock : Word := 19
def opSendTuningBlockHs200 : Word := 21
def opWriteBlock : Word := 24
def opWriteMultipleBlock : Word := 25
def opFastIo : Word := 39
def opGoIrqState : Word := 40
def opSdAppOpCond : Word := 41
def opAppCmd : Word := 55

/-- The opcodes with a rule of their own; every other one in 0..63 is generic (41_command_codec.md R274). -/
def ruledOpcodes : List Word :=
  [opGoIdleState, opSendOpCond, opAllSendCid, opSetRelativeAddr, opSwitch, opSelectCard, opSendExtCsd,
   opStopTransmission, opSendStatus, opSetBlocklen, opReadSingleBlock, opReadMultipleBlock, opSendTuningBlock,
   opSendTuningBlockHs200, opWriteBlock, opWriteMultipleBlock, opFastIo, opGoIrqState, opSdAppOpCond, opAppCmd]

/-! Arguments. -/

/-- Layout A, `rca << 16` (30_encoding.md R211). -/
def rcaArg : Word := rca.setWidth 32 <<< 16
/-- Layout B, the SWITCH argument of the partition switch (30_encoding.md R212). -/
def switchArg (p : Word) : Word :=
  ((3 : Word) <<< 24) ||| (extCsdPartitionConfig <<< 16) ||| ((partitionConfigBase ||| p) <<< 8)

/-! Fields of register and response words. -/

/-- `RXCNT = FIFOCS[7:0]` (10_state.md R140). -/
def rxCnt (f : Word) : Nat := (f &&& 0xFF).toNat
/-- `TXCNT = FIFOCS[TXCNT_LSB+7 : TXCNT_LSB]` (10_state.md R140). -/
def txCnt (cfg : Config) (f : Word) : Nat := ((f >>> cfg.txcntLsb) &&& 0xFF).toNat
/-- `state = st[12:9]` (42_command_response_engine.md R315). -/
def cardState (st : Word) : Nat := ((st >>> 9) &&& 0xF).toNat
/-- `ready = (ocr[31] == 1)` (42_command_response_engine.md R314). -/
def ocrReady (ocr : Word) : Bool := ocr.getLsbD 31

/-! Word and byte assembly, little-endian (20_memory.md R176). -/

/-- The word that carries bytes `b0`, `b1`, `b2`, `b3`. -/
def wordOfBytes (b0 b1 b2 b3 : Byte) : Word :=
  b0.setWidth 32 ||| (b1.setWidth 32 <<< 8) ||| (b2.setWidth 32 <<< 16) ||| (b3.setWidth 32 <<< 24)
/-- The four bytes of a word, lowest offset first. -/
def bytesOfWord (w : Word) : List Byte :=
  [w.setWidth 8, (w >>> 8).setWidth 8, (w >>> 16).setWidth 8, (w >>> 24).setWidth 8]

/-- The word at byte offset `off` of a block. -/
def wordAt (b : List Byte) (off : Nat) : Word :=
  wordOfBytes (b.getD off 0) (b.getD (off + 1) 0) (b.getD (off + 2) 0) (b.getD (off + 3) 0)
/-- The block with word `w` at byte offset `off`; bytes outside the block are dropped. -/
def setWordAt (b : List Byte) (off : Nat) (w : Word) : List Byte :=
  (((b.set off (w.setWidth 8)).set (off + 1) ((w >>> 8).setWidth 8)).set (off + 2) ((w >>> 16).setWidth 8)).set
    (off + 3) ((w >>> 24).setWidth 8)

/-! The voltage window. -/

/-- One halving step of FFS: if the low `n` bits of `x` are all zero, shift them out and count them. -/
def ffsHalve (mask : Word) (n : Nat) (p : Word × Nat) : Word × Nat :=
  if p.1 &&& mask = 0 then (p.1 >>> n, p.2 + n) else p

/-- `ffs(x)`, the 1-indexed position of the lowest set bit, 0 for 0, by halving (44_card_session.md R355). -/
def ffs (x : Word) : Nat :=
  if x = 0 then 0
  else
    (ffsHalve 0x00000001 1 (ffsHalve 0x00000003 2 (ffsHalve 0x0000000F 4 (ffsHalve 0x000000FF 8
      (ffsHalve 0x0000FFFF 16 (x, 1)))))).2

/-- `select_window(m)`: the two-bit field anchored at the lowest set bit (44_card_session.md R356). -/
def selectWindow (m : Word) : Word :=
  if ffs m = 0 then 0 else m &&& ((3 : Word) <<< (ffs m - 1))

end Sys2Proof.Machine
end

