-- ==== Sys2Proof/Machine/State.lean ====
section
/-! DEFINITION. The state of MMCHE as plain data (10_state.md R120 to R135), the events it emits and the outcomes it
hands to the host (00_scope.md R107, R108), and the state after construction (10_state.md R155). -/

namespace Sys2Proof.Machine

/-- `FSM`: where the current command stands (10_state.md R125). -/
inductive Fsm where
  | idle | submitting | awaitingResponse | decoded | failed
  deriving DecidableEq, Repr

/-- `SEQ`: the step of the card session controller (10_state.md R126). -/
inductive Seq where
  | s0 | b1 | b2 | b3 | b4 | b5 | b6 | b7 | p1 | p2 | io1 | io2 | io3
  deriving DecidableEq, Repr

/-- One submitted command, the record of `INFLIGHT` (10_state.md R124). -/
structure Command where
  opcode : Word
  arg    : Word
  flags  : Word
  kind   : Kind
  deriving DecidableEq, Repr

/-- `SESSION.cid`: word 0 is the most significant of the 128-bit CID (10_state.md R129). -/
structure Cid where
  w0 : Word
  w1 : Word
  w2 : Word
  w3 : Word
  deriving DecidableEq, Repr

/-- The CardSession (10_state.md R127 to R132). `part = none` is `unknown`. -/
structure Session where
  rca       : BitVec 16
  cid       : Cid
  part      : Option (BitVec 3)
  supported : Word
  ocr       : Word
  deriving DecidableEq, Repr

/-- The diagnostics (60_exceptions.md R421). -/
inductive Diag where
  | cmdFailed (opcode arg bits : Word)
  | dataFailed (status : Word)
  | unexpectedStatus (status : Word)
  | switchError (status : Word)
  deriving DecidableEq, Repr

/-- The events (00_scope.md R107). Addresses are absolute. -/
inductive Event where
  | rd (addr value : Word)
  | wr (addr value : Word)
  | delay (us : Nat)
  | diag (d : Diag)
  | resetHook
  deriving DecidableEq, Repr

/-- The reasons of a refusal by the spec (60_exceptions.md R407). -/
inductive Reason where
  | halted | commandOutstanding | noCommand | noCompanionCommand | noSession | badOpcode | badFlags | badRegister
  | badPartition | badBase | sequencing
  deriving DecidableEq, Repr

/-- The spins (60_exceptions.md R410): SUBMIT's busy-wait, AWAIT's poll, the PIO inner and outer loops, the partition
switch's status loop. -/
inductive Spin where
  | busyWait | intPoll | pioInner | pioOuter | statusLoop
  deriving DecidableEq, Repr

/-- The typed errors with what each records (60_exceptions.md R400). -/
inductive ErrKind where
  | cmdTimeout (errorFlag opcode arg : Word)
  | rspCrcErr (errorFlag opcode arg : Word)
  | dataTimeout (status : Word)
  | dataCrcErr (status : Word)
  | cardNotReady
  | switchError (status : Word)
  | pollTimeout (spin : Spin)
  deriving DecidableEq, Repr

/-- The value of an `Ok` outcome (the result column of 30_encoding.md R224). -/
inductive Value where
  | unit
  | word (w : Word)
  | kind (k : Kind)
  | index (n : Nat)
  | response (errorFlag : Word) (words : List Word)
  | block (bytes : List Byte)
  | session (s : Session)
  | warnings (unexpected : Bool)
  deriving DecidableEq, Repr

/-- The outcome of an operation (00_scope.md R108). A Hang has none: it is a run that never ends. `err` names the step
of the session controller the error arose in, S0 outside it (44_card_session.md R363). -/
inductive OpResult where
  | ok (v : Value)
  | err (e : ErrKind) (step : Seq)
  | refused (r : Reason)
  | fatal (opcode : Word)
  deriving DecidableEq, Repr

/-- Which loop of BRINGUP, or the host, called OPCOND_LOOP (44_card_session.md R354, R358). -/
inductive OpcondFor where
  | host | probe | negotiate
  deriving DecidableEq, Repr

/-- The operation that goes on when a command or a transfer ends, with its local values
(42_command_response_engine.md R318). -/
inductive Caller where
  | submit
  | await
  | cmd
  | opcond (arg : Word) (attempt : Nat) (purpose : OpcondFor)
  | goIdle
  | sendCid (ocr : Word)
  | setRca (ocr : Word) (cid : Cid)
  | selectCard (ocr : Word) (cid : Cid)
  | switchCmd (p : Word)
  | status (p : Word) (polls : Nat)
  | readBlock
  | writeBlock (data : List Byte)
  | pio
  | regOp
  deriving DecidableEq, Repr

/-- The direction of a PIO transfer. -/
inductive Dir where
  | rx | tx
  deriving DecidableEq, Repr

/-- Where a PIO transfer stands: how many iterations of the outer loop and of the present inner wait are done. -/
structure PioPos where
  dir   : Dir
  outer : Nat
  inner : Nat
  deriving DecidableEq, Repr

/-- The `read32` MMCHE has issued and waits on. `n` counts the iterations done of a spin. -/
inductive Wait where
  /-- REG_READ of the register at `off`. -/
  | regRead (off : Word)
  /-- the read of `set_bits` and of `clear_bits`. -/
  | setBits (off mask : Word)
  | clearBits (off mask : Word)
  /-- bring-up step 1, the reads of its two `set_bits` on CFG. -/
  | cfgEnable
  | cfgMode
  /-- SUBMIT's busy-wait on SDC_STS, with the command to send and its word. -/
  | busy (c : Command) (raw : Word) (n : Nat)
  /-- AWAIT's clear of INTEN, its poll of INT, and its response reads: the registers still to read, the words got. -/
  | awaitClear (c : Command)
  | poll (c : Command) (n : Nat)
  | resp (off : Word) (more : List Word) (got : List Word)
  /-- the PIO loops: clear of INTEN, re-arm of INTEN, outer status read, FIFOCS read, data reads left, inner re-check. -/
  | pioClear (dir : Dir)
  | pioRearm (p : PioPos)
  | pioStatus (p : PioPos)
  | pioFifo (p : PioPos)
  | pioDrain (p : PioPos) (left : Nat)
  | pioRecheck (p : PioPos)
  deriving DecidableEq, Repr

/-- The position inside the running operation (42_command_response_engine.md R318(e); log entry 7). -/
structure Task where
  wait   : Wait
  caller : Caller
  deriving DecidableEq, Repr

/-- How a request of the host is laid out: a command word with its operands, or a host-operation tag with its operands
(log entry 8). -/
inductive Format where
  | command | hostOp
  deriving DecidableEq, Repr

/-- One request of the host: its format and its bytes, lowest first (log entry 8). -/
structure Request where
  format : Format
  bytes  : List Byte
  deriving DecidableEq, Repr

/-- Why the decoder gives a request no instruction. -/
inductive Reject where
  /-- fewer bytes than the instruction has -/
  | truncated
  /-- a command word that matches no row of the table -/
  | noRow
  /-- a command word whose fields or operands no encode_command gives together -/
  | badOperands
  /-- a tag that 30_encoding.md R224 does not list -/
  | badTag
  /-- a kind operand that is none of the nine kinds -/
  | badKind
  deriving DecidableEq, Repr

/-- Why a step stops. -/
inductive Fault where
  /-- Raised by step when the host's request is no row of the opcode table: an encoding the spec does not define. SAFE:
  the machine stops where the hardware has no such request at all (log entry 12). -/
  | undecodable (why : Reject)
  deriving DecidableEq, Repr

/-- Why an instruction has no meaning. -/
inductive Refusal where
  /-- Raised by exec for an instruction not modelled yet. SAFE. No arm raises it. -/
  | notModelled (mnemonic : String)
  deriving DecidableEq, Repr

/-- The state of MMCHE. -/
structure State where
  /-- the parameters; no operation writes them (00_scope.md R110) -/
  cfg          : Config
  /-- `BASE` (10_state.md R121) -/
  base         : Word
  /-- `EXT_BLKCNT` (10_state.md R123) -/
  extBlkcnt    : Bool
  /-- `OCR_SUPPORTED` (10_state.md R131) -/
  ocrSupported : Word
  /-- `INFLIGHT` (10_state.md R124) -/
  inflight     : Option Command
  /-- `FSM` (10_state.md R125) -/
  fsm          : Fsm
  /-- `SEQ` (10_state.md R126) -/
  seq          : Seq
  /-- `SESSION` (10_state.md R127) -/
  session      : Option Session
  /-- `REM`, bytes left (10_state.md R133) -/
  rem          : Nat
  /-- `DONE` (10_state.md R133) -/
  done         : Bool
  /-- `BUF`, 512 bytes, byte 0 first (10_state.md R133, 20_memory.md R174) -/
  buf          : List Byte
  /-- `HALTED` (10_state.md R134) -/
  halted       : Bool
  /-- `error_flag` of the last command (10_state.md R135; log entry 10) -/
  errorFlag    : Word
  /-- `response_words` of the last command (42_command_response_engine.md R311; log entry 10) -/
  respWords    : List Word
  /-- the position inside the running operation, `none` between operations -/
  task         : Option Task
  /-- MODEL's own: the host's requests not yet taken (log entry 8) -/
  requests     : List Request
  /-- MODEL's own: the environment's answers given and not yet consumed (log entry 5) -/
  env          : List Word
  /-- MODEL's own: selects the next free value (log entries 2, 5) -/
  freeCount    : Nat
  /-- MODEL's own: every event emitted so far, oldest first (log entry 11) -/
  trace        : List Event
  /-- MODEL's own: the outcome of the last ended operation, `none` while one runs (log entry 11) -/
  result       : Option OpResult
  deriving DecidableEq, Repr

/-- The machine right after construction with `base` under the parameters `cfg`, nothing done yet (10_state.md R155,
R156). REM, DONE and BUF are unspecified there; their values here are a DESIGN CHOICE (log entry 2). -/
def State.constructed (cfg : Config) (base : Word) : State :=
  { cfg := cfg
    base := base
    extBlkcnt := cfg.extBlkcnt
    ocrSupported := cfg.ocrSupported
    inflight := none
    fsm := .idle
    seq := .s0
    session := none
    rem := 0
    done := false
    buf := List.replicate blksz 0
    halted := false
    errorFlag := 0
    respWords := []
    task := none
    requests := []
    env := []
    freeCount := 0
    trace := []
    result := none }

/-- The machine right after reset: construction is the only reset (10_state.md R154, 70_reset_and_hazards.md R440).
BASE and the OPEN parameters are DESIGN CHOICES (log entries 1, 3). -/
def State.reset : State := State.constructed defaultConfig resetBase

end Sys2Proof.Machine
end

