-- ==== Sys2Proof/Machine/Codec.lean ====
section
/-! DEFINITION. The command codec: classify_response and encode_command as pure functions of the parameters
(41_command_codec.md R250 to R254, R275, R276). -/

namespace Sys2Proof.Machine

/-- `RSP_CODE(kind)` (30_encoding.md R203). -/
def rspCode (t : RspTable) : Kind → BitVec 3
  | .kNone => t.none
  | .kR1 => t.r1
  | .kR2 => t.r2
  | .kR3 => t.r3
  | .kR4 => t.r4
  | .kR5 => t.r5
  | .kR6 => t.r6
  | .kR7 => t.r7
  | .kR1B => t.r1b

/-- The checks on the opcode and flags operands (30_encoding.md R202, R207): the refusal, or `none`. That the opcode is
checked first is the model's choice (log entry 18). -/
def operandRefusal (cfg : Config) (opcode flags : Word) : Option Reason :=
  if 63 < opcode.toNat then some .badOpcode
  else if flags &&& ~~~(fValidMask cfg.flags) ≠ 0 then some .badFlags
  else none

/-- The kind of a command whose operands passed the checks; `none` is Refused(Sequencing) (41_command_codec.md R250). -/
def kindOf (cfg : Config) (opcode arg flags : Word) : Option Kind :=
  if opcode = opSendOpCond ∨ opcode = opSdAppOpCond then some .kR3
  else if opcode = opSetRelativeAddr then
    if cmdClass cfg.flags flags = cfg.flags.cmdBcr then some .kR6 else some .kR1
  else if opcode = opFastIo then some .kR4
  else if opcode = opGoIrqState then some .kR6
  else if opcode = opSelectCard then
    if arg = 0 then some .kNone else some .kR1B
  else kindFromFlags cfg.flags flags

/-- `classify_response(opcode, arg, flags)` (41_command_codec.md R250). With operands that fail several checks the reason
is that of the first: BadOpcode, then BadFlags, then Sequencing for a shape 41_command_codec.md R251 has no row for. No
rule orders the three; the order is the model's choice (log entry 18). -/
def classify (cfg : Config) (opcode arg flags : Word) : Except Reason Kind :=
  match operandRefusal cfg opcode flags with
  | some r => .error r
  | none =>
    match kindOf cfg opcode arg flags with
    | some k => .ok k
    | none => .error .sequencing

/-- The patches of `encode_command` on the word built from the formula (41_command_codec.md R252, 30_encoding.md
R204). -/
def patchWord (cfg : Config) (opcode flags raw : Word) : Word :=
  if opcode = opReadSingleBlock then raw ||| cfg.cmdDataPresent
  else if opcode = opWriteBlock then raw ||| cfg.cmdDataPresent ||| cfg.cmdWrite
  else if (opcode = opSendExtCsd ∨ opcode = opSwitch) ∧ cmdClass cfg.flags flags = cfg.flags.cmdAdtc then
    raw ||| cfg.cmdDataPresent
  else if opcode = opStopTransmission then (raw ||| cfg.cmdStop) &&& ~~~cfg.cmdBlklenMask
  else raw

/-- The raw command word (30_encoding.md R201, R205, R206). -/
def rawWord (cfg : Config) (opcode : Word) (kind : Kind) (flags : Word) : Word :=
  patchWord cfg opcode flags
    (opcode ||| ((rspCode cfg.rspCode kind).setWidth 32 <<< 7) ||| (BitVec.ofNat 32 blksz <<< 16))

/-- `encode_command(opcode, arg, kind, flags)` on operands that passed the checks: the word, or `none` for
Fatal(UnsupportedMultiBlock) (41_command_codec.md R252, R266, R269). The argument does not enter the word (R275). -/
def encodeCommand (cfg : Config) (opcode _arg : Word) (kind : Kind) (flags : Word) : Option Word :=
  if cfg.multiblockOpcodes.contains opcode then none else some (rawWord cfg opcode kind flags)

end Sys2Proof.Machine
end

