-- ==== Sys2Proof/WellFormed.lean ====
section
/-! DEFINITION. When an instruction is well formed: its operands are ones the row of the opcode table can have. A
command row's flags give the command a kind (41_command_codec.md R250, R251); SELECT_CARD has an argument other than 0
and DESELECT_CARD is the row for 0 (R260); GENERIC's opcode has no rule of its own (R274); a block has 512 bytes
(43_pio_transfer.md R337). And when a configuration is (00_scope.md R110, 92_eei_decisions.md D2). -/

namespace Sys2Proof

open Machine

/-- The opcode, argument and flags of a command row (41_command_codec.md R255 to R274); `none` for a host operation. -/
def Instr.command : Instr → Option (Word × Word × Word)
  | .goIdleState a f => some (opGoIdleState, a, f)
  | .sendOpCond a f => some (opSendOpCond, a, f)
  | .allSendCid a f => some (opAllSendCid, a, f)
  | .setRelativeAddr a f => some (opSetRelativeAddr, a, f)
  | .switchFunc a f => some (opSwitch, a, f)
  | .selectCard a f => some (opSelectCard, a, f)
  | .deselectCard f => some (opSelectCard, 0, f)
  | .sendExtCsd a f => some (opSendExtCsd, a, f)
  | .stopTransmission a f => some (opStopTransmission, a, f)
  | .sendStatus a f => some (opSendStatus, a, f)
  | .setBlocklen a f => some (opSetBlocklen, a, f)
  | .readSingleBlock a f => some (opReadSingleBlock, a, f)
  | .sendTuningBlock a f => some (opSendTuningBlock, a, f)
  | .sendTuningBlockHs200 a f => some (opSendTuningBlockHs200, a, f)
  | .writeBlock a f => some (opWriteBlock, a, f)
  | .fastIo a f => some (opFastIo, a, f)
  | .goIrqState a f => some (opGoIrqState, a, f)
  | .sdAppOpCond a f => some (opSdAppOpCond, a, f)
  | .appCmd a f => some (opAppCmd, a, f)
  | .generic o a f => some (o.setWidth 32, a, f)
  | .readMultipleBlock a f => some (opReadMultipleBlock, a, f)
  | .writeMultipleBlock a f => some (opWriteMultipleBlock, a, f)
  | .regRead _ | .regWrite _ _ | .regSetBits _ _ | .regClearBits _ _ | .classify _ _ _ | .encode _ _ _ _
  | .submit _ _ _ | .await | .cmd _ _ _ | .pioRead | .pioWrite _ | .bringup | .opcondLoop _ | .ffs _
  | .selectWindow _ | .switchPart _ | .readBlock _ | .writeBlockOp _ _ | .construct _ | .resetHook
  | .deviceReset => none

/-- Whether the codec gives the command a kind (41_command_codec.md R250). -/
def commandHasKind (opcode arg flags : Word) : Bool :=
  match classify defaultConfig opcode arg flags with
  | .ok _ => true
  | .error _ => false

/-- The checks on an instruction's operands. -/
def Instr.wellFormed (i : Instr) : Bool :=
  match i with
  | .selectCard a f => a != 0 && commandHasKind opSelectCard a f
  | .generic o a f => !(ruledOpcodes.contains (o.setWidth 32)) && commandHasKind (o.setWidth 32) a f
  | .pioWrite data => data.length == blksz
  | .writeBlockOp _ data => data.length == blksz
  | i =>
    match i.command with
    | some (o, a, f) => commandHasKind o a f
    | none => true

/-- Whether a mask has exactly one bit. -/
def singleBit (m : Word) : Bool := m != 0 && m &&& (m - 1) == 0

/-- What the spec requires of the parameters: single-bit masks where it says so, the patch bits of the command word apart
from each other, from bits 9:0 and from the block-length field (92_eei_decisions.md D2), CFG_ENABLE and CFG_MODE apart
(10_state.md R137), TXCNT_LSB and ACMD_DONE_BIT among their candidates (00_scope.md R110). -/
def Config.wellFormed (c : Config) : Bool :=
  singleBit c.cmdDataPresent && singleBit c.cmdWrite && singleBit c.cmdStop &&
  c.cmdDataPresent &&& c.cmdWrite == 0 && c.cmdDataPresent &&& c.cmdStop == 0 && c.cmdWrite &&& c.cmdStop == 0 &&
  (c.cmdDataPresent ||| c.cmdWrite ||| c.cmdStop) &&& (0x3FF ||| c.cmdBlklenMask) == 0 &&
  c.cmdBlklenMask &&& 0x0200FFFF == 0x02000000 &&
  singleBit c.stsSdcBusy && singleBit c.stsCmdBusy &&
  singleBit c.cfgEnable && singleBit c.cfgMode && c.cfgEnable != c.cfgMode &&
  (c.txcntLsb == 16 || c.txcntLsb == 24) &&
  [3, 4, 5, 16].contains c.acmdDoneBit && singleBit c.r1SwitchError

/-- The flag values, the multi-block opcodes and the unbounded spins of the spec's defaults (00_scope.md R110); every other
parameter is free. -/
def Config.usual (c : Config) : Prop :=
  c.flags = defaultFlagLayout ∧ c.multiblockOpcodes = [18, 25] ∧ c.pollLimit = none

end Sys2Proof
end

