-- ==== Sys2Proof/Decode.lean ====
section
/-! DEFINITION. The decoder of the host's requests and the encoder beside it.

A command row's request is its 32-bit raw command word (30_encoding.md R201) and then the two operands the word does
not carry whole, arg and flags, each a little-endian u32. A host operation's request is its tag byte (30_encoding.md
R224) and then its operands, each a little-endian u32, a block as its 512 bytes. The spec gives the tags no wire
encoding and the operands none (92_eei_decisions.md D32): this layout is the model's own (DESIGN CHOICE, log entry 8).

An operand word that is zero where the command word excludes zero is an omitted operand: the flags are then those the
word's RSPTYP and DTYPE imply, and SELECT_CARD's argument is that of the relative card address (log entry 8). -/

namespace Sys2Proof

open Machine

/-! Fields of a command word (30_encoding.md R217). -/

/-- `OPC = raw[5:0]`. -/
def rawOpc (raw : Word) : BitVec 6 := raw.setWidth 6
/-- `RSPTYP = raw[9:7]`. -/
def rawRsptyp (raw : Word) : BitVec 3 := (raw >>> 7).setWidth 3
/-- `DTYPE = raw[11]`. -/
def rawDtype (raw : Word) : Bool := raw.getLsbD 11

/-- A row of spec/opcode_table.json that is a command: its name here. -/
inductive RowName where
  | goIdleState | sendOpCond | allSendCid | setRelativeAddr | switchFunc | selectCard | deselectCard | sendExtCsd
  | stopTransmission | sendStatus | setBlocklen | readSingleBlock | sendTuningBlock | sendTuningBlockHs200
  | writeBlock | fastIo | goIrqState | sdAppOpCond | appCmd | readMultipleBlock | writeMultipleBlock | generic
  deriving DecidableEq, Repr

/-- A row's mask and match. -/
structure Row where
  mask    : Word
  pattern : Word
  name    : RowName
  deriving DecidableEq, Repr

/-- The command rows of spec/opcode_table.json; GENERIC, the row of lowest priority, stands last. -/
def commandRows : List Row :=
  [⟨0x0000003F, 0x00000012, .readMultipleBlock⟩,
   ⟨0x0000003F, 0x00000019, .writeMultipleBlock⟩,
   ⟨0xFFFFFC7F, 0x02000000, .goIdleState⟩,
   ⟨0xFFFFFFFF, 0x02000181, .sendOpCond⟩,
   ⟨0xFFFFFC7F, 0x02000002, .allSendCid⟩,
   ⟨0xFFFFFFFF, 0x02000083, .setRelativeAddr⟩,
   ⟨0xFFFFF47F, 0x02000006, .switchFunc⟩,
   ⟨0xFFFFFFFF, 0x02000387, .selectCard⟩,
   ⟨0xFFFFFFFF, 0x02000007, .deselectCard⟩,
   ⟨0xFFFFF47F, 0x02000008, .sendExtCsd⟩,
   ⟨0xFFFFFC7F, 0x0000400C, .stopTransmission⟩,
   ⟨0xFFFFFC7F, 0x0200000D, .sendStatus⟩,
   ⟨0xFFFFFC7F, 0x02000010, .setBlocklen⟩,
   ⟨0xFFFFFC7F, 0x02000811, .readSingleBlock⟩,
   ⟨0xFFFFFC7F, 0x02000013, .sendTuningBlock⟩,
   ⟨0xFFFFFC7F, 0x02000015, .sendTuningBlockHs200⟩] ++
  [⟨0xFFFFFC7F, 0x02002818, .writeBlock⟩,
   ⟨0xFFFFFFFF, 0x02000227, .fastIo⟩,
   ⟨0xFFFFFFFF, 0x020000A8, .goIrqState⟩,
   ⟨0xFFFFFFFF, 0x020001A9, .sdAppOpCond⟩,
   ⟨0xFFFFFC7F, 0x02000037, .appCmd⟩,
   ⟨0xFFFFFC40, 0x02000000, .generic⟩]

/-- The row of a command word. -/
def rowOf (raw : Word) : Option RowName :=
  (commandRows.find? (fun r => raw &&& r.mask == r.pattern)).map Row.name

/-- The response-shape bits that give a code of RSPTYP, for an opcode whose kind is flags-derived
(41_command_codec.md R251 with 30_encoding.md R203). -/
def impliedShape (code : BitVec 3) : Word :=
  if code = 1 then 0x15 else if code = 2 then 0x07 else if code = 3 then 0x01 else if code = 7 then 0x1D else 0

/-- The flags operand of a row whose kind is flags-derived: the operand given, or, if it is omitted, the flags the
word implies. -/
def flagsOperand (raw flags : Word) : Word := if flags = 0 then impliedShape (rawRsptyp raw) else flags

/-- As `flagsOperand`, for the rows whose DTYPE bit is set exactly under the ADTC class (30_encoding.md R204). -/
def flagsOperandAdtc (raw flags : Word) : Word :=
  if flags = 0 then impliedShape (rawRsptyp raw) ||| (if rawDtype raw then 0x20 else 0) else flags

/-- The instruction a row, its word and its operand words stand for. A request of the DESELECT_CARD word has an arg operand
word like every command request, and the decoder does not look at it: the argument of that row is 0
(41_command_codec.md R260), whatever stands there (DESIGN CHOICE, log entry 8). -/
def commandOfRow (raw arg flags : Word) : RowName → Instr
  | .goIdleState => .goIdleState arg (flagsOperand raw flags)
  | .sendOpCond => .sendOpCond arg flags
  | .allSendCid => .allSendCid arg (flagsOperand raw flags)
  | .setRelativeAddr => .setRelativeAddr arg flags
  | .switchFunc => .switchFunc arg (flagsOperandAdtc raw flags)
  | .selectCard => .selectCard (if arg = 0 then 0x00010000 else arg) flags
  | .deselectCard => .deselectCard flags
  | .sendExtCsd => .sendExtCsd arg (flagsOperandAdtc raw flags)
  | .stopTransmission => .stopTransmission arg (flagsOperand raw flags)
  | .sendStatus => .sendStatus arg (flagsOperand raw flags)
  | .setBlocklen => .setBlocklen arg (flagsOperand raw flags)
  | .readSingleBlock => .readSingleBlock arg (flagsOperand raw flags)
  | .sendTuningBlock => .sendTuningBlock arg (flagsOperand raw flags)
  | .sendTuningBlockHs200 => .sendTuningBlockHs200 arg (flagsOperand raw flags)
  | .writeBlock => .writeBlock arg (flagsOperand raw flags)
  | .fastIo => .fastIo arg flags
  | .goIrqState => .goIrqState arg flags
  | .sdAppOpCond => .sdAppOpCond arg flags
  | .appCmd => .appCmd arg (flagsOperand raw flags)
  | .readMultipleBlock => .readMultipleBlock arg flags
  | .writeMultipleBlock => .writeMultipleBlock arg flags
  | .generic => .generic (rawOpc raw) arg (flagsOperand raw flags)

/-- Whether the word's RSPTYP and DTYPE are those of the operands: RSPTYP is the code of the command's kind, and the
two rows with a DTYPE field have it set exactly under the ADTC class. The illegal rows have no fields. -/
def fieldsAgree (raw : Word) (i : Instr) : Bool :=
  match i with
  | .readMultipleBlock _ _ | .writeMultipleBlock _ _ => true
  | i =>
    match i.command with
    | none => false
    | some (opcode, arg, flags) =>
      match classify defaultConfig opcode arg flags with
      | .error _ => false
      | .ok k =>
        rspCode defaultRspTable k == rawRsptyp raw &&
          (if opcode = opSwitch ∨ opcode = opSendExtCsd then (flags &&& 0x60 == 0x20) == rawDtype raw else true)

/-- A command word with its operand words. -/
def decodeCommand (raw arg flags : Word) : Except Reject Instr :=
  match rowOf raw with
  | none => .error .noRow
  | some row =>
    let i := commandOfRow raw arg flags row
    if i.wellFormed && fieldsAgree raw i then .ok i else .error .badOperands

/-! Host operations. -/

/-- The first word of a byte list, and the rest. -/
def takeWord : List Byte → Option (Word × List Byte)
  | b0 :: b1 :: b2 :: b3 :: rest => some (wordOfBytes b0 b1 b2 b3, rest)
  | _ => none

/-- The block at the head of a byte list. -/
def takeBlock (bs : List Byte) : Option (List Byte) :=
  if bs.length < blksz then none else some (bs.take blksz)

/-- A host operation of no operand word. -/
def with0 (i : Instr) : Except Reject Instr := .ok i
/-- A host operation of one operand word. -/
def with1 (bs : List Byte) (f : Word → Except Reject Instr) : Except Reject Instr :=
  match takeWord bs with
  | some (a, _) => f a
  | none => .error .truncated
/-- A host operation of two operand words. -/
def with2 (bs : List Byte) (f : Word → Word → Except Reject Instr) : Except Reject Instr :=
  match takeWord bs with
  | some (a, bs) => with1 bs (f a)
  | none => .error .truncated
/-- A host operation of three operand words. -/
def with3 (bs : List Byte) (f : Word → Word → Word → Except Reject Instr) : Except Reject Instr :=
  match takeWord bs with
  | some (a, bs) => with2 bs (f a)
  | none => .error .truncated
/-- A host operation of four operand words. -/
def with4 (bs : List Byte) (f : Word → Word → Word → Word → Except Reject Instr) : Except Reject Instr :=
  match takeWord bs with
  | some (a, bs) => with3 bs (f a)
  | none => .error .truncated

/-- The number that stands for a kind in a request (the model's own, log entry 8). -/
def kindNumber : Kind → Word
  | .kNone => 0
  | .kR1 => 1
  | .kR2 => 2
  | .kR3 => 3
  | .kR4 => 4
  | .kR5 => 5
  | .kR6 => 6
  | .kR7 => 7
  | .kR1B => 8

/-- The kind a number stands for. -/
def kindOfNumber (w : Word) : Option Kind :=
  [Kind.kNone, .kR1, .kR2, .kR3, .kR4, .kR5, .kR6, .kR7, .kR1B].find? (fun k => kindNumber k == w)

/-- The host operation of a tag and the operand bytes after it (30_encoding.md R224). -/
def decodeHostOp (tag : Byte) (bs : List Byte) : Except Reject Instr :=
  if tag = 0x01 then with1 bs (fun r => .ok (.regRead r))
  else if tag = 0x02 then with2 bs (fun r v => .ok (.regWrite r v))
  else if tag = 0x03 then with2 bs (fun r m => .ok (.regSetBits r m))
  else if tag = 0x04 then with2 bs (fun r m => .ok (.regClearBits r m))
  else if tag = 0x10 then with3 bs (fun o a f => .ok (.classify o a f))
  else if tag = 0x11 then
    with4 bs (fun o a k f =>
      match kindOfNumber k with
      | some k => .ok (.encode o a k f)
      | none => .error .badKind)
  else if tag = 0x20 then with3 bs (fun o a f => .ok (.submit o a f))
  else if tag = 0x21 then with0 .await
  else if tag = 0x22 then with3 bs (fun o a f => .ok (.cmd o a f))
  else if tag = 0x30 then with0 .pioRead
  else if tag = 0x31 then
    match takeBlock bs with
    | some d => .ok (.pioWrite d)
    | none => .error .truncated
  else if tag = 0x40 then with0 .bringup
  else if tag = 0x41 then with1 bs (fun a => .ok (.opcondLoop a))
  else if tag = 0x42 then with1 bs (fun x => .ok (.ffs x))
  else if tag = 0x43 then with1 bs (fun m => .ok (.selectWindow m))
  else if tag = 0x44 then with1 bs (fun p => .ok (.switchPart p))
  else if tag = 0x45 then with1 bs (fun a => .ok (.readBlock a))
  else if tag = 0x46 then
    match takeWord bs with
    | some (a, bs) =>
      match takeBlock bs with
      | some d => .ok (.writeBlockOp a d)
      | none => .error .truncated
    | none => .error .truncated
  else if tag = 0x50 then with1 bs (fun b => .ok (.construct b))
  else if tag = 0x51 then with0 .resetHook
  else if tag = 0x52 then with0 .deviceReset
  else .error .badTag

/-- The instruction a request stands for. Bytes after the last operand are not looked at. -/
def decode (r : Request) : Except Reject Instr :=
  match r.format with
  | .command =>
    match takeWord r.bytes with
    | some (raw, bs) => with2 bs (decodeCommand raw)
    | none => .error .truncated
  | .hostOp =>
    match r.bytes with
    | tag :: bs => decodeHostOp tag bs
    | [] => .error .truncated

/-! The encoder. -/

/-- The word of a command row: `encode_command` under the default parameters (41_command_codec.md R252). The illegal rows
have no word; their request holds the opcode alone (41_command_codec.md R266, R269). -/
def commandWord (opcode arg flags : Word) : Word :=
  match classify defaultConfig opcode arg flags with
  | .error _ => opcode
  | .ok k =>
    match encodeCommand defaultConfig opcode arg k flags with
    | some w => w
    | none => opcode

/-- The request of a command row. -/
def encodeCommandRequest (opcode arg flags : Word) : Request :=
  ⟨.command, bytesOfWord (commandWord opcode arg flags) ++ bytesOfWord arg ++ bytesOfWord flags⟩

/-- The request of a host operation: its tag and operand words. -/
def hostOpRequest (tag : Byte) (operands : List Word) : Request :=
  ⟨.hostOp, tag :: operands.flatMap bytesOfWord⟩

/-- The request of an instruction. -/
def encode : Instr → Request
  | .goIdleState a f => encodeCommandRequest opGoIdleState a f
  | .sendOpCond a f => encodeCommandRequest opSendOpCond a f
  | .allSendCid a f => encodeCommandRequest opAllSendCid a f
  | .setRelativeAddr a f => encodeCommandRequest opSetRelativeAddr a f
  | .switchFunc a f => encodeCommandRequest opSwitch a f
  | .selectCard a f => encodeCommandRequest opSelectCard a f
  | .deselectCard f => encodeCommandRequest opSelectCard 0 f
  | .sendExtCsd a f => encodeCommandRequest opSendExtCsd a f
  | .stopTransmission a f => encodeCommandRequest opStopTransmission a f
  | .sendStatus a f => encodeCommandRequest opSendStatus a f
  | .setBlocklen a f => encodeCommandRequest opSetBlocklen a f
  | .readSingleBlock a f => encodeCommandRequest opReadSingleBlock a f
  | .sendTuningBlock a f => encodeCommandRequest opSendTuningBlock a f
  | .sendTuningBlockHs200 a f => encodeCommandRequest opSendTuningBlockHs200 a f
  | .writeBlock a f => encodeCommandRequest opWriteBlock a f
  | .fastIo a f => encodeCommandRequest opFastIo a f
  | .goIrqState a f => encodeCommandRequest opGoIrqState a f
  | .sdAppOpCond a f => encodeCommandRequest opSdAppOpCond a f
  | .appCmd a f => encodeCommandRequest opAppCmd a f
  | .generic o a f => encodeCommandRequest (o.setWidth 32) a f
  | .readMultipleBlock a f => encodeCommandRequest opReadMultipleBlock a f
  | .writeMultipleBlock a f => encodeCommandRequest opWriteMultipleBlock a f
  | .regRead r => hostOpRequest 0x01 [r]
  | .regWrite r v => hostOpRequest 0x02 [r, v]
  | .regSetBits r m => hostOpRequest 0x03 [r, m]
  | .regClearBits r m => hostOpRequest 0x04 [r, m]
  | .classify o a f => hostOpRequest 0x10 [o, a, f]
  | .encode o a k f => hostOpRequest 0x11 [o, a, kindNumber k, f]
  | .submit o a f => hostOpRequest 0x20 [o, a, f]
  | .await => hostOpRequest 0x21 []
  | .cmd o a f => hostOpRequest 0x22 [o, a, f]
  | .pioRead => hostOpRequest 0x30 []
  | .pioWrite d => ⟨.hostOp, 0x31 :: d⟩
  | .bringup => hostOpRequest 0x40 []
  | .opcondLoop a => hostOpRequest 0x41 [a]
  | .ffs x => hostOpRequest 0x42 [x]
  | .selectWindow m => hostOpRequest 0x43 [m]
  | .switchPart p => hostOpRequest 0x44 [p]
  | .readBlock a => hostOpRequest 0x45 [a]
  | .writeBlockOp a d => ⟨.hostOp, 0x46 :: (bytesOfWord a ++ d)⟩
  | .construct b => hostOpRequest 0x50 [b]
  | .resetHook => hostOpRequest 0x51 []
  | .deviceReset => hostOpRequest 0x52 []

/-! The opcode table's numbering. -/

/-- The first `n` bytes of a number, the least significant first. -/
def bytesOfNat : Nat → Nat → List Byte
  | 0, _ => []
  | n + 1, w => BitVec.ofNat 8 w :: bytesOfNat n (w / 256)

/-- The length in bytes of the longest request, WRITE_BLOCK_OP: tag, address, block. -/
def longestRequest : Nat := 1 + 4 + blksz

/-- The request whose bits are `w` in the numbering of spec/opcode_table.json, zeros above bit `nbits`. Rows of 32 bits are
command words. A row of fewer bits is a host-operation tag, but for the two illegal opcodes, which the table matches on
their six bits and which are no tag. -/
def Machine.Request.ofTable (nbits w : Nat) : Request :=
  let v := w % 2 ^ nbits
  ⟨if nbits < 32 ∧ v ≠ 0x12 ∧ v ≠ 0x19 then .hostOp else .command, bytesOfNat longestRequest v⟩

/-- The instruction the decoder reads from a row's bits. -/
def decodeTableWord (nbits w : Nat) : Option Instr :=
  match decode (Request.ofTable nbits w) with
  | .ok i => some i
  | .error _ => none

end Sys2Proof
end

