-- ==== Sys2Proof/Machine/Ops.lean ====
section
/-! DEFINITION. The shared operations on the state: emitting an event, writing a register, issuing a read, ending an
operation with an outcome, and the error entry (60_exceptions.md R414). Every access to a register goes through
`writeReg` and `waitFor` (00_scope.md R112, 40_register_interface.md). -/

namespace Sys2Proof.Machine

/-- An event is emitted (00_scope.md R107). -/
def State.emit (s : State) (e : Event) : State := { s with trace := s.trace ++ [e] }

/-- The address of the register at offset `off` (00_scope.md R112). -/
def State.addr (s : State) (off : Word) : Word := s.base + off

/-- `reg(R) <- v`: one `Wr` of one word (20_memory.md R178, 40_register_interface.md R241). -/
def State.writeReg (s : State) (off v : Word) : State := s.emit (.wr (s.addr off) v)

/-- `reg(R)` is issued: MMCHE waits for the environment's answer, and `caller` goes on with it. -/
def State.waitFor (s : State) (w : Wait) (caller : Caller) : State := { s with task := some ⟨w, caller⟩ }

/-- The write of `set_bits` after its read answered `v`; issued even if nothing changes (40_register_interface.md R242). -/
def State.setBitsWrite (s : State) (off mask v : Word) : State := s.writeReg off (v ||| mask)

/-- The write of `clear_bits` after its read answered `v` (40_register_interface.md R243). -/
def State.clearBitsWrite (s : State) (off mask v : Word) : State := s.writeReg off (v &&& ~~~mask)

/-! One update of one register each. -/

/-- `FSM <- f` -/
def State.setFsm (s : State) (f : Fsm) : State := { s with fsm := f }
/-- `INFLIGHT <- c` -/
def State.setInflight (s : State) (c : Option Command) : State := { s with inflight := c }
/-- `SEQ <- q` -/
def State.setSeq (s : State) (q : Seq) : State := { s with seq := q }
/-- `SESSION <- x` -/
def State.setSession (s : State) (x : Option Session) : State := { s with session := x }
/-- `BUF <- b` -/
def State.setBuf (s : State) (b : List Byte) : State := { s with buf := b }
/-- `REM <- n` -/
def State.setRem (s : State) (n : Nat) : State := { s with rem := n }
/-- `DONE <- b` -/
def State.setDone (s : State) (b : Bool) : State := { s with done := b }
/-- The environment's queued answers become `vs`. -/
def State.setEnv (s : State) (vs : List Word) : State := { s with env := vs }
/-- The host's queued requests become `rs`. -/
def State.setRequests (s : State) (rs : List Request) : State := { s with requests := rs }
/-- An operation begins: no outcome yet. -/
def State.begin (s : State) : State := { s with result := none }
/-- A free value has been used. -/
def State.spendFree (s : State) : State := { s with freeCount := s.freeCount + 1 }
/-- `HALTED <- true` -/
def State.halt (s : State) : State := { s with halted := true }

/-- The running operation ends with an outcome: no position is left and SEQ is S0 (10_state.md R126). -/
def State.endOp (s : State) (r : OpResult) : State :=
  { s with task := none, seq := .s0, result := some r }

/-- `refuse(reason)` (00_scope.md R112, 60_exceptions.md R407). -/
def State.refuse (s : State) (r : Reason) : State := s.endOp (.refused r)

/-- `fatal(UnsupportedMultiBlock)`: HALTED is set (00_scope.md R112, 60_exceptions.md R408). -/
def State.fatal (s : State) (opcode : Word) : State := s.halt.endOp (.fatal opcode)

/-- TAKING AN ERROR, the one entry every `raise Err(kind)` goes through: nothing is saved but the outcome, which names the
step, SEQ becomes S0 and control returns to the host (60_exceptions.md R414). What an error changes beside that (FSM,
INFLIGHT, SESSION) its raiser has written already. -/
def State.raiseErr (s : State) (e : ErrKind) : State := s.endOp (.err e s.seq)

/-- RESUMING after an error needs nothing restored: the next SUBMIT takes Decoded and Failed as Idle
(60_exceptions.md R416, 42_command_response_engine.md R300). So a command may be submitted unless one is outstanding. -/
def State.outstanding (s : State) : Bool := s.fsm == .submitting || s.fsm == .awaitingResponse

/-- `reset_hook()`: a stub, its whole effect is the event (70_reset_and_hazards.md R441). -/
def State.hook (s : State) : State := s.emit .resetHook

/-- A command has ended well: FSM, INFLIGHT, error_flag and the response words (42_command_response_engine.md R304, R309,
R311; log entry 10). -/
def State.decodedWith (s : State) (words : List Word) : State :=
  { s with fsm := .decoded, inflight := none, errorFlag := 0, respWords := words }

/-- A command has failed on the error bits `flag` (42_command_response_engine.md R307, R311; log entry 10). -/
def State.failedWith (s : State) (flag : Word) : State :=
  { s with fsm := .failed, inflight := none, errorFlag := flag, respWords := [] }

/-- The reset hook after a failed command, but not for a tuning opcode (42_command_response_engine.md R307, R308). -/
def State.hookUnlessTuning (s : State) (opcode : Word) : State :=
  if opcode ∈ s.cfg.tuningOpcodes then s else s.hook

/-- Unexpected bits of the final status of a partition switch are reported (44_card_session.md R366). -/
def State.warn (s : State) (st : Word) : State :=
  if st &&& s.cfg.r1UnexpectedMask ≠ 0 then s.emit (.diag (.unexpectedStatus st)) else s

/-- Transfer-complete is latched in DONE (43_pio_transfer.md R331, R341). -/
def State.latchDone (s : State) (status : Word) : State := s.setDone (s.done || status &&& intXferCompl != 0)

/-- With PIO_ACK the transfer bits an outer status read showed are written back (43_pio_transfer.md R344; log entry 17). -/
def State.ackTransfer (s : State) (status : Word) : State :=
  if s.cfg.pioAck ∧ status &&& xferInts ≠ 0 then s.writeReg offInt (status &&& xferInts) else s

/-- Whether a spin that has now failed `n + 1` times goes on: always, unless POLL_LIMIT is finite and reached
(60_exceptions.md R410; log entry 16). -/
def State.mayPoll (s : State) (n : Nat) : Bool :=
  match s.cfg.pollLimit with
  | none => true
  | some limit => n + 1 < limit

/-- `part <- unknown` in a session (44_card_session.md R364). -/
def State.setPart (s : State) (p : Option (BitVec 3)) : State :=
  { s with session := s.session.map (fun x => { x with part := p }) }

end Sys2Proof.Machine
end

