-- ==== Sys2Proof/Machine/Pio.lean ====
section
/-! DEFINITION. The PIO transfer engine: the loops of PIO_READ and PIO_WRITE (43_pio_transfer.md R330 to R344), cut at
their register reads. `pioX s p v` is what MMCHE does with the answer `v` of the read X. The two directions share the
outer loop (43_pio_transfer.md R340). -/

namespace Sys2Proof.Machine

/-- The transfer has ended well: the block it read, or nothing (43_pio_transfer.md R331, R337). -/
def pioValue (s : State) : Dir → Value
  | .rx => .block s.buf
  | .tx => .unit

/-- The start of a transfer: the read of `clear_bits(INTEN, XFER_INTS)` is issued. -/
def pioStart (s : State) (dir : Dir) (caller : Caller) : State := s.waitFor (.pioClear dir) caller

/-- `clear_bits(INTEN, XFER_INTS)`, then REM and DONE are set and the first re-arm is issued. -/
def pioClear (s : State) (dir : Dir) (caller : Caller) (v : Word) : State :=
  (((s.clearBitsWrite offInten xferInts v).setRem blksz).setDone false).waitFor (.pioRearm ⟨dir, 0, 0⟩) caller

/-- The re-arm `set_bits(INTEN, XFER_INTS)` of an outer iteration; then the status is read. -/
def pioRearm (s : State) (p : PioPos) (caller : Caller) (v : Word) : State :=
  (s.setBitsWrite offInten xferInts v).waitFor (.pioStatus p) caller

/-- `fail(s)`: diagnostic, reset hook, typed error, `crc` choosing which; no further access (43_pio_transfer.md R341). -/
def pioFail (s : State) (status : Word) (crc : Bool) : State :=
  (s.emit (.diag (.dataFailed status))).hook.raiseErr (if crc then .dataCrcErr status else .dataTimeout status)

/-- The head of the inner loop: while bytes remain FIFOCS is read; then the transfer ends if transfer-complete was seen,
else the outer loop repeats (43_pio_transfer.md R335). -/
def pioHead (s : State) (p : PioPos) (caller : Caller) : State :=
  if s.rem > 0 then s.waitFor (.pioFifo p) caller
  else if s.done then s.endOp (.ok (pioValue s p.dir))
  else if s.mayPoll p.outer then s.waitFor (.pioRearm ⟨p.dir, p.outer + 1, 0⟩) caller
  else s.raiseErr (.pollTimeout .pioOuter)

/-- The outer status read: an error ends the transfer, transfer-complete latches DONE; with PIO_ACK the transfer bits read
are acknowledged (43_pio_transfer.md R331, R341, R344; 60_exceptions.md R413). -/
def pioStatus (s : State) (p : PioPos) (caller : Caller) (v : Word) : State :=
  if v &&& xferErrMask ≠ 0 then pioFail s v (v &&& intDatCrcErr != 0)
  else pioHead ((s.latchDone v).ackTransfer v) p caller

/-- `k` reads of RXDATA are due, the first is issued (43_pio_transfer.md R332, R333). -/
def pioBurst (s : State) (p : PioPos) (caller : Caller) (k : Nat) : State :=
  if k = 0 then pioHead s { p with inner := 0 } caller else s.waitFor (.pioDrain { p with inner := 0 } k) caller

/-- `k` words of BUF from the present offset are written to TXDATA (43_pio_transfer.md R337, R339). -/
def pioPush : Nat → State → State
  | 0, s => s
  | k + 1, s => pioPush k ((s.writeReg offTxdata (wordAt s.buf (blksz - s.rem))).setRem (s.rem - 4))

/-- The FIFOCS read of the inner loop: a burst is drained or a chunk pushed if the count allows, else INT is read again
(43_pio_transfer.md R331 to R334, R337 to R339). -/
def pioFifo (s : State) (p : PioPos) (caller : Caller) (f : Word) : State :=
  match p.dir with
  | .rx =>
    if s.rem ≥ fifoThreshold ∧ rxCnt f ≥ fifoThreshold then pioBurst s p caller (fifoThreshold / 4)
    else if s.rem < fifoThreshold ∧ rxCnt f ≥ s.rem then pioBurst s p caller (s.rem / 4)
    else s.waitFor (.pioRecheck p) caller
  | .tx =>
    if txCnt s.cfg f = 0 then pioHead (pioPush (min fifoSize s.rem / 4) s) { p with inner := 0 } caller
    else s.waitFor (.pioRecheck p) caller

/-- A word read from RXDATA goes to BUF at the present offset, `512 - REM` (43_pio_transfer.md R331, R336). -/
def State.storeWord (s : State) (w : Word) : State := (s.setBuf (setWordAt s.buf (blksz - s.rem) w)).setRem (s.rem - 4)

/-- One read of RXDATA with `left` reads due, this one counted: the word goes to BUF at the present offset
(43_pio_transfer.md R331, R336). -/
def pioDrain (s : State) (p : PioPos) (caller : Caller) (left : Nat) (w : Word) : State :=
  if left ≤ 1 then pioHead (s.storeWord w) p caller else (s.storeWord w).waitFor (.pioDrain p (left - 1)) caller

/-- The inner re-check: only data-timeout is tested, and data-CRC-error is ignored (43_pio_transfer.md R334, R338;
60_exceptions.md R412; 92_eei_decisions.md D37), also where it is set beside data-timeout: the error is DataTimeout
(60_exceptions.md R403, R404; DEDUCED against the wording of 43_pio_transfer.md R341, log entry 15). -/
def pioRecheck (s : State) (p : PioPos) (caller : Caller) (t : Word) : State :=
  if t &&& intDatTmo ≠ 0 then pioFail s t false
  else if s.mayPoll p.inner then s.waitFor (.pioFifo { p with inner := p.inner + 1 }) caller
  else s.raiseErr (.pollTimeout .pioInner)

end Sys2Proof.Machine
end

