-- ==== Sys2Proof/Machine/Engine.lean ====
section
/-! DEFINITION. The command/response engine and what each operation does when a command ends: SUBMIT and AWAIT cut at
their register reads (42_command_response_engine.md R300 to R312), and the continuations of CMD, OPCOND_LOOP, BRINGUP,
SWITCH_PART, READ_BLOCK and WRITE_BLOCK (44_card_session.md). -/

namespace Sys2Proof.Machine

/-- What SUBMIT decides before its first event: the outcome that ends it, or the command with its word
(42_command_response_engine.md R301; order of the refusals: 60_exceptions.md R413). -/
def submitCheck (s : State) (opcode arg flags : Word) : Except OpResult (Command × Word) :=
  if s.halted then .error (.refused .halted)
  else if s.outstanding then .error (.refused .commandOutstanding)
  else
    match classify s.cfg opcode arg flags with
    | .error r => .error (.refused r)
    | .ok kind =>
      match encodeCommand s.cfg opcode arg kind flags with
      | none => .error (.fatal opcode)
      | some raw => .ok (⟨opcode, arg, flags, kind⟩, raw)

/-- An outcome that ends an operation before its first event; a fatal one sets HALTED. -/
def State.stopWith (s : State) : OpResult → State
  | .fatal opcode => s.fatal opcode
  | r => s.endOp r

/-- The start of SUBMIT, for the operation `caller`: refused, fatal, or the busy-wait begins
(42_command_response_engine.md R301). -/
def launch (s : State) (opcode arg flags : Word) (caller : Caller) : State :=
  match submitCheck s opcode arg flags with
  | .error r => s.stopWith r
  | .ok (c, raw) => (s.setFsm .submitting).waitFor (.busy c raw 0) caller

/-- The start of AWAIT's work on the command `c`: the read of `clear_bits(INTEN, CMD_WAIT_MASK)` is issued
(42_command_response_engine.md R304). -/
def awaitStart (s : State) (c : Command) (caller : Caller) : State := s.waitFor (.awaitClear c) caller

/-! ## When a command ends -/

/-- The flags values the session controller uses (92_eei_decisions.md D18), over the flag layout. -/
def flagsGoIdle (cfg : Config) : Word := fRspNone ||| cfg.flags.cmdBc
def flagsOpCond (cfg : Config) : Word := fRspR3 cfg.flags ||| cfg.flags.cmdBcr
def flagsSendCid (cfg : Config) : Word := fRspR2 cfg.flags ||| cfg.flags.cmdBcr
def flagsR1Ac (cfg : Config) : Word := fRspR1 cfg.flags ||| cfg.flags.cmdAc
def flagsR1BAc (cfg : Config) : Word := fRspR1B cfg.flags ||| cfg.flags.cmdAc
def flagsR1Adtc (cfg : Config) : Word := fRspR1 cfg.flags ||| cfg.flags.cmdAdtc

/-- The first response word. A kind of one word always gives one (10_state.md R153; log entry 25). -/
def word0 (words : List Word) : Word := words.headD 0

/-- `cid[i] = response_words[i]` (42_command_response_engine.md R316). -/
def cidOf (words : List Word) : Cid := ⟨words.getD 0 0, words.getD 1 0, words.getD 2 0, words.getD 3 0⟩

/-- One attempt of OPCOND_LOOP: SEND_OP_COND with argument `a` (44_card_session.md R353). -/
def opcondAttempt (s : State) (a : Word) (i : Nat) (purpose : OpcondFor) : State :=
  launch s opSendOpCond a (flagsOpCond s.cfg) (.opcond a i purpose)

/-- OPCOND_LOOP has returned `ocr`: to the host, or to step 4 and 5 (44_card_session.md R357, R358), or to step 6
(R359). -/
def opcondReturn (s : State) (ocr : Word) : OpcondFor → State
  | .host => s.endOp (.ok (.word ocr))
  | .probe => opcondAttempt (s.setSeq .b5) (selectWindow (ocr &&& s.ocrSupported) ||| ocrHcs) 1 .negotiate
  | .negotiate => launch (s.setSeq .b6) opAllSendCid 0 (flagsSendCid s.cfg) (.sendCid ocr)

/-- The body of OPCOND_LOOP after attempt `i` succeeded with response `w` (44_card_session.md R353). -/
def opcondNext (s : State) (a : Word) (i : Nat) (purpose : OpcondFor) (w : Word) : State :=
  if a = 0 then opcondReturn s w purpose
  else if ocrReady w then opcondReturn s w purpose
  else if i < opcondAttempts then opcondAttempt (s.emit (.delay opcondDelay)) a (i + 1) purpose
  else s.raiseErr .cardNotReady

/-- One SEND_STATUS of the partition switch (44_card_session.md R365). -/
def sendStatusPoll (s : State) (p : Word) (polls : Nat) : State :=
  launch s opSendStatus rcaArg (flagsR1Ac s.cfg) (.status p polls)

/-- The end of a partition switch on its final status word (44_card_session.md R364, R366). -/
def switchFinish (s : State) (p st : Word) : State :=
  if st &&& s.cfg.r1SwitchError ≠ 0 then
    (((s.warn st).emit (.diag (.switchError st))).setPart none).raiseErr (.switchError st)
  else ((s.warn st).setPart (some (p.setWidth 3))).endOp (.ok (.warnings (st &&& s.cfg.r1UnexpectedMask != 0)))

/-- The command of `caller` has succeeded with `words`: what `caller` does next. -/
def commandDone (s : State) (words : List Word) : Caller → State
  | .opcond a i purpose => opcondNext s a i purpose (word0 words)
  | .goIdle => opcondAttempt (s.setSeq .b3) 0 1 .probe
  | .sendCid ocr =>
    launch (s.setSeq .b7) opSetRelativeAddr rcaArg (flagsR1Ac s.cfg) (.setRca ocr (cidOf words))
  | .setRca ocr cid => launch s opSelectCard rcaArg (flagsR1BAc s.cfg) (.selectCard ocr cid)
  | .selectCard ocr cid =>
    let session : Session := ⟨rca, cid, none, s.ocrSupported, ocr⟩
    (s.setSession (some session)).endOp (.ok (.session session))
  | .switchCmd p => sendStatusPoll (s.setSeq .p2) p 0
  | .status p polls =>
    if cardState (word0 words) = statePrg then
      if s.mayPoll polls then sendStatusPoll s p (polls + 1)
      else (s.setPart none).raiseErr (.pollTimeout .statusLoop)
    else switchFinish s p (word0 words)
  | .readBlock => pioStart (s.setSeq .io3) .rx .readBlock
  | .writeBlock data => pioStart ((s.setSeq .io3).setBuf data) .tx (.writeBlock data)
  | .submit | .await | .cmd | .pio | .regOp => s.endOp (.ok (.response 0 words))

/-- The command of `caller` has failed with `e`: the error `caller` ends with (44_card_session.md R363, R364, R367). -/
def commandFailed (s : State) (e : ErrKind) : Caller → State
  | .sendCid _ => s.raiseErr .cardNotReady
  | .switchCmd _ | .status _ _ => (s.setPart none).raiseErr e
  | .submit | .await | .cmd | .opcond _ _ _ | .goIdle | .setRca _ _ | .selectCard _ _ | .readBlock | .writeBlock _
  | .pio | .regOp => s.raiseErr e

/-! ## The answers to the engine's reads -/

/-- The bit SUBMIT waits on: command-busy for SEND_STATUS, else bus-busy (42_command_response_engine.md R302). -/
def busyMask (cfg : Config) (opcode : Word) : Word :=
  if opcode = opSendStatus then cfg.stsCmdBusy else cfg.stsSdcBusy

/-- The argument, then the command are written, and INFLIGHT holds the command (42_command_response_engine.md R303). -/
def State.sendCommand (s : State) (c : Command) (raw : Word) : State :=
  ((s.writeReg offSdcArg c.arg).writeReg offSdcCmd raw).setInflight (some c)

/-- A read of SDC_STS in SUBMIT's busy-wait: while the bit is set the wait goes on; then the argument and the command are
written, INFLIGHT holds the command, and SUBMIT ends or AWAIT follows (42_command_response_engine.md R301 to R303). -/
def submitBusy (s : State) (c : Command) (raw : Word) (n : Nat) (caller : Caller) (v : Word) : State :=
  if v &&& busyMask s.cfg c.opcode = 0 then
    if caller = .submit then (s.sendCommand c raw).endOp (.ok .unit) else awaitStart (s.sendCommand c raw) c caller
  else if s.mayPoll n then s.waitFor (.busy c raw (n + 1)) caller
  else commandFailed (s.setFsm .failed) (.pollTimeout .busyWait) caller

/-- The answer to AWAIT's read of INTEN: the command bits are cleared, the poll begins
(42_command_response_engine.md R304). -/
def awaitClear (s : State) (c : Command) (caller : Caller) (v : Word) : State :=
  ((s.clearBitsWrite offInten (cmdWaitMask s.cfg) v).setFsm .awaitingResponse).waitFor (.poll c 0) caller

/-- `cmd_error(e)` with what it records (42_command_response_engine.md R311, 60_exceptions.md R400). -/
def cmdError (flag : Word) (c : Command) : ErrKind :=
  if flag &&& intRspCrcErr ≠ 0 then .rspCrcErr flag c.opcode c.arg else .cmdTimeout flag c.opcode c.arg

/-- AWAIT has failed on the matched bits `m` (42_command_response_engine.md R307, R308, R311). -/
def awaitFail (s : State) (c : Command) (m : Word) (caller : Caller) : State :=
  commandFailed
    (((s.failedWith (m &&& cmdErrMask)).emit (.diag (.cmdFailed c.opcode c.arg m))).hookUnlessTuning c.opcode)
    (cmdError (m &&& cmdErrMask) c) caller

/-- AWAIT has succeeded with `words` (42_command_response_engine.md R304, R309). -/
def awaitDone (s : State) (words : List Word) (caller : Caller) : State :=
  commandDone (s.decodedWith words) words caller

/-- The registers a kind's response is read from, in order (42_command_response_engine.md R309, R310). -/
def respRegs : Kind → List Word
  | .kNone => []
  | .kR2 => [offSdcResp3, offSdcResp2, offSdcResp1, offSdcResp0]
  | .kR1 | .kR3 | .kR4 | .kR5 | .kR6 | .kR7 | .kR1B => [offSdcResp0]

/-- The response registers still to read and the words got so far: the next read, or the end. -/
def readResponse (s : State) (regs : List Word) (got : List Word) (caller : Caller) : State :=
  match regs with
  | [] => awaitDone s got caller
  | off :: more => s.waitFor (.resp off more got) caller

/-- A poll read `v` of INT: while no awaited bit is set the poll goes on; then exactly the matched bits are written back,
and the command fails or its response is read (42_command_response_engine.md R305 to R309). -/
def awaitPoll (s : State) (c : Command) (n : Nat) (caller : Caller) (v : Word) : State :=
  let m := v &&& cmdWaitMask s.cfg
  if m = 0 then
    if s.mayPoll n then s.waitFor (.poll c (n + 1)) caller
    else commandFailed ((s.setFsm .failed).setInflight none) (.pollTimeout .intPoll) caller
  else
    if m &&& cmdErrMask ≠ 0 then awaitFail (s.writeReg offInt m) c m caller
    else readResponse (s.writeReg offInt m) (respRegs c.kind) [] caller

/-! ## The answer to any read -/

/-- The register a wait reads. -/
def Wait.off : Wait → Word
  | .regRead off => off
  | .setBits off _ => off
  | .clearBits off _ => off
  | .cfgEnable | .cfgMode => offCfg
  | .busy _ _ _ => offSdcSts
  | .awaitClear _ => offInten
  | .poll _ _ => offInt
  | .resp off _ _ => off
  | .pioClear _ | .pioRearm _ => offInten
  | .pioStatus _ | .pioRecheck _ => offInt
  | .pioFifo _ => offFifocs
  | .pioDrain _ _ => offRxdata

/-- What MMCHE does with the answer `v` to the read it waits on, up to its next read or its end. -/
def resume (t : Task) (v : Word) (s : State) : State :=
  match t.wait with
  | .regRead _ => s.endOp (.ok (.word v))
  | .setBits off mask => (s.setBitsWrite off mask v).endOp (.ok .unit)
  | .clearBits off mask => (s.clearBitsWrite off mask v).endOp (.ok .unit)
  | .cfgEnable => ((s.setBitsWrite offCfg s.cfg.cfgEnable v).emit (.delay s.cfg.tSettle)).waitFor .cfgMode t.caller
  | .cfgMode =>
    launch (((s.setBitsWrite offCfg s.cfg.cfgMode v).emit (.delay s.cfg.tSettle)).setSeq .b2)
      opGoIdleState 0 (flagsGoIdle s.cfg) t.caller
  | .busy c raw n => submitBusy s c raw n t.caller v
  | .awaitClear c => awaitClear s c t.caller v
  | .poll c n => awaitPoll s c n t.caller v
  | .resp _ more got => readResponse s more (got ++ [v]) t.caller
  | .pioClear dir => pioClear s dir t.caller v
  | .pioRearm p => pioRearm s p t.caller v
  | .pioStatus p => pioStatus s p t.caller v
  | .pioFifo p => pioFifo s p t.caller v
  | .pioDrain p left => pioDrain s p t.caller left v
  | .pioRecheck p => pioRecheck s p t.caller v

/-- The read MMCHE waits on is answered with `v`: the event `Rd(addr) -> v`, then what follows. -/
def answer (t : Task) (v : Word) (s : State) : State := resume t v (s.emit (.rd (s.addr t.wait.off) v))

/-- The running operation goes on with the environment's answers in order, to its end or to a read they do not reach
(20_memory.md R182, R189; log entries 5, 7). -/
def drive : List Word → State → State
  | [], s => s.setEnv []
  | v :: vs, s =>
    match s.task with
    | none => s.setEnv (v :: vs)
    | some t => drive vs (answer t v s)

/-- The running operation goes on: with every answer the environment has queued, or, if none is, with one free answer
(20_memory.md R188, R189; log entry 5). A spin whose exit the environment never grants goes on for ever, one step after
another (70_reset_and_hazards.md R451). -/
def stepTask (t : Task) (s : State) : State :=
  match s.env with
  | [] => answer t (Config.freeAnswer s.freeCount) s.spendFree
  | _ :: _ => drive s.env s

/-- A host operation other than CONSTRUCT begins: refused while HALTED (10_state.md R134), else it does `start` and runs
on with the answers queued. -/
def hostOp (s : State) (start : State → State) : Host.Outcome State Fault Refusal :=
  .next (drive s.env (if s.halted then s.begin.refuse .halted else start s.begin))

end Sys2Proof.Machine
end

