-- ==== Sys2Proof/Machine/CodecOps.lean ====
section
/-! DEFINITION. The codec's two functions as host operations (41_command_codec.md R250, R252, R276). -/

namespace Sys2Proof.Machine

/-- CLASSIFY (41_command_codec.md R250). -/
def execClassify (opcode arg flags : Word) (s : State) : Host.Outcome State Fault Refusal :=
  hostOp s (fun s =>
    match classify s.cfg opcode arg flags with
    | .ok k => s.endOp (.ok (.kind k))
    | .error r => s.refuse r)

/-- ENCODE. A kind that is not the one CLASSIFY gives is Refused(Sequencing) (41_command_codec.md R276); the refusals come
before the fatal outcome (60_exceptions.md R413; log entry 18). -/
def execEncode (opcode arg : Word) (kind : Kind) (flags : Word) (s : State) : Host.Outcome State Fault Refusal :=
  hostOp s (fun s =>
    match classify s.cfg opcode arg flags with
    | .error r => s.refuse r
    | .ok k =>
      if k = kind then
        match encodeCommand s.cfg opcode arg kind flags with
        | some raw => s.endOp (.ok (.word raw))
        | none => s.fatal opcode
      else s.refuse .sequencing)

end Sys2Proof.Machine
end

