-- ==== Sys2Proof/Machine/CommandOps.lean ====
section
/-! DEFINITION. SUBMIT, AWAIT and CMD as host operations (42_command_response_engine.md R301, R304, R312). -/

namespace Sys2Proof.Machine

/-- CMD: SUBMIT, then AWAIT (42_command_response_engine.md R312). -/
def runCmd (opcode arg flags : Word) (s : State) : Host.Outcome State Fault Refusal :=
  hostOp s (fun s => launch s opcode arg flags .cmd)

/-- SUBMIT (42_command_response_engine.md R301). -/
def execSubmit (opcode arg flags : Word) (s : State) : Host.Outcome State Fault Refusal :=
  hostOp s (fun s => launch s opcode arg flags .submit)

/-- AWAIT: refused unless a submitted command is in flight (42_command_response_engine.md R304). -/
def execAwait (s : State) : Host.Outcome State Fault Refusal :=
  hostOp s (fun s =>
    match s.fsm, s.inflight with
    | .submitting, some c => awaitStart s c .await
    | _, _ => s.refuse .noCommand)

/-- CMD (42_command_response_engine.md R312). -/
def execCmd (opcode arg flags : Word) (s : State) : Host.Outcome State Fault Refusal :=
  runCmd opcode arg flags s

end Sys2Proof.Machine
end

