-- ==== Sys2Proof/Machine/Commands.lean ====
section
/-! DEFINITION. The commands as instructions (41_command_codec.md R255 to R274, 30_encoding.md R222). "Every command is
sent by SUBMIT and answered by AWAIT" (41_command_codec.md section 2), so the meaning of a command row is CMD with the
row's opcode (DEDUCED, log entry 9). What each opcode changes stands in the codec (kind, word) and in the engine (the
busy bit of SEND_STATUS, the reset hook of the tuning opcodes). -/

namespace Sys2Proof.Machine

/-- GO_IDLE_STATE, opcode 0 (41_command_codec.md R255). -/
def execGoIdleState (arg flags : Word) (s : State) : Host.Outcome State Fault Refusal :=
  runCmd opGoIdleState arg flags s

/-- SEND_OP_COND, opcode 1 (41_command_codec.md R256). -/
def execSendOpCond (arg flags : Word) (s : State) : Host.Outcome State Fault Refusal :=
  runCmd opSendOpCond arg flags s

/-- ALL_SEND_CID, opcode 2 (41_command_codec.md R257). -/
def execAllSendCid (arg flags : Word) (s : State) : Host.Outcome State Fault Refusal :=
  runCmd opAllSendCid arg flags s

/-- SET_RELATIVE_ADDR, opcode 3 (41_command_codec.md R258). -/
def execSetRelativeAddr (arg flags : Word) (s : State) : Host.Outcome State Fault Refusal :=
  runCmd opSetRelativeAddr arg flags s

/-- SWITCH, opcode 6 (41_command_codec.md R259). -/
def execSwitchFunc (arg flags : Word) (s : State) : Host.Outcome State Fault Refusal :=
  runCmd opSwitch arg flags s

/-- SELECT_CARD, opcode 7 (41_command_codec.md R260). -/
def execSelectCard (arg flags : Word) (s : State) : Host.Outcome State Fault Refusal :=
  runCmd opSelectCard arg flags s

/-- DESELECT_CARD, opcode 7 with argument 0 (41_command_codec.md R260). -/
def execDeselectCard (flags : Word) (s : State) : Host.Outcome State Fault Refusal :=
  runCmd opSelectCard 0 flags s

/-- SEND_EXT_CSD, opcode 8 (41_command_codec.md R261). -/
def execSendExtCsd (arg flags : Word) (s : State) : Host.Outcome State Fault Refusal :=
  runCmd opSendExtCsd arg flags s

/-- STOP_TRANSMISSION, opcode 12 (41_command_codec.md R262). -/
def execStopTransmission (arg flags : Word) (s : State) : Host.Outcome State Fault Refusal :=
  runCmd opStopTransmission arg flags s

/-- SEND_STATUS, opcode 13 (41_command_codec.md R263). -/
def execSendStatus (arg flags : Word) (s : State) : Host.Outcome State Fault Refusal :=
  runCmd opSendStatus arg flags s

/-- SET_BLOCKLEN, opcode 16 (41_command_codec.md R264). -/
def execSetBlocklen (arg flags : Word) (s : State) : Host.Outcome State Fault Refusal :=
  runCmd opSetBlocklen arg flags s

/-- READ_SINGLE_BLOCK, opcode 17 (41_command_codec.md R265). -/
def execReadSingleBlock (arg flags : Word) (s : State) : Host.Outcome State Fault Refusal :=
  runCmd opReadSingleBlock arg flags s

/-- SEND_TUNING_BLOCK, opcode 19 (41_command_codec.md R267). -/
def execSendTuningBlock (arg flags : Word) (s : State) : Host.Outcome State Fault Refusal :=
  runCmd opSendTuningBlock arg flags s

/-- SEND_TUNING_BLOCK_HS200, opcode 21 (41_command_codec.md R267). -/
def execSendTuningBlockHs200 (arg flags : Word) (s : State) : Host.Outcome State Fault Refusal :=
  runCmd opSendTuningBlockHs200 arg flags s

/-- WRITE_BLOCK, the command, opcode 24 (41_command_codec.md R268). -/
def execWriteBlock (arg flags : Word) (s : State) : Host.Outcome State Fault Refusal :=
  runCmd opWriteBlock arg flags s

/-- FAST_IO, opcode 39 (41_command_codec.md R270). -/
def execFastIo (arg flags : Word) (s : State) : Host.Outcome State Fault Refusal :=
  runCmd opFastIo arg flags s

/-- GO_IRQ_STATE, opcode 40 (41_command_codec.md R271). -/
def execGoIrqState (arg flags : Word) (s : State) : Host.Outcome State Fault Refusal :=
  runCmd opGoIrqState arg flags s

/-- SD_APP_OP_COND, opcode 41 (41_command_codec.md R272). -/
def execSdAppOpCond (arg flags : Word) (s : State) : Host.Outcome State Fault Refusal :=
  runCmd opSdAppOpCond arg flags s

/-- APP_CMD, opcode 55 (41_command_codec.md R273). -/
def execAppCmd (arg flags : Word) (s : State) : Host.Outcome State Fault Refusal :=
  runCmd opAppCmd arg flags s

/-- READ_MULTIPLE_BLOCK, opcode 18: Fatal(UnsupportedMultiBlock) by the codec (41_command_codec.md R266). -/
def execReadMultipleBlock (arg flags : Word) (s : State) : Host.Outcome State Fault Refusal :=
  runCmd opReadMultipleBlock arg flags s

/-- WRITE_MULTIPLE_BLOCK, opcode 25: Fatal(UnsupportedMultiBlock) by the codec (41_command_codec.md R269). -/
def execWriteMultipleBlock (arg flags : Word) (s : State) : Host.Outcome State Fault Refusal :=
  runCmd opWriteMultipleBlock arg flags s

/-- GENERIC, any opcode without a rule of its own (41_command_codec.md R274). -/
def execGeneric (opcode : BitVec 6) (arg flags : Word) (s : State) : Host.Outcome State Fault Refusal :=
  runCmd (opcode.setWidth 32) arg flags s

end Sys2Proof.Machine
end

