-- ==== Sys2Proof/Machine/Lifecycle.lean ====
section
/-! DEFINITION. CONSTRUCT, RESET_HOOK and DEVICE_RESET (70_reset_and_hazards.md R440 to R442). -/

namespace Sys2Proof.Machine

/-- The bases CONSTRUCT accepts (20_memory.md R177). -/
def goodBase (base : Word) : Bool := base.toNat % 4 == 0 && base.toNat + 0xFC ≤ 0xFFFFFFFF

/-- CONSTRUCT: every engine register takes the value of 10_state.md R155, no event is emitted; REM, DONE and BUF are
unspecified there and take free values (log entry 2). It is the one operation HALTED does not refuse (10_state.md R134;
log entry 13). EXT_BLKCNT and OCR_SUPPORTED come from the parameters (log entry 19). -/
def execConstruct (base : Word) (s : State) : Host.Outcome State Fault Refusal :=
  if goodBase base then
    .next
      { s with
        base := base
        extBlkcnt := s.cfg.extBlkcnt
        ocrSupported := s.cfg.ocrSupported
        inflight := none
        fsm := .idle
        seq := .s0
        session := none
        rem := Config.freeRem s.freeCount
        done := Config.freeDone s.freeCount
        buf := (List.range blksz).map (Config.freeByte s.freeCount)
        halted := false
        errorFlag := 0
        respWords := []
        task := none
        freeCount := s.freeCount + 1
        result := some (.ok .unit) }
  else .next (s.refuse .badBase)

/-- RESET_HOOK: its whole effect is the event (70_reset_and_hazards.md R441; as a request of the host: log entry 14). -/
def execResetHook (s : State) : Host.Outcome State Fault Refusal :=
  hostOp s (fun s => s.hook.endOp (.ok .unit))

/-- DEVICE_RESET: the session is dropped, SEQ is S0 (70_reset_and_hazards.md R442). -/
def execDeviceReset (s : State) : Host.Outcome State Fault Refusal :=
  hostOp s (fun s => (s.setSession none).endOp (.ok .unit))

end Sys2Proof.Machine
end

