-- ==== Sys2Proof/Machine/RegisterOps.lean ====
section
/-! DEFINITION. The register interface operations (40_register_interface.md R240 to R244). A `reg` that is not in the
map is Refused(BadRegister). -/

namespace Sys2Proof.Machine

/-- REG_READ, `read(reg) -> u32` (40_register_interface.md R240). -/
def execRegRead (reg : Word) (s : State) : Host.Outcome State Fault Refusal :=
  hostOp s (fun s => if inMap reg then s.waitFor (.regRead reg) .regOp else s.refuse .badRegister)

/-- REG_WRITE, `write(reg, value)` (40_register_interface.md R241). -/
def execRegWrite (reg value : Word) (s : State) : Host.Outcome State Fault Refusal :=
  hostOp s (fun s => if inMap reg then (s.writeReg reg value).endOp (.ok .unit) else s.refuse .badRegister)

/-- REG_SET_BITS, `set_bits(reg, mask)` (40_register_interface.md R242). -/
def execRegSetBits (reg mask : Word) (s : State) : Host.Outcome State Fault Refusal :=
  hostOp s (fun s => if inMap reg then s.waitFor (.setBits reg mask) .regOp else s.refuse .badRegister)

/-- REG_CLEAR_BITS, `clear_bits(reg, mask)` (40_register_interface.md R243). -/
def execRegClearBits (reg mask : Word) (s : State) : Host.Outcome State Fault Refusal :=
  hostOp s (fun s => if inMap reg then s.waitFor (.clearBits reg mask) .regOp else s.refuse .badRegister)

end Sys2Proof.Machine
end

