-- ==== Sys2Proof/Machine/SessionOps.lean ====
section
/-! DEFINITION. The card session controller's operations and the steps of bring-up the spec lists as host operations
(44_card_session.md R350 to R370). What they do after their first command stands in Machine/Engine.lean. -/

namespace Sys2Proof.Machine

/-- BRINGUP: the session is dropped and step 1 begins with the read of `set_bits(CFG, CFG_ENABLE)`
(44_card_session.md R350, R351). -/
def execBringup (s : State) : Host.Outcome State Fault Refusal :=
  hostOp s (fun s =>
    if s.outstanding then s.refuse .commandOutstanding
    else ((s.setSession none).setSeq .b1).waitFor .cfgEnable .goIdle)

/-- OPCOND_LOOP called by the host (44_card_session.md R353). -/
def execOpcondLoop (ocrArg : Word) (s : State) : Host.Outcome State Fault Refusal :=
  hostOp s (fun s => opcondAttempt s ocrArg 1 .host)

/-- FFS (44_card_session.md R355). -/
def execFfs (x : Word) (s : State) : Host.Outcome State Fault Refusal :=
  hostOp s (fun s => s.endOp (.ok (.index (ffs x))))

/-- SELECT_WINDOW (44_card_session.md R356). -/
def execSelectWindow (m : Word) (s : State) : Host.Outcome State Fault Refusal :=
  hostOp s (fun s => s.endOp (.ok (.word (selectWindow m))))

/-- The preconditions of SWITCH_PART, READ_BLOCK and WRITE_BLOCK (44_card_session.md R370). -/
def sessionRefusal (s : State) : Option Reason :=
  if s.outstanding then some .commandOutstanding
  else if s.session.isNone then some .noSession
  else none

/-- SWITCH_PART (44_card_session.md R364). -/
def execSwitchPart (partitionId : Word) (s : State) : Host.Outcome State Fault Refusal :=
  hostOp s (fun s =>
    match sessionRefusal s with
    | some r => s.refuse r
    | none =>
      if 7 < partitionId.toNat then s.refuse .badPartition
      else
        launch (s.setSeq .p1) opSwitch (switchArg partitionId) (flagsR1BAc s.cfg) (.switchCmd partitionId))

/-- The block-count write and the command of a single-block operation (44_card_session.md R367, R368). -/
def blockCommand (s : State) (opcode addr : Word) (caller : Caller) : State :=
  launch (((s.setSeq .io1).writeReg offSdcBlkNum 1).setSeq .io2) opcode addr (flagsR1Adtc s.cfg) caller

/-- READ_BLOCK (44_card_session.md R367). -/
def execReadBlock (addr : Word) (s : State) : Host.Outcome State Fault Refusal :=
  hostOp s (fun s =>
    match sessionRefusal s with
    | some r => s.refuse r
    | none => blockCommand s opReadSingleBlock addr .readBlock)

/-- WRITE_BLOCK, the host operation (44_card_session.md R369). -/
def execWriteBlockOp (addr : Word) (data : List Byte) (s : State) : Host.Outcome State Fault Refusal :=
  hostOp s (fun s =>
    match sessionRefusal s with
    | some r => s.refuse r
    | none => blockCommand s opWriteBlock addr (.writeBlock data))

end Sys2Proof.Machine
end

