-- ==== Sys2Proof/Machine/TransferOps.lean ====
section
/-! DEFINITION. PIO_READ and PIO_WRITE as host operations: refused unless the last command ended without error
(43_pio_transfer.md R330, R331, R337). -/

namespace Sys2Proof.Machine

/-- PIO_READ (43_pio_transfer.md R331). -/
def execPioRead (s : State) : Host.Outcome State Fault Refusal :=
  hostOp s (fun s => if s.fsm = .decoded then pioStart s .rx .pio else s.refuse .noCompanionCommand)

/-- PIO_WRITE (43_pio_transfer.md R337). -/
def execPioWrite (data : List Byte) (s : State) : Host.Outcome State Fault Refusal :=
  hostOp s (fun s =>
    if s.fsm = .decoded then pioStart (s.setBuf data) .tx .pio else s.refuse .noCompanionCommand)

end Sys2Proof.Machine
end

