-- ==== Sys2Proof/Machine/Dispatch.lean ====
section
/-! DEFINITION. The meaning of every instruction, one arm per constructor. -/

namespace Sys2Proof.Machine

def exec (i : Instr) (s : State) : Host.Outcome State Fault Refusal :=
  match i with
  | .goIdleState a f => Sys2Proof.Machine.execGoIdleState a f s
  | .sendOpCond a f => Sys2Proof.Machine.execSendOpCond a f s
  | .allSendCid a f => Sys2Proof.Machine.execAllSendCid a f s
  | .setRelativeAddr a f => Sys2Proof.Machine.execSetRelativeAddr a f s
  | .switchFunc a f => Sys2Proof.Machine.execSwitchFunc a f s
  | .selectCard a f => Sys2Proof.Machine.execSelectCard a f s
  | .deselectCard f => Sys2Proof.Machine.execDeselectCard f s
  | .sendExtCsd a f => Sys2Proof.Machine.execSendExtCsd a f s
  | .stopTransmission a f => Sys2Proof.Machine.execStopTransmission a f s
  | .sendStatus a f => Sys2Proof.Machine.execSendStatus a f s
  | .setBlocklen a f => Sys2Proof.Machine.execSetBlocklen a f s
  | .readSingleBlock a f => Sys2Proof.Machine.execReadSingleBlock a f s
  | .sendTuningBlock a f => Sys2Proof.Machine.execSendTuningBlock a f s
  | .sendTuningBlockHs200 a f => Sys2Proof.Machine.execSendTuningBlockHs200 a f s
  | .writeBlock a f => Sys2Proof.Machine.execWriteBlock a f s
  | .fastIo a f => Sys2Proof.Machine.execFastIo a f s
  | .goIrqState a f => Sys2Proof.Machine.execGoIrqState a f s
  | .sdAppOpCond a f => Sys2Proof.Machine.execSdAppOpCond a f s
  | .appCmd a f => Sys2Proof.Machine.execAppCmd a f s
  | .generic o a f => Sys2Proof.Machine.execGeneric o a f s
  | .readMultipleBlock a f => Sys2Proof.Machine.execReadMultipleBlock a f s
  | .writeMultipleBlock a f => Sys2Proof.Machine.execWriteMultipleBlock a f s
  | .regRead r => Sys2Proof.Machine.execRegRead r s
  | .regWrite r v => Sys2Proof.Machine.execRegWrite r v s
  | .regSetBits r m => Sys2Proof.Machine.execRegSetBits r m s
  | .regClearBits r m => Sys2Proof.Machine.execRegClearBits r m s
  | .classify o a f => Sys2Proof.Machine.execClassify o a f s
  | .encode o a k f => Sys2Proof.Machine.execEncode o a k f s
  | .submit o a f => Sys2Proof.Machine.execSubmit o a f s
  | .await => Sys2Proof.Machine.execAwait s
  | .cmd o a f => Sys2Proof.Machine.execCmd o a f s
  | .pioRead => Sys2Proof.Machine.execPioRead s
  | .pioWrite d => Sys2Proof.Machine.execPioWrite d s
  | .bringup => Sys2Proof.Machine.execBringup s
  | .opcondLoop a => Sys2Proof.Machine.execOpcondLoop a s
  | .ffs x => Sys2Proof.Machine.execFfs x s
  | .selectWindow m => Sys2Proof.Machine.execSelectWindow m s
  | .switchPart p => Sys2Proof.Machine.execSwitchPart p s
  | .readBlock a => Sys2Proof.Machine.execReadBlock a s
  | .writeBlockOp a d => Sys2Proof.Machine.execWriteBlockOp a d s
  | .construct b => Sys2Proof.Machine.execConstruct b s
  | .resetHook => Sys2Proof.Machine.execResetHook s
  | .deviceReset => Sys2Proof.Machine.execDeviceReset s

end Sys2Proof.Machine
end

