-- ==== Sys2Proof/Machine/Step.lean ====
section
/-! DEFINITION. One step of MMCHE, and placing a request where the next step takes it.

MMCHE fetches no instructions from memory (20_memory.md R186): it waits for the host's next operation (10_state.md
R158). A step goes on with the running operation if there is one, else it takes the host's next request, else MMCHE
waits. -/

namespace Sys2Proof.Machine

/-- One step. -/
def step (s : State) : Host.Outcome State Fault Refusal :=
  match s.task with
  | some t => .next (stepTask t s)
  | none =>
    match s.requests with
    | [] => .next s
    | r :: rs =>
      match decode r with
      | .error why => .fault (.undecodable why)
      | .ok i => exec i (s.setRequests rs)

/-- `s` with the request whose bits are `w` in the opcode table's numbering placed first in the host's queue and no
operation running, so that the next step takes it (log entry 8). -/
def State.withFetchWord (s : State) (nbits w : Nat) : State :=
  { s with task := none, requests := Request.ofTable nbits w :: s.requests }

end Sys2Proof.Machine
end

