-- ==== Sys2Proof/Safety.lean ====
section
/-! DEFINITION. The terms claims are made in: scripts of register accesses in the spec's own trace notation
(95_test_vectors.md), what an environment answers to one command and to one transfer (42_command_response_engine.md
R302 to R310, 43_pio_transfer.md R331 to R344), and the invariant of the machine. Nothing here is used by the machine. -/

namespace Sys2Proof.Machine

/-! ## Scripts -/

/-- One event in the notation of 95_test_vectors.md: addresses are offsets from BASE. -/
inductive Io where
  | rd (off value : Word)
  | wr (off value : Word)
  | delay (us : Nat)
  | diag (d : Diag)
  | hook
  deriving DecidableEq, Repr

/-- The event at a base. -/
def Io.event (base : Word) : Io → Event
  | .rd off v => .rd (base + off) v
  | .wr off v => .wr (base + off) v
  | .delay us => .delay us
  | .diag d => .diag d
  | .hook => .resetHook

/-- The answers of the environment in a script, in order. -/
def answersOf : List Io → List Word
  | [] => []
  | .rd _ v :: l => v :: answersOf l
  | .wr _ _ :: l | .delay _ :: l | .diag _ :: l | .hook :: l => answersOf l

/-- `s` after the events of `io` were emitted. -/
def State.says (s : State) (io : List Io) : State := { s with trace := s.trace ++ io.map (Io.event s.base) }

/-- `s` after the events of `io` were emitted, with the answers `rest` still queued. -/
def State.ran (s : State) (io : List Io) (rest : List Word) : State := { s.says io with env := rest }

/-- MMCHE waits for a host operation and is not halted (10_state.md R126, R134, R158). -/
def State.ready (s : State) : Prop := s.task = none ∧ s.seq = .s0 ∧ s.halted = false

/-- `s` is ready and no command is outstanding (10_state.md R151). -/
def State.free (s : State) : Prop := s.ready ∧ s.outstanding = false

/-! ## One command -/

/-- What the environment answers to one command: reads of SDC_STS that show busy, the one that does not, the read of
INTEN, the reads of INT without and the one with an awaited bit, the response words. -/
structure CmdAnswers where
  busy   : List Word
  idle   : Word
  inten  : Word
  polls  : List Word
  status : Word
  words  : List Word
  deriving Repr

/-- The matched bits, `m` of 42_command_response_engine.md R305. -/
def CmdAnswers.matched (a : CmdAnswers) (cfg : Config) : Word := a.status &&& cmdWaitMask cfg

/-- AWAIT's poll ends at the first read with an awaited bit (42_command_response_engine.md R305). -/
def CmdAnswers.polled (a : CmdAnswers) (cfg : Config) : Prop :=
  (∀ p ∈ a.polls, p &&& cmdWaitMask cfg = 0) ∧ a.matched cfg ≠ 0

/-- SUBMIT's busy-wait ends at the first read without the busy bit (42_command_response_engine.md R302), AWAIT's poll as
above. -/
def CmdAnswers.spins (a : CmdAnswers) (cfg : Config) (opcode : Word) : Prop :=
  (∀ b ∈ a.busy, b &&& busyMask cfg opcode ≠ 0) ∧ a.idle &&& busyMask cfg opcode = 0 ∧ a.polled cfg

/-- The command succeeds: no error bit among the matched ones, as many response words as the kind has. -/
def CmdAnswers.succeeds (a : CmdAnswers) (cfg : Config) (opcode : Word) (kind : Kind) : Prop :=
  a.spins cfg opcode ∧ a.matched cfg &&& cmdErrMask = 0 ∧ a.words.length = kindWords kind

/-- The command fails: an error bit among the matched ones; no response is read. -/
def CmdAnswers.fails (a : CmdAnswers) (cfg : Config) (opcode : Word) : Prop :=
  a.spins cfg opcode ∧ a.matched cfg &&& cmdErrMask ≠ 0 ∧ a.words = []

/-- The events of SUBMIT (42_command_response_engine.md R302, R303). -/
def submitIo (a : CmdAnswers) (arg raw : Word) : List Io :=
  a.busy.map (Io.rd offSdcSts) ++ [.rd offSdcSts a.idle, .wr offSdcArg arg, .wr offSdcCmd raw]

/-- The events of AWAIT up to the acknowledge (42_command_response_engine.md R304 to R306). -/
def awaitIo (a : CmdAnswers) (cfg : Config) : List Io :=
  [.rd offInten a.inten, .wr offInten (a.inten &&& ~~~cmdWaitMask cfg)] ++ a.polls.map (Io.rd offInt) ++
    [.rd offInt a.status, .wr offInt (a.matched cfg)]

/-- The response reads of a kind (42_command_response_engine.md R309, R310): RESP3 first for K_R2. -/
def respIo : Kind → List Word → List Io
  | .kNone, _ => []
  | .kR2, ws => List.zipWith Io.rd [offSdcResp3, offSdcResp2, offSdcResp1, offSdcResp0] ws
  | .kR1, ws | .kR3, ws | .kR4, ws | .kR5, ws | .kR6, ws | .kR7, ws | .kR1B, ws =>
    List.zipWith Io.rd [offSdcResp0] ws

/-- The events of a command that succeeds (42_command_response_engine.md R312). -/
def cmdIo (a : CmdAnswers) (cfg : Config) (arg raw : Word) (kind : Kind) : List Io :=
  submitIo a arg raw ++ awaitIo a cfg ++ respIo kind a.words

/-- The events after the acknowledge of a command that fails: the diagnostic, and the reset hook but for a tuning opcode
(42_command_response_engine.md R307, R308). -/
def cmdFailIo (a : CmdAnswers) (cfg : Config) (opcode arg : Word) : List Io :=
  .diag (.cmdFailed opcode arg (a.matched cfg)) :: (if opcode ∈ cfg.tuningOpcodes then [] else [.hook])

/-! ## One transfer -/

/-- One outer iteration: the reads of INTEN and INT. -/
structure OuterAnswers where
  inten  : Word
  status : Word
  deriving Repr

/-- One burst or chunk: pairs of a FIFOCS read that does not allow it and the re-check read of INT, the FIFOCS read that
does, and the words read (none for a write). -/
structure BurstAnswers where
  waits : List (Word × Word)
  fifo  : Word
  words : List Word
  deriving Repr

/-- What the environment answers to one transfer: the read of INTEN for the clear, the first outer iteration, the bursts,
the outer iterations after the data. -/
structure PioAnswers where
  clear  : Word
  first  : OuterAnswers
  bursts : List BurstAnswers
  later  : List OuterAnswers
  deriving Repr

/-- Whether a status shows transfer-complete. -/
def OuterAnswers.complete (o : OuterAnswers) : Prop := o.status &&& intXferCompl ≠ 0
/-- Whether a status shows no error. -/
def OuterAnswers.clean (o : OuterAnswers) : Prop := o.status &&& xferErrMask = 0

/-- The completion test is met as 43_pio_transfer.md R335 says: no outer status shows an error, and transfer-complete is
seen first in the first iteration, or first in the last of the later ones. -/
def PioAnswers.completes (a : PioAnswers) : Prop :=
  a.first.clean ∧ (∀ o ∈ a.later, o.clean) ∧
    ((a.first.complete ∧ a.later = []) ∨
     (¬a.first.complete ∧ ∃ more last, a.later = more ++ [last] ∧ (∀ o ∈ more, ¬o.complete) ∧ last.complete))

/-- A burst of PIO_READ: waits while RXCNT < 64 and no data-timeout, then RXCNT ≥ 64 and 16 words
(43_pio_transfer.md R332, R334). -/
def BurstAnswers.rx (b : BurstAnswers) : Prop :=
  (∀ w ∈ b.waits, rxCnt w.1 < fifoThreshold ∧ w.2 &&& intDatTmo = 0) ∧ rxCnt b.fifo ≥ fifoThreshold ∧
    b.words.length = 16

/-- A chunk of PIO_WRITE: waits while TXCNT is not 0 and no data-timeout, then TXCNT = 0 (43_pio_transfer.md R338). -/
def BurstAnswers.tx (b : BurstAnswers) (cfg : Config) : Prop :=
  (∀ w ∈ b.waits, txCnt cfg w.1 ≠ 0 ∧ w.2 &&& intDatTmo = 0) ∧ txCnt cfg b.fifo = 0 ∧ b.words = []

/-- The events of an outer iteration, with the acknowledge of PIO_ACK (43_pio_transfer.md R331, R344). -/
def outerIo (cfg : Config) (o : OuterAnswers) : List Io :=
  [.rd offInten o.inten, .wr offInten (o.inten ||| xferInts), .rd offInt o.status] ++
    (if cfg.pioAck ∧ o.status &&& xferInts ≠ 0 then [.wr offInt (o.status &&& xferInts)] else [])

/-- The events of the waits before a burst. -/
def waitsIo (b : BurstAnswers) : List Io := b.waits.flatMap (fun w => [.rd offFifocs w.1, .rd offInt w.2])

/-- The events of a read burst. -/
def rxBurstIo (b : BurstAnswers) : List Io :=
  waitsIo b ++ [.rd offFifocs b.fifo] ++ b.words.map (Io.rd offRxdata)

/-- The writes of `k` words of a block from byte offset `off` (43_pio_transfer.md R339, 20_memory.md R176). -/
def chunkIo (data : List Byte) : Nat → Nat → List Io
  | 0, _ => []
  | k + 1, off => .wr offTxdata (wordAt data off) :: chunkIo data k (off + 4)

/-- The events of the write chunks from byte offset `off` on, 32 words each. -/
def txChunksIo (data : List Byte) : List BurstAnswers → Nat → List Io
  | [], _ => []
  | b :: bs, off => waitsIo b ++ [.rd offFifocs b.fifo] ++ chunkIo data 32 off ++ txChunksIo data bs (off + 128)

/-- The clear of the transfer enables that begins a transfer. -/
def clearIo (a : PioAnswers) : List Io := [.rd offInten a.clear, .wr offInten (a.clear &&& ~~~xferInts)]

/-- The events of a PIO_READ. -/
def pioReadIo (cfg : Config) (a : PioAnswers) : List Io :=
  clearIo a ++ outerIo cfg a.first ++ a.bursts.flatMap rxBurstIo ++ a.later.flatMap (outerIo cfg)

/-- The block a PIO_READ returns: the words read, each least significant byte first (43_pio_transfer.md R336). -/
def pioReadBlock (a : PioAnswers) : List Byte := a.bursts.flatMap (fun b => b.words.flatMap bytesOfWord)

/-- The events of a PIO_WRITE. -/
def pioWriteIo (cfg : Config) (a : PioAnswers) (data : List Byte) : List Io :=
  clearIo a ++ outerIo cfg a.first ++ txChunksIo data a.bursts 0 ++ a.later.flatMap (outerIo cfg)

/-- The environment lets a PIO_READ succeed: 8 bursts (43_pio_transfer.md R342). -/
def PioAnswers.readsBlock (a : PioAnswers) : Prop :=
  a.completes ∧ a.bursts.length = 8 ∧ ∀ b ∈ a.bursts, b.rx

/-- The environment lets a PIO_WRITE succeed: 4 chunks (43_pio_transfer.md R342). -/
def PioAnswers.writesBlock (a : PioAnswers) (cfg : Config) : Prop :=
  a.completes ∧ a.bursts.length = 4 ∧ ∀ b ∈ a.bursts, b.tx cfg

/-! ## The session controller's operations -/

/-- The attempts of OPCOND_LOOP that are followed by another one, each with the delay after it
(44_card_session.md R353). -/
def opcondWaitIo (cfg : Config) (arg : Word) (waiting : List CmdAnswers) : List Io :=
  waiting.flatMap (fun a => cmdIo a cfg arg (rawWord cfg 1 .kR3 0x61) .kR3 ++ [.delay 10000])

/-- The response shows the card not ready: bit 31 is clear (42_command_response_engine.md R314). -/
def CmdAnswers.notReady (a : CmdAnswers) : Prop := (word0 a.words).getLsbD 31 = false

/-- What the environment answers to one bring-up: the two reads of CFG, GO_IDLE_STATE, the probe, the attempts that find
the card not ready and the one that finds it ready, ALL_SEND_CID, SET_RELATIVE_ADDR, SELECT_CARD. -/
structure BringupAnswers where
  cfg1    : Word
  cfg2    : Word
  goIdle  : CmdAnswers
  probe   : CmdAnswers
  waiting : List CmdAnswers
  ready   : CmdAnswers
  cid     : CmdAnswers
  setRca  : CmdAnswers
  select  : CmdAnswers
  deriving Repr

/-- Every step succeeds (44_card_session.md R351 to R361). -/
def BringupAnswers.succeeds (a : BringupAnswers) (cfg : Config) : Prop :=
  a.goIdle.succeeds cfg 0 .kNone ∧ a.probe.succeeds cfg 1 .kR3 ∧
    (∀ x ∈ a.waiting, x.succeeds cfg 1 .kR3 ∧ x.notReady) ∧ a.waiting.length < 100 ∧
    a.ready.succeeds cfg 1 .kR3 ∧ ¬a.ready.notReady ∧ a.cid.succeeds cfg 2 .kR2 ∧
    a.setRca.succeeds cfg 3 .kR1 ∧ a.select.succeeds cfg 7 .kR1B

/-- The events of step 1 (44_card_session.md R351). -/
def configIo (cfg : Config) (c1 c2 : Word) : List Io :=
  [.rd offCfg c1, .wr offCfg (c1 ||| cfg.cfgEnable), .delay cfg.tSettle, .rd offCfg c2, .wr offCfg (c2 ||| cfg.cfgMode),
   .delay cfg.tSettle]

/-- The argument of step 5: the window the probe's response gives, with the host-capacity-support bit
(44_card_session.md R357, R358). -/
def negotiationArg (supported probe : Word) : Word := selectWindow (probe &&& supported) ||| 0x40000000

/-- No attempt of step 5 finds the card ready: the 99 in `waiting` and the last one, `ready`, do not
(44_card_session.md R353, R358). -/
def BringupAnswers.neverReady (a : BringupAnswers) (cfg : Config) : Prop :=
  a.goIdle.succeeds cfg 0 .kNone ∧ a.probe.succeeds cfg 1 .kR3 ∧
    (∀ x ∈ a.waiting, x.succeeds cfg 1 .kR3 ∧ x.notReady) ∧ a.waiting.length = 99 ∧
    a.ready.succeeds cfg 1 .kR3 ∧ a.ready.notReady

/-- The events of steps 1 to 5 of a bring-up, up to the last attempt of step 5 (44_card_session.md R350 to R358). -/
def negotiationIo (cfg : Config) (supported : Word) (a : BringupAnswers) : List Io :=
  configIo cfg a.cfg1 a.cfg2 ++ cmdIo a.goIdle cfg 0 (rawWord cfg 0 .kNone 0x40) .kNone ++
    cmdIo a.probe cfg 0 (rawWord cfg 1 .kR3 0x61) .kR3 ++
    opcondWaitIo cfg (negotiationArg supported (word0 a.probe.words)) a.waiting ++
    cmdIo a.ready cfg (negotiationArg supported (word0 a.probe.words)) (rawWord cfg 1 .kR3 0x61) .kR3

/-- The events of a bring-up that succeeds (44_card_session.md R350 to R361). -/
def bringupIo (cfg : Config) (supported : Word) (a : BringupAnswers) : List Io :=
  negotiationIo cfg supported a ++ cmdIo a.cid cfg 0 (rawWord cfg 2 .kR2 0x67) .kR2 ++
    cmdIo a.setRca cfg 0x00010000 (rawWord cfg 3 .kR1 0x15) .kR1 ++
    cmdIo a.select cfg 0x00010000 (rawWord cfg 7 .kR1B 0x1D) .kR1B

/-- The session a bring-up that succeeds leaves (44_card_session.md R362; `supported`: 10_state.md R131). -/
def BringupAnswers.session (a : BringupAnswers) (supported : Word) : Session :=
  { rca := 1, cid := cidOf a.cid.words, part := none, supported := supported, ocr := word0 a.ready.words }

/-- What the environment answers to one partition switch: SWITCH, the SEND_STATUS commands that find the card
programming, and the last one. -/
structure SwitchAnswers where
  switch      : CmdAnswers
  programming : List CmdAnswers
  final       : CmdAnswers
  deriving Repr

/-- Every command succeeds; the state field is 7 in all status words but the last (44_card_session.md R365). -/
def SwitchAnswers.succeeds (a : SwitchAnswers) (cfg : Config) : Prop :=
  a.switch.succeeds cfg 6 .kR1B ∧
    (∀ x ∈ a.programming, x.succeeds cfg 13 .kR1 ∧ cardState (word0 x.words) = 7) ∧
    a.final.succeeds cfg 13 .kR1 ∧ cardState (word0 a.final.words) ≠ 7

/-- The commands of a partition switch (44_card_session.md R364, R365). -/
def switchIo (cfg : Config) (p : Word) (a : SwitchAnswers) : List Io :=
  cmdIo a.switch cfg (0x03B34800 ||| p <<< 8) (rawWord cfg 6 .kR1B 0x1D) .kR1B ++
    (a.programming ++ [a.final]).flatMap (fun x => cmdIo x cfg 0x00010000 (rawWord cfg 13 .kR1 0x15) .kR1)

/-- The block-count write and the command of READ_BLOCK and WRITE_BLOCK (44_card_session.md R367 to R369). -/
def blockIo (cfg : Config) (opcode addr : Word) (c : CmdAnswers) : List Io :=
  .wr offSdcBlkNum 1 :: cmdIo c cfg addr (rawWord cfg opcode .kR1 0x35) .kR1

/-- An event that reads the register at an address. -/
def Event.reads (addr : Word) : Event → Bool
  | .rd a _ => a == addr
  | .wr _ _ | .delay _ | .diag _ | .resetHook => false

/-- An event that writes the register at an address. -/
def Event.writes (addr : Word) : Event → Bool
  | .wr a _ => a == addr
  | .rd _ _ | .delay _ | .diag _ | .resetHook => false

/-- The next step begins one of the host's four register operations or goes on with one (40_register_interface.md). -/
def State.inRegOp (s : State) : Prop :=
  (∃ t, s.task = some t ∧ t.caller = .regOp) ∨
    (s.task = none ∧ ∃ r rs reg x, s.requests = r :: rs ∧
      (decode r = .ok (.regRead reg) ∨ decode r = .ok (.regWrite reg x) ∨ decode r = .ok (.regSetBits reg x) ∨
        decode r = .ok (.regClearBits reg x)))

/-- The address an event accesses. -/
def Event.address : Event → Option Word
  | .rd a _ => some a
  | .wr a _ => some a
  | .delay _ | .diag _ | .resetHook => none

/-! ## The invariant -/

/-- SEQ and SESSION are those of the operation that runs; its operands are in their ranges (10_state.md R126,
44_card_session.md R350, R353, R364, R367, R369). -/
def Caller.fits (s : State) : Caller → Prop
  | .opcond _ i purpose =>
    1 ≤ i ∧ i ≤ opcondAttempts ∧
      match purpose with
      | .host => s.seq = .s0
      | .probe => s.seq = .b3 ∧ s.session = none
      | .negotiate => s.seq = .b5 ∧ s.session = none
  | .goIdle => (s.seq = .b1 ∨ s.seq = .b2) ∧ s.session = none
  | .sendCid _ => s.seq = .b6 ∧ s.session = none
  | .setRca _ _ | .selectCard _ _ => s.seq = .b7 ∧ s.session = none
  | .switchCmd p => s.seq = .p1 ∧ s.session ≠ none ∧ p.toNat ≤ 7
  | .status p _ => s.seq = .p2 ∧ s.session ≠ none ∧ p.toNat ≤ 7
  | .readBlock => (s.seq = .io2 ∨ s.seq = .io3) ∧ s.session ≠ none
  | .writeBlock data => (s.seq = .io2 ∨ s.seq = .io3) ∧ s.session ≠ none ∧ data.length = blksz
  | .submit | .await | .cmd | .pio | .regOp => s.seq = .s0

/-- Whether an operation of this kind writes SESSION when it goes on (44_card_session.md R350, R364). -/
def Caller.writesSession : Caller → Bool
  | .opcond _ _ .host | .submit | .await | .cmd | .readBlock | .writeBlock _ | .pio | .regOp => false
  | .opcond _ _ .probe | .opcond _ _ .negotiate | .goIdle | .sendCid _ | .setRca _ _ | .selectCard _ _ | .switchCmd _
  | .status _ _ => true

/-- Whether an operation of this kind sends a command and goes on after it. -/
def Caller.awaits : Caller → Bool
  | .submit | .pio | .regOp => false
  | .await | .cmd | .opcond _ _ _ | .goIdle | .sendCid _ | .setRca _ _ | .selectCard _ _ | .switchCmd _ | .status _ _
  | .readBlock | .writeBlock _ => true

/-- Whether an operation of this kind runs a transfer in this direction. -/
def Caller.transfers : Caller → Dir → Bool
  | .pio, _ | .readBlock, .rx | .writeBlock _, .tx => true
  | _, _ => false

/-- The bytes of one burst or chunk. -/
def Dir.burst : Dir → Nat
  | .rx => 64
  | .tx => 128

/-- The state fits the read MMCHE waits on: FSM and INFLIGHT as 42_command_response_engine.md R300 to R304 say, the OPC field
of a word that waits to be written its opcode (30_encoding.md R202), REM as 43_pio_transfer.md R333 and R339 say. -/
def Wait.fits (s : State) (caller : Caller) : Wait → Prop
  | .regRead off | .setBits off _ | .clearBits off _ => inMap off = true ∧ caller = .regOp
  | .cfgEnable | .cfgMode => caller = .goIdle ∧ s.seq = .b1 ∧ s.outstanding = false
  | .busy c raw _ =>
    s.fsm = .submitting ∧ s.inflight = none ∧ c.opcode.toNat ≤ 63 ∧ raw &&& 0x3F = c.opcode ∧
      (caller = .submit ∨ caller.awaits = true)
  | .awaitClear c => s.fsm = .submitting ∧ s.inflight = some c ∧ caller.awaits = true
  | .poll c _ => s.fsm = .awaitingResponse ∧ s.inflight = some c ∧ caller.awaits = true
  | .resp off more _ =>
    s.fsm = .awaitingResponse ∧ s.inflight ≠ none ∧ caller.awaits = true ∧
      (off :: more) <:+ [offSdcResp3, offSdcResp2, offSdcResp1, offSdcResp0]
  | .pioClear dir => s.fsm = .decoded ∧ caller.transfers dir = true
  | .pioRearm p | .pioStatus p => s.fsm = .decoded ∧ caller.transfers p.dir = true ∧ s.rem % p.dir.burst = 0
  | .pioFifo p | .pioRecheck p =>
    s.fsm = .decoded ∧ caller.transfers p.dir = true ∧ s.rem % p.dir.burst = 0 ∧ 0 < s.rem
  | .pioDrain p left =>
    s.fsm = .decoded ∧ caller.transfers p.dir = true ∧ p.dir = .rx ∧ 1 ≤ left ∧ left ≤ 16 ∧ 4 * left ≤ s.rem ∧
      (s.rem - 4 * left) % 64 = 0

/-- The invariant of MMCHE: what every step keeps. -/
structure Inv (s : State) : Prop where
  /-- The parameters are ones the spec allows (00_scope.md R110, 92_eei_decisions.md D2). -/
  cfg : s.cfg.wellFormed = true
  /-- BASE is one CONSTRUCT accepts, so every register address is aligned and none wraps (20_memory.md R177). -/
  base : goodBase s.base = true
  /-- BUF has 512 bytes (10_state.md R133). -/
  buf : s.buf.length = blksz
  /-- REM is in 0..512 (10_state.md R133). -/
  rem : s.rem ≤ blksz
  /-- `SESSION.rca` is the constant 1 (10_state.md R128). -/
  rca : ∀ x, s.session = some x → x.rca = 1
  /-- INFLIGHT's opcode is in 0..63 (10_state.md R124). -/
  opcode : ∀ c, s.inflight = some c → c.opcode.toNat ≤ 63
  /-- A command is in flight only between SUBMIT and the end of AWAIT (42_command_response_engine.md R300). -/
  inflight : s.outstanding = false → s.inflight = none
  /-- Between operations SEQ is S0 (10_state.md R126), AWAIT is not polling, and a submitted command is in flight. -/
  between : s.task = none → s.seq = .s0 ∧ s.fsm ≠ .awaitingResponse ∧ (s.fsm = .submitting → s.inflight ≠ none)
  /-- HALTED runs nothing (10_state.md R134). -/
  halted : s.halted = true → s.task = none
  /-- A running operation fits the state. -/
  running : ∀ t, s.task = some t → t.caller.fits s ∧ t.wait.fits s t.caller
  /-- A register operation in progress leaves a submitted command in flight. -/
  regOp : ∀ t, s.task = some t → t.caller = .regOp →
    s.fsm ≠ .awaitingResponse ∧ (s.fsm = .submitting → s.inflight ≠ none)

end Sys2Proof.Machine
end

