-- ==== Sys2Proof/Certificates/Slice0/Obligations.lean ====
section
/-! DEFINITION. The statements about MMCHE. Where a statement is about an operation that ends, its conclusion is the state
`exec` answers, whole: a field the record does not name is unchanged, so such a statement is its own frame. Its scripts are
written in the notation of 95_test_vectors.md, addresses as offsets from BASE. "Memory" in a frame is BUF (log entry 29). -/

open Sys2Proof Sys2Proof.Machine

/-! ## Requests and steps -/

/-- Words written out from 41_command_codec.md R256, R265, R260, R262, R261 and tags of 30_encoding.md R224 decode to the
instructions they stand for; an omitted operand word is zero (log entry 8). -/
def Obligations.SampleWordsDecode : Prop :=
  decodeTableWord 32 0x02000181 = some (.sendOpCond 0 0) ∧
  decodeTableWord 32 0x02000891 = some (.readSingleBlock 0 0x15) ∧
  decodeTableWord 32 0x02000387 = some (.selectCard 0x00010000 0) ∧
  decodeTableWord 32 0x0000438C = some (.stopTransmission 0 0x1D) ∧
  decodeTableWord 32 0x02000888 = some (.sendExtCsd 0 0x35) ∧
  decodeTableWord 8 0x40 = some .bringup ∧
  decodeTableWord 8 0x42 = some (.ffs 0)

/-- Decoding an encoded well-formed instruction gives it back, for all 43 constructors and every operand. -/
def Obligations.DecodeOfEncodeIsIdentity : Prop :=
  ∀ i : Instr, i.wellFormed = true → decode (encode i) = .ok i

/-- What the decoder gives for a command request is well formed, and its word's OPC field is its opcode. -/
def Obligations.DecodedCommandIsWellFormed : Prop :=
  ∀ (bytes : List Byte) (i : Instr), decode ⟨.command, bytes⟩ = .ok i →
    i.wellFormed = true ∧
      ∃ raw rest o a f, takeWord bytes = some (raw, rest) ∧ i.command = some (o, a, f) ∧ rawOpc raw = o.setWidth 6

/-- No word matches two command rows of the table but for GENERIC, the row of lowest priority. -/
def Obligations.CommandRowsAreDisjoint : Prop :=
  ∀ (raw : Word) (r r' : Row), r ∈ commandRows → r' ∈ commandRows → r.name ≠ .generic → r'.name ≠ .generic →
    raw &&& r.mask = r.pattern → raw &&& r'.mask = r'.pattern → r = r'

/-- A tag that 30_encoding.md R224 does not list is no host operation, and a step that meets an undecodable request faults
and says why (the model's choice, log entry 12). -/
def Obligations.UndecodableRequestFaults : Prop :=
  (∀ (tag : Byte) (rest : List Byte),
    tag ∉ ([0x01, 0x02, 0x03, 0x04, 0x10, 0x11, 0x20, 0x21, 0x22, 0x30, 0x31, 0x40, 0x41, 0x42, 0x43, 0x44, 0x45, 0x46,
      0x50, 0x51, 0x52] : List Byte) → decode ⟨.hostOp, tag :: rest⟩ = .error .badTag) ∧
  (∀ (s : State) (r : Request) (rs : List Request) (why : Reject), s.task = none → s.requests = r :: rs →
    decode r = .error why → step s = .fault (.undecodable why))

/-- When no operation runs and the host's next request decodes to `i`, a step is `exec i`, the request taken off the
queue. MMCHE has no program counter (20_memory.md R186). -/
def Obligations.StepRunsTheDecodedRequest : Prop :=
  ∀ (s : State) (r : Request) (rs : List Request) (i : Instr), s.task = none → s.requests = r :: rs →
    decode r = .ok i → step s = exec i { s with requests := rs }

/-- When an operation runs, a step goes on with it: with the answers the environment has queued, or, if none is, with one
free answer. When none runs and the host asks nothing, nothing changes (10_state.md R158). -/
def Obligations.StepGoesOnOrWaits : Prop :=
  (∀ (s : State) (t : Task), s.task = some t → s.env ≠ [] → step s = .next (drive s.env s)) ∧
  (∀ (s : State) (t : Task), s.task = some t → s.env = [] →
    step s = .next (answer t (Config.freeAnswer s.freeCount) { s with freeCount := s.freeCount + 1 })) ∧
  (∀ s : State, s.task = none → s.requests = [] → step s = .next s)

/-- It does not matter in how many parts the environment's answers arrive: an operation that has not ended after the first
part goes on with the second as if both had been there, when the first part is given to a step that goes on with the
operation and when it is given to the step that begins it, an empty first part included (20_memory.md R182, R189). So what
is stated of `exec` with all the answers there holds of an operation spread over steps. -/
def Obligations.AnswersMayArriveInParts : Prop :=
  (∀ (s u : State) (xs ys : List Word), s.task ≠ none → xs ≠ [] → ys ≠ [] →
    step { s with env := xs } = .next u → u.task ≠ none →
    step { s with env := xs ++ ys } = step { u with env := ys }) ∧
  (∀ (i : Instr) (s u : State) (xs ys : List Word), ys ≠ [] → exec i { s with env := xs } = .next u → u.task ≠ none →
    exec i { s with env := xs ++ ys } = step { u with env := ys })

/-! ## The register interface -/

/-- REG_READ of a register the map lists or of a cell in its gaps (log entry 23): one read, its answer is the result,
nothing else changes (40_register_interface.md R240). -/
def Obligations.RegReadReturnsTheAnswer : Prop :=
  ∀ (s : State) (reg v : Word) (rest : List Word), s.ready → inMap reg = true → s.env = v :: rest →
    exec (.regRead reg) s = .next { s.ran [.rd reg v] rest with result := some (.ok (.word v)) }

/-- REG_WRITE to a register the map lists or to a cell in its gaps (log entry 23): one write of one word, nothing else changes
(40_register_interface.md R241). -/
def Obligations.RegWriteEmitsOneWrite : Prop :=
  ∀ (s : State) (reg v : Word), s.ready → inMap reg = true →
    exec (.regWrite reg v) s = .next { s.ran [.wr reg v] s.env with result := some (.ok .unit) }

/-- REG_SET_BITS and REG_CLEAR_BITS of a register the map lists or of a cell in its gaps (log entry 23): one read and then
one write, issued also when it changes nothing (40_register_interface.md R242, R243). -/
def Obligations.SetAndClearBitsReadThenWrite : Prop :=
  ∀ (s : State) (reg mask v : Word) (rest : List Word), s.ready → inMap reg = true → s.env = v :: rest →
    exec (.regSetBits reg mask) s =
      .next { s.ran [.rd reg v, .wr reg (v ||| mask)] rest with result := some (.ok .unit) } ∧
    exec (.regClearBits reg mask) s =
      .next { s.ran [.rd reg v, .wr reg (v &&& ~~~mask)] rest with result := some (.ok .unit) }

/-- The register operations take exactly the 17 registers 10_state.md R136 names one by one, the multiples of 4 in its two
ranges 0x90 to 0x9C and 0xB0 to 0xFC, and the multiples of 4 in the gaps 0x20 to 0x2C, 0x54 to 0x8C and 0xA0 to 0xAC, whose
accesses pass through (93_implementation_defined.md U16). Every other offset is refused by the four operations with no event.
That the gaps pass, that the ranges and gaps count at every multiple of 4 and that offsets above 0xFC are refused is the
model's choice where the files differ (log entry 23). -/
def Obligations.RegisterMapIsEnforced : Prop :=
  (∀ reg : Word, inMap reg = true ↔
    reg ∈ ([0x00, 0x04, 0x08, 0x0C, 0x10, 0x14, 0x18, 0x1C, 0x30, 0x34, 0x38, 0x3C, 0x40, 0x44, 0x48, 0x4C, 0x50] :
      List Word) ∨
    (reg.toNat % 4 = 0 ∧ ((0x90 ≤ reg.toNat ∧ reg.toNat ≤ 0x9C) ∨ (0xB0 ≤ reg.toNat ∧ reg.toNat ≤ 0xFC))) ∨
    (reg.toNat % 4 = 0 ∧ ((0x20 ≤ reg.toNat ∧ reg.toNat ≤ 0x2C) ∨ (0x54 ≤ reg.toNat ∧ reg.toNat ≤ 0x8C) ∨
      (0xA0 ≤ reg.toNat ∧ reg.toNat ≤ 0xAC)))) ∧
  (∀ (s : State) (reg x : Word), s.ready → inMap reg = false →
    let refused : Host.Outcome State Fault Refusal := .next { s with result := some (.refused .badRegister) }
    exec (.regRead reg) s = refused ∧ exec (.regWrite reg x) s = refused ∧ exec (.regSetBits reg x) s = refused ∧
      exec (.regClearBits reg x) s = refused)

/-! ## The codec -/

/-- CLASSIFY of the special-cased opcodes: the response-shape bits of the flags do not enter (41_command_codec.md R250). -/
def Obligations.ClassifySpecialOpcodes : Prop :=
  ∀ (s : State) (o a f : Word), s.ready → s.cfg.flags = defaultFlagLayout → f.toNat < 128 →
    let answers (k : Kind) : Prop := exec (.classify o a f) s = .next { s with result := some (.ok (.kind k)) }
    (o = 1 ∨ o = 41 → answers .kR3) ∧
    (o = 3 → answers (if f &&& 0x60 = 0x60 then .kR6 else .kR1)) ∧
    (o = 39 → answers .kR4) ∧
    (o = 40 → answers .kR6) ∧
    (o = 7 → answers (if a = 0 then .kNone else .kR1B))

/-- CLASSIFY of every other opcode: the flags-derived table, its last row refused (41_command_codec.md R251). -/
def Obligations.ClassifyFromFlags : Prop :=
  ∀ (s : State) (o a f : Word), s.ready → s.cfg.flags = defaultFlagLayout → f.toNat < 128 → o.toNat ≤ 63 →
    o ∉ ([1, 3, 7, 39, 40, 41] : List Word) →
    exec (.classify o a f) s =
      .next { s with
        result := some
          (if f &&& 0x1F = 0x00 then .ok (.kind .kNone)
           else if f &&& 0x1F = 0x15 then .ok (.kind .kR1)
           else if f &&& 0x1F = 0x1D then .ok (.kind .kR1B)
           else if f &&& 0x1F = 0x07 then .ok (.kind .kR2)
           else if f &&& 0x1F = 0x01 then .ok (.kind .kR3)
           else .refused .sequencing) }

/-- An opcode above 63 and a flags value with a bit above bit 6 are refused by the codec (30_encoding.md R202, R207); with
both, one of the two reasons is given. That either reason comes before that of a shape the table has no row for is the
model's choice (log entry 18). -/
def Obligations.BadOperandsAreRefused : Prop :=
  ∀ (cfg : Config) (o a f : Word), cfg.flags = defaultFlagLayout →
    (63 < o.toNat → f.toNat < 128 → classify cfg o a f = .error .badOpcode) ∧
    (o.toNat ≤ 63 → 128 ≤ f.toNat → classify cfg o a f = .error .badFlags) ∧
    (63 < o.toNat → 128 ≤ f.toNat → classify cfg o a f = .error .badOpcode ∨ classify cfg o a f = .error .badFlags)

/-- What the codec refuses, CLASSIFY and ENCODE refuse, also while a command is outstanding, and SUBMIT, CMD and the command
rows refuse when none is: with no event and no change (60_exceptions.md R407, 42_command_response_engine.md R301). For the
multi-block opcodes too: the refusal comes before the fatal outcome (60_exceptions.md R413), in ENCODE by the model's
reading (log entry 18). -/
def Obligations.CodecRefusalsChangeNothing : Prop :=
  ∀ (s : State) (o a f : Word) (k : Kind) (i : Instr) (r : Reason), s.ready → classify s.cfg o a f = .error r →
    (i = .classify o a f ∨ i = .encode o a k f ∨
      (s.outstanding = false ∧ (i = .submit o a f ∨ i = .cmd o a f ∨ i.command = some (o, a, f)))) →
    exec i s = .next { s with result := some (.refused r) }

/-- ENCODE builds the word of the formula with the patch of its opcode; the argument does not enter it
(41_command_codec.md R252, R275). -/
def Obligations.EncodeBuildsTheWord : Prop :=
  ∀ (s : State) (o a f : Word) (k : Kind), s.ready → s.cfg.usual → classify s.cfg o a f = .ok k → o ≠ 18 → o ≠ 25 →
    exec (.encode o a k f) s =
      .next { s with
        result := some (.ok (.word
          (let raw := o ||| (rspCode s.cfg.rspCode k).setWidth 32 <<< 7 ||| 0x02000000
           if o = 17 then raw ||| s.cfg.cmdDataPresent
           else if o = 24 then raw ||| s.cfg.cmdDataPresent ||| s.cfg.cmdWrite
           else if (o = 8 ∨ o = 6) ∧ f &&& 0x60 = 0x20 then raw ||| s.cfg.cmdDataPresent
           else if o = 12 then (raw ||| s.cfg.cmdStop) &&& ~~~s.cfg.cmdBlklenMask
           else raw))) }

/-- The fields of every word the codec builds, for every placement of the patch bits the spec allows: OPC is the opcode,
RSPTYP the code of the kind, the data-present bit is set exactly for READ_SINGLE_BLOCK, WRITE_BLOCK and SEND_EXT_CSD and
SWITCH under the ADTC class, the write bit exactly for WRITE_BLOCK, the stop bit exactly for STOP_TRANSMISSION
(30_encoding.md R201, R204; 41_command_codec.md R254). -/
def Obligations.CommandWordFields : Prop :=
  ∀ (cfg : Config) (o a f : Word) (k : Kind) (raw : Word), cfg.wellFormed = true → cfg.flags = defaultFlagLayout →
    classify cfg o a f = .ok k → encodeCommand cfg o a k f = some raw →
    raw &&& 0x3F = o ∧ (raw >>> 7) &&& 7 = (rspCode cfg.rspCode k).setWidth 32 ∧
    (raw &&& cfg.cmdDataPresent ≠ 0 ↔ o = 17 ∨ o = 24 ∨ ((o = 8 ∨ o = 6) ∧ f &&& 0x60 = 0x20)) ∧
    (raw &&& cfg.cmdWrite ≠ 0 ↔ o = 24) ∧ (raw &&& cfg.cmdStop ≠ 0 ↔ o = 12) ∧
    (o = 12 → raw &&& cfg.cmdBlklenMask = 0) ∧ (o ≠ 12 → raw &&& cfg.cmdBlklenMask = 0x02000000)

/-- The kind and the word 41_command_codec.md R255 to R274 give each command under the default parameters. -/
def Obligations.CommandWordsOfTheSpec : Prop :=
  ∀ x ∈ ([(0, 0, 0x40, .kNone, 0x02000000), (1, 0x40180000, 0x61, .kR3, 0x02000181), (2, 0, 0x67, .kR2, 0x02000102),
      (3, 0x00010000, 0x15, .kR1, 0x02000083), (6, 0x03B34900, 0x1D, .kR1B, 0x02000386),
      (6, 0, 0x35, .kR1, 0x02000886), (6, 0, 0x3D, .kR1B, 0x02000B86), (7, 0x00010000, 0x1D, .kR1B, 0x02000387),
      (7, 0, 0x1D, .kNone, 0x02000007), (8, 0, 0x35, .kR1, 0x02000888), (8, 0, 0x75, .kR1, 0x02000088),
      (12, 0, 0x1D, .kR1B, 0x0000438C), (12, 0, 0x15, .kR1, 0x0000408C), (13, 0x00010000, 0x15, .kR1, 0x0200008D),
      (16, 512, 0x15, .kR1, 0x02000090), (17, 0x1000, 0x35, .kR1, 0x02000891), (19, 0, 0x35, .kR1, 0x02000093),
      (21, 0, 0x35, .kR1, 0x02000095), (24, 0x1000, 0x35, .kR1, 0x02002898), (39, 0, 0x01, .kR4, 0x02000227),
      (40, 0, 0x75, .kR6, 0x020000A8), (41, 0, 0x61, .kR3, 0x020001A9), (55, 0x00010000, 0x15, .kR1, 0x020000B7),
      (9, 0x00010000, 0x07, .kR2, 0x02000109)] : List (Word × Word × Word × Kind × Word)),
    classify defaultConfig x.1 x.2.1 x.2.2.1 = .ok x.2.2.2.1 ∧
      encodeCommand defaultConfig x.1 x.2.1 x.2.2.2.1 x.2.2.1 = some x.2.2.2.2

/-- ENCODE with a kind other than the one CLASSIFY gives is refused, for the multi-block opcodes too (log entry 18)
(41_command_codec.md R276). -/
def Obligations.EncodeRefusesAnotherKind : Prop :=
  ∀ (s : State) (o a f : Word) (k k' : Kind), s.ready → classify s.cfg o a f = .ok k' → k ≠ k' →
    exec (.encode o a k f) s = .next { s with result := some (.refused .sequencing) }

/-- READ_MULTIPLE_BLOCK and WRITE_MULTIPLE_BLOCK: ENCODE, SUBMIT, CMD and the two rows end in Fatal with no word and no
event and set HALTED; CLASSIFY of their opcodes is not fatal (41_command_codec.md R266, R269; 30_encoding.md R218). -/
def Obligations.MultiBlockIsFatal : Prop :=
  ∀ (s : State) (o a f : Word) (k : Kind), s.free → s.cfg.usual → o = 18 ∨ o = 25 → classify s.cfg o a f = .ok k →
    (∀ i, i = .encode o a k f ∨ i = .submit o a f ∨ i = .cmd o a f ∨ i.command = some (o, a, f) →
      exec i s = .next { s with halted := true, result := some (.fatal o) }) ∧
    exec (.classify o a f) s = .next { s with result := some (.ok (.kind k)) }

/-- Every well-formed command row but the two multi-block ones has a kind and a word, whatever the other parameters are. -/
def Obligations.WellFormedCommandsHaveWords : Prop :=
  ∀ (cfg : Config) (i : Instr) (o a f : Word), cfg.usual → i.wellFormed = true → i.command = some (o, a, f) →
    o ≠ 18 → o ≠ 25 → ∃ kind raw, classify cfg o a f = .ok kind ∧ encodeCommand cfg o a kind f = some raw

/-- While HALTED every host operation but CONSTRUCT is refused and changes nothing; HALTED is set only by a Fatal outcome
(10_state.md R134). That RESET_HOOK and DEVICE_RESET are refused too is the model's reading (log entry 13). -/
def Obligations.HaltedRefusesAllButConstruct : Prop :=
  (∀ (s : State) (i : Instr), s.task = none → s.seq = .s0 → s.halted = true → (∀ b, i ≠ .construct b) →
    exec i s = .next { s with result := some (.refused .halted) }) ∧
  (∀ (s t : State), s.halted = false → step s = .next t → t.halted = true → ∃ o, t.result = some (.fatal o)) ∧
  (∀ (s t : State) (b : Word), goodBase b = true → exec (.construct b) s = .next t → t.halted = false)

/-! ## SUBMIT, AWAIT, CMD and the command rows -/

/-- SUBMIT: reads of SDC_STS until the selected bit is 0, then the argument, then the command with no event between; the
command is then outstanding (42_command_response_engine.md R301 to R303). -/
def Obligations.SubmitWritesArgumentThenCommand : Prop :=
  ∀ (s : State) (o a f : Word) (kind : Kind) (raw : Word) (busy : List Word) (idle : Word) (rest : List Word),
    let bit := if o = 13 then s.cfg.stsCmdBusy else s.cfg.stsSdcBusy
    s.free → s.cfg.pollLimit = none → classify s.cfg o a f = .ok kind → encodeCommand s.cfg o a kind f = some raw →
    (∀ b ∈ busy, b &&& bit ≠ 0) → idle &&& bit = 0 → s.env = busy ++ idle :: rest →
    exec (.submit o a f) s =
      .next { s.ran (busy.map (Io.rd 0x3C) ++ [.rd 0x3C idle, .wr 0x38 a, .wr 0x34 raw]) rest with
        fsm := .submitting, inflight := some ⟨o, a, f, kind⟩, result := some (.ok .unit) }

/-- The spins. While the selected bit reads 1 SUBMIT writes nothing and goes on reading SDC_STS. With a finite POLL_LIMIT
each spin ends in PollTimeout at its last allowed read, with no diagnostic, no reset hook and no write: the busy-wait of
whichever operation sends the command, FSM Failed; AWAIT's poll, FSM Failed, INFLIGHT none; the inner and the outer loop of a
transfer; the status loop of a partition switch, the partition unknown. The operation the spin belongs to ends with it, a
partition switch with the partition unknown, BRINGUP at ALL_SEND_CID with CardNotReady (42_command_response_engine.md R302,
R305; 44_card_session.md R363, R364; 60_exceptions.md R410). How the reads are counted and the other effects are the model's
choice (log entry 16). -/
def Obligations.SpinsEndAtTheLimit : Prop :=
  (∀ (s : State) (o a f : Word) (kind : Kind) (raw : Word) (busy : List Word),
    s.free → classify s.cfg o a f = .ok kind → encodeCommand s.cfg o a kind f = some raw →
    (∀ b ∈ busy, b &&& (if o = 13 then s.cfg.stsCmdBusy else s.cfg.stsSdcBusy) ≠ 0) →
    (s.cfg.pollLimit = none → s.env = busy →
      ∃ t, exec (.submit o a f) s = .next t ∧ t.trace = (s.says (busy.map (Io.rd 0x3C))).trace ∧ t.fsm = .submitting ∧
        t.inflight = s.inflight ∧ t.task = some ⟨.busy ⟨o, a, f, kind⟩ raw busy.length, .submit⟩) ∧
    (∀ (n : Nat) (rest : List Word), s.cfg.pollLimit = some (n + 1) → busy.length = n + 1 → s.env = busy ++ rest →
      exec (.submit o a f) s =
        .next { s.ran (busy.map (Io.rd 0x3C)) rest with
          fsm := .failed, result := some (.err (.pollTimeout .busyWait) .s0) })) ∧
  (∀ (s : State) (k : Caller) (limit : Nat) (v : Word) (rest : List Word), s.cfg.pollLimit = some limit →
    s.env = v :: rest →
    let unknown (x : Option Session) := x.map (fun x => { x with part := none })
    (∀ c raw n, s.task = some ⟨.busy c raw n, k⟩ → limit ≤ n + 1 →
      v &&& (if c.opcode = 13 then s.cfg.stsCmdBusy else s.cfg.stsSdcBusy) ≠ 0 →
      step s = .next { s.ran [.rd 0x3C v] rest with
        task := none, seq := .s0, fsm := .failed,
        session := match k with
          | .switchCmd _ | .status _ _ => unknown s.session
          | _ => s.session
        result := some (.err (match k with | .sendCid _ => .cardNotReady | _ => .pollTimeout .busyWait) s.seq) }) ∧
    (∀ c n, s.task = some ⟨.poll c n, k⟩ → limit ≤ n + 1 → v &&& cmdWaitMask s.cfg = 0 →
      step s = .next { s.ran [.rd 0x0C v] rest with
        task := none, seq := .s0, fsm := .failed, inflight := none,
        session := match k with
          | .switchCmd _ | .status _ _ => unknown s.session
          | _ => s.session
        result := some (.err (match k with | .sendCid _ => .cardNotReady | _ => .pollTimeout .intPoll) s.seq) }) ∧
    (∀ p, s.task = some ⟨.pioRecheck p, k⟩ → limit ≤ p.inner + 1 → v &&& 0x4000 = 0 →
      step s = .next { s.ran [.rd 0x0C v] rest with
        task := none, seq := .s0, result := some (.err (.pollTimeout .pioInner) s.seq) }) ∧
    (∀ p, s.task = some ⟨.pioStatus p, k⟩ → limit ≤ p.outer + 1 → v &&& 0xD000 = 0 → s.rem = 0 → s.done = false →
      step s = .next { s.ran [.rd 0x0C v] rest with
        task := none, seq := .s0, result := some (.err (.pollTimeout .pioOuter) s.seq) }) ∧
    (∀ p n, s.task = some ⟨.resp 0x40 [] [], .status p n⟩ → limit ≤ n + 1 → v >>> 9 &&& 0xF = 7 →
      step s = .next { s.ran [.rd 0x40 v] rest with
        task := none, seq := .s0, fsm := .decoded, inflight := none, errorFlag := 0, respWords := [v],
        session := unknown s.session, result := some (.err (.pollTimeout .statusLoop) s.seq) }))

/-- No command is ever written while the controller shows busy: from every state that meets the invariant, in the events of
a step that begins an operation or goes on with one, but for the host's own register operations, each write of SDC_CMD
stands right after a write of SDC_ARG, and that one right after a read of SDC_STS that showed the bit of the opcode clear;
and a word that waits to be written after the step has the opcode of its command, so the next step finds that clause of the
invariant again (42_command_response_engine.md R302, R303; 20_memory.md R183). -/
def Obligations.NoCommandWithoutAnIdleRead : Prop :=
  ∀ s t : State, Inv s → ¬s.inRegOp → step s = .next t →
    (∃ new, t.trace = s.trace ++ new ∧
      ∀ (pre post : List Event) (w : Word), new = pre ++ .wr (s.base + 0x34) w :: post →
        ∃ before v a, pre = before ++ [.rd (s.base + 0x3C) v, .wr (s.base + 0x38) a] ∧
          v &&& (if w &&& 0x3F = 13 then s.cfg.stsCmdBusy else s.cfg.stsSdcBusy) = 0) ∧
    ∀ c raw n k, t.task = some ⟨.busy c raw n, k⟩ → raw &&& 0x3F = c.opcode

/-- AWAIT of a command that succeeds: the command bits of INTEN are cleared, INT is polled, exactly the matched bits are
written back, the response registers of the kind are read, RESP3 first for K_R2 (42_command_response_engine.md R304 to R306,
R309, R310). error_flag and the response words as state are the model's (log entry 10). -/
def Obligations.AwaitSucceeds : Prop :=
  ∀ (s : State) (c : Command) (a : CmdAnswers) (rest : List Word), s.ready → s.cfg.pollLimit = none →
    s.fsm = .submitting → s.inflight = some c → a.polled s.cfg → a.matched s.cfg &&& 0x600 = 0 →
    a.words.length = kindWords c.kind → s.env = answersOf (awaitIo a s.cfg ++ respIo c.kind a.words) ++ rest →
    exec .await s =
      .next { s.ran (awaitIo a s.cfg ++ respIo c.kind a.words) rest with
        fsm := .decoded, inflight := none, errorFlag := 0, respWords := a.words,
        result := some (.ok (.response 0 a.words)) }

/-- AWAIT of a command that fails: the acknowledge, then the diagnostic, then the reset hook but for a tuning opcode; no
response register is read; the error bits win over command-ready, response-CRC-error over command-timeout
(42_command_response_engine.md R307, R308, R311; 60_exceptions.md R413). -/
def Obligations.AwaitFails : Prop :=
  ∀ (s : State) (c : Command) (a : CmdAnswers) (rest : List Word), s.ready → s.cfg.pollLimit = none →
    s.fsm = .submitting → s.inflight = some c → a.polled s.cfg → a.matched s.cfg &&& 0x600 ≠ 0 →
    s.env = answersOf (awaitIo a s.cfg) ++ rest →
    let m := a.matched s.cfg
    exec .await s =
      .next { s.ran (awaitIo a s.cfg ++ .diag (.cmdFailed c.opcode c.arg m) ::
            (if c.opcode ∈ s.cfg.tuningOpcodes then [] else [.hook])) rest with
        fsm := .failed, inflight := none, errorFlag := m &&& 0x600, respWords := [],
        result := some (.err
          (if m &&& 0x400 ≠ 0 then .rspCrcErr (m &&& 0x600) c.opcode c.arg
           else .cmdTimeout (m &&& 0x600) c.opcode c.arg) .s0) }

/-- AWAIT without a submitted command is refused; with one it clears the command bits of INTEN before its first poll
(42_command_response_engine.md R304). -/
def Obligations.AwaitNeedsASubmittedCommand : Prop :=
  (∀ s : State, s.ready → s.fsm ≠ .submitting ∨ s.inflight = none →
    exec .await s = .next { s with result := some (.refused .noCommand) }) ∧
  (∀ (s : State) (c : Command) (e : Word), s.ready → s.fsm = .submitting → s.inflight = some c → s.env = [e] →
    exec .await s =
      .next { s.ran [.rd 0x10 e, .wr 0x10 (e &&& ~~~cmdWaitMask s.cfg)] [] with
        fsm := .awaitingResponse, task := some ⟨.poll c 0, .await⟩, result := none })

/-- CMD and every command row (GO_IDLE_STATE, SEND_OP_COND, ALL_SEND_CID, SET_RELATIVE_ADDR, SWITCH, SELECT_CARD,
DESELECT_CARD, SEND_EXT_CSD, STOP_TRANSMISSION, SEND_STATUS, SET_BLOCKLEN, READ_SINGLE_BLOCK, SEND_TUNING_BLOCK,
SEND_TUNING_BLOCK_HS200, WRITE_BLOCK, FAST_IO, GO_IRQ_STATE, SD_APP_OP_COND, APP_CMD, GENERIC) complete when the environment
lets the command succeed (42_command_response_engine.md R312). That a row is CMD is the model's reading (log entry 9). -/
def Obligations.CommandsComplete : Prop :=
  ∀ (s : State) (i : Instr) (o arg f : Word) (kind : Kind) (raw : Word) (a : CmdAnswers) (rest : List Word),
    i.command = some (o, arg, f) ∨ i = .cmd o arg f → s.free → s.cfg.pollLimit = none →
    classify s.cfg o arg f = .ok kind → encodeCommand s.cfg o arg kind f = some raw → a.succeeds s.cfg o kind →
    s.env = answersOf (cmdIo a s.cfg arg raw kind) ++ rest →
    exec i s =
      .next { s.ran (cmdIo a s.cfg arg raw kind) rest with
        fsm := .decoded, inflight := none, errorFlag := 0, respWords := a.words,
        result := some (.ok (.response 0 a.words)) }

/-- CMD and every command row when the environment lets the command fail: the typed error, with the reset hook but for the
tuning opcodes (42_command_response_engine.md R307, R308, R311). -/
def Obligations.CommandsReportFailure : Prop :=
  ∀ (s : State) (i : Instr) (o arg f : Word) (kind : Kind) (raw : Word) (a : CmdAnswers) (rest : List Word),
    i.command = some (o, arg, f) ∨ i = .cmd o arg f → s.free → s.cfg.pollLimit = none →
    classify s.cfg o arg f = .ok kind → encodeCommand s.cfg o arg kind f = some raw → a.fails s.cfg o →
    s.env = answersOf (submitIo a arg raw ++ awaitIo a s.cfg) ++ rest →
    let m := a.matched s.cfg
    exec i s =
      .next { s.ran (submitIo a arg raw ++ awaitIo a s.cfg ++ .diag (.cmdFailed o arg m) ::
            (if o ∈ s.cfg.tuningOpcodes then [] else [.hook])) rest with
        fsm := .failed, inflight := none, errorFlag := m &&& 0x600, respWords := [],
        result := some (.err
          (if m &&& 0x400 ≠ 0 then .rspCrcErr (m &&& 0x600) o arg else .cmdTimeout (m &&& 0x600) o arg) .s0) }

/-- CMD is SUBMIT and then AWAIT with nothing between them; an outcome of SUBMIT other than Ok is CMD's outcome
(42_command_response_engine.md R312). -/
def Obligations.CmdIsSubmitThenAwait : Prop :=
  ∀ (s t : State) (o a f : Word), s.ready → exec (.submit o a f) s = .next t → t.task = none →
    (t.result = some (.ok .unit) →
      ∀ u, exec .await t = .next u → u.task = none → exec (.cmd o a f) s = .next u) ∧
    (t.result ≠ some (.ok .unit) → exec (.cmd o a f) s = .next t)

/-- While a command is outstanding SUBMIT, CMD, the command rows, BRINGUP, OPCOND_LOOP, SWITCH_PART, READ_BLOCK and
WRITE_BLOCK are refused and change nothing (42_command_response_engine.md R301; 44_card_session.md R350, R370). -/
def Obligations.OneCommandOutstanding : Prop :=
  ∀ (s : State) (i : Instr), s.ready → s.fsm = .submitting ∨ s.fsm = .awaitingResponse →
    (i.command.isSome ∨ (∃ o a f, i = .submit o a f ∨ i = .cmd o a f) ∨ i = .bringup ∨ (∃ a, i = .opcondLoop a) ∨
      (∃ p, i = .switchPart p) ∨ (∃ a, i = .readBlock a) ∨ (∃ a d, i = .writeBlockOp a d)) →
    exec i s = .next { s with result := some (.refused .commandOutstanding) }

/-! ## PIO transfers -/

/-- PIO_READ and PIO_WRITE are refused unless the last command ended without error; neither changes FSM, INFLIGHT or
SESSION, whatever the environment answers, in the step that begins it and in every step that goes on with it
(43_pio_transfer.md R330). -/
def Obligations.PioNeedsItsCommand : Prop :=
  (∀ (s : State) (i : Instr), i = .pioRead ∨ (∃ d, i = .pioWrite d) →
    (s.ready → s.fsm ≠ .decoded → exec i s = .next { s with result := some (.refused .noCompanionCommand) }) ∧
    (∀ t, exec i s = .next t → t.fsm = s.fsm ∧ t.inflight = s.inflight ∧ t.session = s.session)) ∧
  (∀ (s t : State) (w : Wait), Inv s → s.task = some ⟨w, .pio⟩ → step s = .next t →
    t.fsm = s.fsm ∧ t.inflight = s.inflight ∧ t.session = s.session)

/-- PIO_READ completes when the environment delivers the block: INTEN cleared and armed again each outer iteration, 8 bursts
of 16 reads of RXDATA, each after a FIFOCS read of at least 64 bytes, and the block is the words read, least significant
byte first (43_pio_transfer.md R331, R332, R335, R336, R342, R344). -/
def Obligations.PioReadReturnsTheBlock : Prop :=
  ∀ (s : State) (a : PioAnswers) (rest : List Word), s.ready → s.fsm = .decoded → s.buf.length = 512 →
    s.cfg.pollLimit = none → a.readsBlock → s.env = answersOf (pioReadIo s.cfg a) ++ rest →
    exec .pioRead s =
      .next { s.ran (pioReadIo s.cfg a) rest with
        buf := pioReadBlock a, rem := 0, done := true, result := some (.ok (.block (pioReadBlock a))) }

/-- PIO_WRITE completes when the environment takes the block: 4 chunks of 32 writes of TXDATA, each after a FIFOCS read with
TXCNT 0, byte 0 first (43_pio_transfer.md R337 to R340, R342, R344). -/
def Obligations.PioWritePushesTheBlock : Prop :=
  ∀ (s : State) (data : List Byte) (a : PioAnswers) (rest : List Word), s.ready → s.fsm = .decoded →
    data.length = 512 → s.cfg.pollLimit = none → a.writesBlock s.cfg →
    s.env = answersOf (pioWriteIo s.cfg a data) ++ rest →
    exec (.pioWrite data) s =
      .next { s.ran (pioWriteIo s.cfg a data) rest with
        buf := data, rem := 0, done := true, result := some (.ok .unit) }

/-- Whatever the environment answers: a PIO_READ or READ_BLOCK that ends Ok has issued exactly 128 reads of RXDATA, a
PIO_WRITE or WRITE_BLOCK that ends Ok exactly 128 writes of TXDATA, and each has seen transfer-complete in a read of INT; the
result of a read is BUF (43_pio_transfer.md R335, R340, R342). Said of one `exec` with all its answers there; the statement
AnswersMayArriveInParts carries it over to answers that arrive in parts. -/
def Obligations.PioEndsOnlyAfterTheWholeBlock : Prop :=
  (∀ (s t : State) (i : Instr) (v : Value), i = .pioRead ∨ (∃ addr, i = .readBlock addr) → exec i s = .next t →
    t.result = some (.ok v) →
    v = .block t.buf ∧ t.rem = 0 ∧ t.done = true ∧
      ∃ new, t.trace = s.trace ++ new ∧ new.countP (Event.reads (s.base + 0x1C)) = 128 ∧
        ∃ w, .rd (s.base + 0x0C) w ∈ new ∧ w &&& 0x1000 ≠ 0) ∧
  (∀ (s t : State) (i : Instr) (data : List Byte) (v : Value),
    i = .pioWrite data ∨ (∃ addr, i = .writeBlockOp addr data) → exec i s = .next t → t.result = some (.ok v) →
    v = .unit ∧ t.buf = data ∧ t.rem = 0 ∧ t.done = true ∧
      ∃ new, t.trace = s.trace ++ new ∧ new.countP (Event.writes (s.base + 0x18)) = 128 ∧
        ∃ w, .rd (s.base + 0x0C) w ∈ new ∧ w &&& 0x1000 ≠ 0)

/-- The inner loop of PIO_READ when the count allows a burst: 16 reads of RXDATA with at least 64 bytes left, however high the
count, else the remainder word by word, with no other event between; REM falls by what was read, the words lie in BUF from
the present offset on, least significant byte first, and while bytes are left the next read is one of FIFOCS
(43_pio_transfer.md R332, R333). -/
def Obligations.ReadBurstFollowsTheCount : Prop :=
  ∀ (s : State) (k : Caller) (outer inner : Nat) (f : Word) (words : List Word),
    s.task = some ⟨.pioFifo ⟨.rx, outer, inner⟩, k⟩ → 0 < s.rem → s.rem % 4 = 0 → s.rem ≤ 512 →
    min 64 s.rem ≤ (f &&& 0xFF).toNat → words.length = min 64 s.rem / 4 → s.env = f :: words →
    ∃ t, step s = .next t ∧ t.trace = (s.says (.rd 0x14 f :: words.map (Io.rd 0x1C))).trace ∧
      t.rem = s.rem - min 64 s.rem ∧ t.env = [] ∧
      (s.buf.length = 512 →
        t.buf = s.buf.take (512 - s.rem) ++ words.flatMap bytesOfWord ++ s.buf.drop (512 - s.rem + 4 * words.length)) ∧
      (64 < s.rem → ∃ n, t.task = some ⟨.pioFifo ⟨.rx, outer, n⟩, k⟩)

/-- The inner loop of PIO_READ when the count allows no burst: one read of INT; data-timeout ends the transfer with
DataTimeout, the diagnostic and the reset hook, anything else is ignored and FIFOCS is read again; INTEN is not touched
(43_pio_transfer.md R334, 60_exceptions.md R403, R412). With data-CRC-error set beside data-timeout the error is DataTimeout
too, against the wording of 43_pio_transfer.md R341 (log entry 15). -/
def Obligations.ReadWithoutDataRechecksInt : Prop :=
  ∀ (s : State) (k : Caller) (outer inner : Nat) (f v : Word),
    s.task = some ⟨.pioFifo ⟨.rx, outer, inner⟩, k⟩ → 0 < s.rem → (f &&& 0xFF).toNat < min 64 s.rem → s.env = [f, v] →
    (v &&& 0x4000 = 0 → s.cfg.pollLimit = none →
      step s = .next { s.ran [.rd 0x14 f, .rd 0x0C v] [] with
        task := some ⟨.pioFifo ⟨.rx, outer, inner + 1⟩, k⟩ }) ∧
    (v &&& 0x4000 ≠ 0 →
      step s = .next { s.ran [.rd 0x14 f, .rd 0x0C v, .diag (.dataFailed v), .hook] [] with
        task := none, seq := .s0, result := some (.err (.dataTimeout v) s.seq) })

/-- The inner loop of PIO_WRITE: with TXCNT 0 a chunk of `min(128, REM)` bytes is written, with no FIFOCS read between, and
REM falls by it; else INT is re-checked: data-timeout ends the transfer with DataTimeout, the diagnostic and the reset hook,
anything else is ignored and FIFOCS read again (43_pio_transfer.md R338, R339; 60_exceptions.md R403, R412). With
data-CRC-error set beside data-timeout the error is DataTimeout too (log entry 15). -/
def Obligations.WriteChunkFollowsAnEmptyFifo : Prop :=
  ∀ (s : State) (k : Caller) (outer inner : Nat) (f : Word),
    s.task = some ⟨.pioFifo ⟨.tx, outer, inner⟩, k⟩ → 0 < s.rem → s.rem % 4 = 0 → s.rem ≤ 512 →
    (f >>> s.cfg.txcntLsb &&& 0xFF = 0 → s.env = [f] →
      ∃ t, step s = .next t ∧ t.env = [] ∧ t.rem = s.rem - min 128 s.rem ∧
        t.trace = (s.says (.rd 0x14 f :: chunkIo s.buf (min 128 s.rem / 4) (512 - s.rem))).trace) ∧
    (∀ v, f >>> s.cfg.txcntLsb &&& 0xFF ≠ 0 → s.env = [f, v] →
      (v &&& 0x4000 = 0 → s.cfg.pollLimit = none →
        step s = .next { s.ran [.rd 0x14 f, .rd 0x0C v] [] with
          task := some ⟨.pioFifo ⟨.tx, outer, inner + 1⟩, k⟩ }) ∧
      (v &&& 0x4000 ≠ 0 →
        step s = .next { s.ran [.rd 0x14 f, .rd 0x0C v, .diag (.dataFailed v), .hook] [] with
          task := none, seq := .s0, result := some (.err (.dataTimeout v) s.seq) }))

/-- An error bit in an outer status read ends the transfer at once: diagnostic, reset hook, the typed error, data-CRC-error
before data-timeout, both before transfer-complete; no further access, HALTED and FSM as they were. Without one,
transfer-complete is latched and nothing ends (43_pio_transfer.md R341; 60_exceptions.md R403, R404, R413). -/
def Obligations.DataErrorEndsTheTransfer : Prop :=
  ∀ (s : State) (k : Caller) (p : PioPos) (v : Word) (rest : List Word), s.task = some ⟨.pioStatus p, k⟩ →
    s.env = v :: rest →
    (v &&& 0xC000 ≠ 0 →
      step s = .next { s.ran [.rd 0x0C v, .diag (.dataFailed v), .hook] rest with
        task := none, seq := .s0,
        result := some (.err (if v &&& 0x8000 ≠ 0 then .dataCrcErr v else .dataTimeout v) s.seq) }) ∧
    (v &&& 0xC000 = 0 → rest = [] → 0 < s.rem → s.cfg.pioAck = false →
      step s = .next { s.ran [.rd 0x0C v] [] with
        done := s.done || (v &&& 0x1000 != 0), task := some ⟨.pioFifo p, k⟩ })

/-! ## The session controller -/

/-- OPCOND_LOOP called by the host: one command for the argument 0; else attempts 10 ms apart until the response has bit 31
set, at most 100, then CardNotReady; a failed command ends it (44_card_session.md R353). -/
def Obligations.OpcondLoopNegotiates : Prop :=
  ∀ (s : State) (arg : Word) (waiting : List CmdAnswers) (a : CmdAnswers) (rest : List Word), s.free → s.cfg.usual →
    (∀ x ∈ waiting, x.succeeds s.cfg 1 .kR3 ∧ x.notReady) → (arg = 0 → waiting = []) →
    let raw := rawWord s.cfg 1 .kR3 0x61
    let io := opcondWaitIo s.cfg arg waiting ++ cmdIo a s.cfg arg raw .kR3
    let failIo := opcondWaitIo s.cfg arg waiting ++ submitIo a arg raw ++ awaitIo a s.cfg
    let m := a.matched s.cfg
    (a.succeeds s.cfg 1 .kR3 → arg = 0 ∨ ¬a.notReady → waiting.length < 100 → s.env = answersOf io ++ rest →
      exec (.opcondLoop arg) s =
        .next { s.ran io rest with
          fsm := .decoded, inflight := none, errorFlag := 0, respWords := a.words,
          result := some (.ok (.word (word0 a.words))) }) ∧
    (a.succeeds s.cfg 1 .kR3 → arg ≠ 0 → a.notReady → waiting.length = 99 → s.env = answersOf io ++ rest →
      exec (.opcondLoop arg) s =
        .next { s.ran io rest with
          fsm := .decoded, inflight := none, errorFlag := 0, respWords := a.words,
          result := some (.err .cardNotReady .s0) }) ∧
    (a.fails s.cfg 1 → waiting.length < 100 → s.env = answersOf failIo ++ rest →
      exec (.opcondLoop arg) s =
        .next { s.ran (failIo ++ cmdFailIo a s.cfg 1 arg) rest with
          fsm := .failed, inflight := none, errorFlag := m &&& 0x600, respWords := [],
          result := some (.err
            (if m &&& 0x400 ≠ 0 then .rspCrcErr (m &&& 0x600) 1 arg else .cmdTimeout (m &&& 0x600) 1 arg) .s0) })

/-- FFS: 0 for 0, else one more than the position of the lowest set bit; no event, nothing else changes
(44_card_session.md R355). -/
def Obligations.FfsFindsTheLowestSetBit : Prop :=
  ∀ (s : State) (x : Word), s.ready →
    ∃ n, exec (.ffs x) s = .next { s with result := some (.ok (.index n)) } ∧
      (x = 0 → n = 0) ∧
      (x ≠ 0 → 1 ≤ n ∧ n ≤ 32 ∧ x.getLsbD (n - 1) = true ∧ ∀ j < n - 1, x.getLsbD j = false)

/-- SELECT_WINDOW: 0 for 0, else the two-bit field anchored at the lowest set bit: that bit, the next one up exactly if it
is set, no other; no event, nothing else changes (44_card_session.md R356). -/
def Obligations.SelectWindowTakesTheLowestField : Prop :=
  ∀ (s : State) (m : Word), s.ready →
    ∃ w, exec (.selectWindow m) s = .next { s with result := some (.ok (.word w)) } ∧
      (m = 0 → w = 0) ∧
      (∀ b, m.getLsbD b = true → (∀ j < b, m.getLsbD j = false) →
        ∀ j, w.getLsbD j = (m.getLsbD j && (j == b || j == b + 1)))

/-- BRINGUP completes when every step succeeds: the seven steps in order, and the session they leave
(44_card_session.md R350 to R362). With a card that is never ready it ends after the probe and 100 attempts of its own in
CardNotReady at step B5, with no session and no later step (44_card_session.md R358, R363; 60_exceptions.md R405).
Session.supported is the copy of 10_state.md R131 (log entry 21). -/
def Obligations.BringupBuildsTheSessionOfAReadyCard : Prop :=
  ∀ (s : State) (a : BringupAnswers) (rest : List Word), s.free → s.cfg.usual →
    (a.succeeds s.cfg → s.env = answersOf (bringupIo s.cfg s.ocrSupported a) ++ rest →
      exec .bringup s =
        .next { s.ran (bringupIo s.cfg s.ocrSupported a) rest with
          fsm := .decoded, inflight := none, errorFlag := 0, respWords := a.select.words,
          session := some (a.session s.ocrSupported), result := some (.ok (.session (a.session s.ocrSupported))) }) ∧
    (a.neverReady s.cfg → s.env = answersOf (negotiationIo s.cfg s.ocrSupported a) ++ rest →
      exec .bringup s =
        .next { s.ran (negotiationIo s.cfg s.ocrSupported a) rest with
          fsm := .decoded, inflight := none, errorFlag := 0, respWords := a.ready.words, session := none,
          result := some (.err .cardNotReady .b5) })

/-- A command that fails ends the operation it belongs to, whichever that is: FSM Failed, INFLIGHT none, SEQ S0, no later
step; the outcome names the step; a failed ALL_SEND_CID of bring-up is CardNotReady, a failed command of a partition switch
leaves the partition unknown, a failed block command starts no transfer (44_card_session.md R359, R363, R364, R367;
60_exceptions.md R414). What the outcome records is the model's (log entry 27). -/
def Obligations.CommandFailureEndsTheOperation : Prop :=
  ∀ (s : State) (c : Command) (n : Nat) (k : Caller) (v : Word) (rest : List Word),
    s.task = some ⟨.poll c n, k⟩ → s.env = v :: rest → v &&& cmdWaitMask s.cfg &&& 0x600 ≠ 0 →
    let m := v &&& cmdWaitMask s.cfg
    step s =
      .next { s.ran ([.rd 0x0C v, .wr 0x0C m, .diag (.cmdFailed c.opcode c.arg m)] ++
            (if c.opcode ∈ s.cfg.tuningOpcodes then [] else [.hook])) rest with
        task := none, seq := .s0, fsm := .failed, inflight := none, errorFlag := m &&& 0x600, respWords := [],
        session :=
          match k with
          | .switchCmd _ | .status _ _ => s.session.map (fun x => { x with part := none })
          | _ => s.session
        result := some (.err
          (match k with
           | .sendCid _ => .cardNotReady
           | _ => if m &&& 0x400 ≠ 0 then .rspCrcErr (m &&& 0x600) c.opcode c.arg
                  else .cmdTimeout (m &&& 0x600) c.opcode c.arg) s.seq) }

/-- SWITCH_PART completes when its commands succeed: SWITCH with layout B of the argument, SEND_STATUS until the state field
leaves 7; unexpected bits are reported in the result, the switch-error bit is an error that leaves the partition unknown
(44_card_session.md R364 to R366, 30_encoding.md R212). -/
def Obligations.SwitchPartSetsThePartition : Prop :=
  ∀ (s : State) (p : Word) (x : Session) (a : SwitchAnswers) (rest : List Word), s.free → s.cfg.usual →
    s.session = some x → p.toNat ≤ 7 → a.succeeds s.cfg → s.env = answersOf (switchIo s.cfg p a) ++ rest →
    let st := word0 a.final.words
    let unexpected := st &&& s.cfg.r1UnexpectedMask != 0
    let warnIo : List Io := if unexpected then [.diag (.unexpectedStatus st)] else []
    (st &&& s.cfg.r1SwitchError = 0 →
      exec (.switchPart p) s =
        .next { s.ran (switchIo s.cfg p a ++ warnIo) rest with
          fsm := .decoded, inflight := none, errorFlag := 0, respWords := a.final.words,
          session := some { x with part := some (p.setWidth 3) }, result := some (.ok (.warnings unexpected)) }) ∧
    (st &&& s.cfg.r1SwitchError ≠ 0 →
      exec (.switchPart p) s =
        .next { s.ran (switchIo s.cfg p a ++ warnIo ++ [.diag (.switchError st)]) rest with
          fsm := .decoded, inflight := none, errorFlag := 0, respWords := a.final.words,
          session := some { x with part := none }, result := some (.err (.switchError st) .p2) })

/-- SWITCH_PART, READ_BLOCK and WRITE_BLOCK without a session are refused, SWITCH_PART with a partition above 7 too, with no
event and no change (44_card_session.md R364, R370). -/
def Obligations.SessionOperationsNeedASession : Prop :=
  ∀ (s : State) (p addr : Word) (data : List Byte), s.free →
    (s.session = none →
      ∀ i, i = .switchPart p ∨ i = .readBlock addr ∨ i = .writeBlockOp addr data →
        exec i s = .next { s with result := some (.refused .noSession) }) ∧
    (s.session ≠ none → 7 < p.toNat →
      exec (.switchPart p) s = .next { s with result := some (.refused .badPartition) })

/-- READ_BLOCK completes when its command and its transfer succeed: the block count 1, READ_SINGLE_BLOCK with the block
address, PIO_READ (44_card_session.md R367, R368). -/
def Obligations.ReadBlockReturnsTheBlock : Prop :=
  ∀ (s : State) (addr : Word) (c : CmdAnswers) (a : PioAnswers) (rest : List Word), s.free → s.cfg.usual →
    s.session ≠ none → s.buf.length = 512 → c.succeeds s.cfg 17 .kR1 → a.readsBlock →
    s.env = answersOf (blockIo s.cfg 17 addr c ++ pioReadIo s.cfg a) ++ rest →
    exec (.readBlock addr) s =
      .next { s.ran (blockIo s.cfg 17 addr c ++ pioReadIo s.cfg a) rest with
        fsm := .decoded, inflight := none, errorFlag := 0, respWords := c.words, buf := pioReadBlock a, rem := 0,
        done := true, result := some (.ok (.block (pioReadBlock a))) }

/-- WRITE_BLOCK, the host operation, completes when its command and its transfer succeed (44_card_session.md R368, R369). -/
def Obligations.WriteBlockSendsTheBlock : Prop :=
  ∀ (s : State) (addr : Word) (data : List Byte) (c : CmdAnswers) (a : PioAnswers) (rest : List Word), s.free →
    s.cfg.usual → s.session ≠ none → data.length = 512 → c.succeeds s.cfg 24 .kR1 → a.writesBlock s.cfg →
    s.env = answersOf (blockIo s.cfg 24 addr c ++ pioWriteIo s.cfg a data) ++ rest →
    exec (.writeBlockOp addr data) s =
      .next { s.ran (blockIo s.cfg 24 addr c ++ pioWriteIo s.cfg a data) rest with
        fsm := .decoded, inflight := none, errorFlag := 0, respWords := c.words, buf := data, rem := 0, done := true,
        result := some (.ok .unit) }

/-! ## Construction and reset -/

/-- CONSTRUCT: every engine register takes its value of 10_state.md R155 and no event is emitted; any other base is refused.
REM, DONE and BUF hold some values (log entry 2); EXT_BLKCNT and OCR_SUPPORTED come from the parameters (log entry 19);
error_flag 0 and no response words are the model's choice (log entry 10) (70_reset_and_hazards.md R440). -/
def Obligations.ConstructSetsTheEngineState : Prop :=
  ∀ (s : State) (base : Word),
    (base.toNat % 4 = 0 → base.toNat + 0xFC ≤ 0xFFFFFFFF →
      ∃ n d b, n ≤ 512 ∧ b.length = 512 ∧
        exec (.construct base) s =
          .next { State.constructed s.cfg base with
            rem := n, done := d, buf := b, requests := s.requests, env := s.env, freeCount := s.freeCount + 1,
            trace := s.trace, result := some (.ok .unit) }) ∧
    (base.toNat % 4 ≠ 0 ∨ 0xFFFFFFFF < base.toNat + 0xFC → s.task = none → s.seq = .s0 →
      exec (.construct base) s = .next { s with result := some (.refused .badBase) })

/-- RESET_HOOK emits its event and changes nothing else; DEVICE_RESET drops the session and sets SEQ to S0, a command
outstanding stays outstanding (70_reset_and_hazards.md R441, R442; the request RESET_HOOK: log entry 14). -/
def Obligations.ResetHookAndDeviceReset : Prop :=
  ∀ s : State, s.task = none → s.halted = false →
    exec .deviceReset s = .next { s with session := none, seq := .s0, result := some (.ok .unit) } ∧
    (s.seq = .s0 → exec .resetHook s = .next { s.ran [.hook] s.env with result := some (.ok .unit) })

/-- The state after construction holds what 10_state.md R155, R156 and R158 give: for any base and parameters, and so for
State.reset. -/
def Obligations.ConstructionLeavesTheEngineIdle : Prop :=
  (∀ (cfg : Config) (base : Word), let s := State.constructed cfg base
    s.base = base ∧ s.inflight = none ∧ s.fsm = .idle ∧ s.seq = .s0 ∧ s.session = none ∧ s.halted = false ∧
      s.task = none ∧ s.trace = []) ∧
  ∃ cfg base, State.reset = State.constructed cfg base

/-! ## Invariants and frames -/

/-- The invariant holds in the reset state. -/
def Obligations.InvariantHoldsAtReset : Prop := Inv State.reset

/-- Every step keeps the invariant, from every state that meets it: parameters the spec allows, BASE legal, BUF 512 bytes, REM at most 512 and a multiple
of the burst at the loop heads, SESSION.rca 1, a command in flight only between SUBMIT and the end of AWAIT, SEQ S0 between
operations, HALTED idle, the running operation's FSM, SEQ and SESSION as its step says, a word that waits to be written that
of its opcode. -/
def Obligations.StepKeepsTheInvariant : Prop :=
  ∀ s t : State, Inv s → step s = .next t → Inv t

/-- Every register access a step makes is a 4-byte aligned address that does not wrap, at an offset from BASE that is a cell
of the map's range 0x00 to 0xFC (20_memory.md R175, log entry 23), and at one of the 14 offsets of 20_memory.md R171 unless
the step is one of the host's register operations; events are only ever appended (20_memory.md R177, R182). -/
def Obligations.AccessesStayInTheMap : Prop :=
  ∀ s t : State, Inv s → step s = .next t →
    ∃ new, t.trace = s.trace ++ new ∧
      ∀ e ∈ new, ∀ a, e.address = some a →
        a.toNat % 4 = 0 ∧ s.base.toNat ≤ a.toNat ∧ a.toNat ≤ s.base.toNat + 0xFC ∧ inMap (a - s.base) = true ∧
          (¬s.inRegOp → a - s.base ∈
            ([0x00, 0x0C, 0x10, 0x14, 0x18, 0x1C, 0x34, 0x38, 0x3C, 0x40, 0x44, 0x48, 0x4C, 0x50] : List Word))

/-- BASE, EXT_BLKCNT, OCR_SUPPORTED and the parameters: no operation but CONSTRUCT changes them, and none the parameters
(10_state.md R121, R123, R131; 00_scope.md R110). -/
def Obligations.BaseAndParametersAreKept : Prop :=
  (∀ (s t : State) (i : Instr), exec i s = .next t →
    t.cfg = s.cfg ∧ t.requests = s.requests ∧
      ((∀ b, i ≠ .construct b) →
        t.base = s.base ∧ t.extBlkcnt = s.extBlkcnt ∧ t.ocrSupported = s.ocrSupported)) ∧
  (∀ (s t : State), s.task ≠ none → step s = .next t →
    t.cfg = s.cfg ∧ t.base = s.base ∧ t.extBlkcnt = s.extBlkcnt ∧ t.ocrSupported = s.ocrSupported)

/-- SESSION: only BRINGUP, SWITCH_PART, CONSTRUCT and DEVICE_RESET change it, when they begin or go on; SWITCH_PART changes
its partition alone, when it begins and when it goes on (10_state.md R127 to R132). -/
def Obligations.SessionIsKept : Prop :=
  (∀ (s t : State) (i : Instr), exec i s = .next t → i ≠ .bringup → (∀ p, i ≠ .switchPart p) →
    (∀ b, i ≠ .construct b) → i ≠ .deviceReset → t.session = s.session) ∧
  (∀ (s t : State) (t0 : Task), s.task = some t0 → t0.caller.writesSession = false → step s = .next t →
    t.session = s.session) ∧
  (∀ (s t : State) (p : Word), exec (.switchPart p) s = .next t →
    t.session.map (fun x => { x with part := none }) = s.session.map (fun x => { x with part := none })) ∧
  (∀ (s t : State) (w : Wait) (k : Caller), s.task = some ⟨w, k⟩ → (∃ p n, k = .switchCmd p ∨ k = .status p n) →
    step s = .next t →
    t.session.map (fun x => { x with part := none }) = s.session.map (fun x => { x with part := none }))

/-- BUF, REM and DONE: only PIO_READ, PIO_WRITE, READ_BLOCK, WRITE_BLOCK and CONSTRUCT change them, so every byte of BUF
reads as before after any other operation, in the step that begins it and in every step that goes on with it
(10_state.md R133). -/
def Obligations.BlockBufferIsKept : Prop :=
  (∀ (s t : State) (i : Instr), exec i s = .next t → i ≠ .pioRead → (∀ d, i ≠ .pioWrite d) → (∀ a, i ≠ .readBlock a) →
    (∀ a d, i ≠ .writeBlockOp a d) → (∀ b, i ≠ .construct b) →
    t.buf = s.buf ∧ t.rem = s.rem ∧ t.done = s.done) ∧
  (∀ (s t : State) (t0 : Task), Inv s → s.task = some t0 → (∀ dir, t0.caller.transfers dir = false) → step s = .next t →
    t.buf = s.buf ∧ t.rem = s.rem ∧ t.done = s.done)

/-- FSM, INFLIGHT, error_flag and the response words: no operation that sends or awaits no command changes them, but
CONSTRUCT, which builds them anew: neither in the step that begins it nor in one that goes on with it
(42_command_response_engine.md R300; 40_register_interface.md R244; 41_command_codec.md R253; 70_reset_and_hazards.md R441,
R442). -/
def Obligations.CommandStateIsKept : Prop :=
  (∀ (s t : State) (i : Instr),
    ((∃ r, i = .regRead r) ∨ (∃ r v, i = .regWrite r v ∨ i = .regSetBits r v ∨ i = .regClearBits r v) ∨
      (∃ o a f, i = .classify o a f) ∨ (∃ o a k f, i = .encode o a k f) ∨ i = .pioRead ∨ (∃ d, i = .pioWrite d) ∨
      (∃ x, i = .ffs x ∨ i = .selectWindow x) ∨ i = .resetHook ∨ i = .deviceReset) →
    exec i s = .next t →
    t.fsm = s.fsm ∧ t.inflight = s.inflight ∧ t.errorFlag = s.errorFlag ∧ t.respWords = s.respWords) ∧
  (∀ (s t : State) (t0 : Task), Inv s → s.task = some t0 → t0.caller = .pio ∨ t0.caller = .regOp → step s = .next t →
    t.fsm = s.fsm ∧ t.inflight = s.inflight ∧ t.errorFlag = s.errorFlag ∧ t.respWords = s.respWords)
end

