-- ==== Sys2Proof/Laws/Buffer.lean ====
section
/-! SUPPORT. The block buffer: reading back what was written, what a write leaves alone, and a block filled word by word
(20_memory.md R174, R176). -/

namespace Sys2Proof.Machine

/-- A store keeps the length of the block. -/
@[simp] theorem length_setWordAt (b : List Byte) (off : Nat) (w : Word) : (setWordAt b off w).length = b.length := by
  simp [setWordAt]

@[simp] theorem length_bytesOfWord (w : Word) : (bytesOfWord w).length = 4 := rfl

/-- The word of a word's bytes is the word. -/
theorem wordOfBytes_bytesOfWord (w : Word) :
    wordOfBytes (w.setWidth 8) ((w >>> 8).setWidth 8) ((w >>> 16).setWidth 8) ((w >>> 24).setWidth 8) = w := by
  apply BitVec.eq_of_getLsbD_eq
  intro i hi
  simp only [wordOfBytes, BitVec.getLsbD_or, BitVec.getLsbD_setWidth, BitVec.getLsbD_shiftLeft,
    BitVec.getLsbD_ushiftRight]
  rcases Nat.lt_or_ge i 8 with h8 | h8
  · simp [hi, h8, show i < 16 by omega, show i < 24 by omega]
  · rcases Nat.lt_or_ge i 16 with h16 | h16
    · simp [hi, show ¬ i < 8 by omega, show i < 24 by omega, show i - 8 < 32 by omega, show i - 8 < 8 by omega,
        show 8 + (i - 8) = i by omega, h16]
    · rcases Nat.lt_or_ge i 24 with h24 | h24
      · simp [hi, show ¬ i < 8 by omega, show ¬ i < 16 by omega, show ¬ i - 8 < 8 by omega, show i - 16 < 32 by omega,
          show i - 16 < 8 by omega, show 16 + (i - 16) = i by omega, h24]
      · simp [hi, show ¬ i < 8 by omega, show ¬ i < 16 by omega, show ¬ i < 24 by omega, show ¬ i - 8 < 8 by omega,
          show ¬ i - 16 < 8 by omega, show i - 24 < 32 by omega, show i - 24 < 8 by omega,
          show 24 + (i - 24) = i by omega]

/-- A word read where it was stored. -/
theorem wordAt_setWordAt (b : List Byte) (off : Nat) (w : Word) (h : off + 4 ≤ b.length) :
    wordAt (setWordAt b off w) off = w := by
  simp only [wordAt, setWordAt, List.getD_eq_getElem?_getD]
  simp [show off < b.length by omega, show off + 1 < b.length by omega,
    show off + 2 < b.length by omega, show off + 3 < b.length by omega, wordOfBytes_bytesOfWord]

/-- A store leaves every byte outside its four alone. -/
theorem getElem?_setWordAt_of_outside (b : List Byte) (off i : Nat) (w : Word) (h : i < off ∨ off + 4 ≤ i) :
    (setWordAt b off w)[i]? = b[i]? := by
  simp [setWordAt, show ¬ off = i by omega, show ¬ off + 1 = i by omega,
    show ¬ off + 2 = i by omega, show ¬ off + 3 = i by omega]

/-- A store as a list: what stands before, the four bytes, what stands after. -/
theorem setWordAt_eq (b : List Byte) (off : Nat) (w : Word) (h : off + 4 ≤ b.length) :
    setWordAt b off w = b.take off ++ bytesOfWord w ++ b.drop (off + 4) := by
  apply List.ext_getElem?
  intro i
  rcases Nat.lt_or_ge i off with h1 | h1
  · rw [getElem?_setWordAt_of_outside _ _ _ _ (Or.inl h1), List.append_assoc,
      List.getElem?_append_left (by simp; omega), List.getElem?_take_of_lt h1]
  · rcases Nat.lt_or_ge i (off + 4) with h2 | h2
    · have hl : (b.take off).length = off := by simp; omega
      rw [List.append_assoc, List.getElem?_append_right (by omega), hl,
        List.getElem?_append_left (by simp; omega)]
      obtain rfl | rfl | rfl | rfl : i = off ∨ i = off + 1 ∨ i = off + 2 ∨ i = off + 3 := by omega
      · simp [setWordAt, bytesOfWord, show i < b.length by omega]
      all_goals
        simp [setWordAt, bytesOfWord, show off + 1 < b.length by omega, show off + 2 < b.length by omega,
          show off + 3 < b.length by omega]
    · rw [getElem?_setWordAt_of_outside _ _ _ _ (Or.inr h2), List.getElem?_append_right (by simp; omega)]
      simp only [List.length_append, List.length_take, length_bytesOfWord, List.getElem?_drop]
      congr 1
      omega

/-- The block after words were stored one after the other from a byte offset on. -/
def setWords (b : List Byte) (off : Nat) : List Word → List Byte
  | [] => b
  | w :: ws => setWords (setWordAt b off w) (off + 4) ws

@[simp] theorem length_setWords (ws : List Word) : ∀ (b : List Byte) (off : Nat), (setWords b off ws).length = b.length := by
  induction ws with
  | nil => intro b off; rfl
  | cons w ws ih => intro b off; simp [setWords, ih]

theorem setWords_append (ws ws' : List Word) : ∀ (b : List Byte) (off : Nat),
    setWords b off (ws ++ ws') = setWords (setWords b off ws) (off + 4 * ws.length) ws' := by
  induction ws with
  | nil => intro b off; rfl
  | cons w ws ih =>
    intro b off
    simp only [List.cons_append, setWords, ih, List.length_cons]
    congr 1
    omega

/-- Words stored one after the other lie one after the other, least significant byte first (20_memory.md R176). -/
theorem setWords_eq (ws : List Word) : ∀ (b : List Byte) (off : Nat), off + 4 * ws.length ≤ b.length →
    setWords b off ws = b.take off ++ ws.flatMap bytesOfWord ++ b.drop (off + 4 * ws.length) := by
  induction ws with
  | nil => intro b off _; simp [setWords]
  | cons w ws ih =>
    intro b off h
    simp only [List.length_cons] at h
    have h4 : off + 4 ≤ b.length := by omega
    have ho : (b.take off).length = off := by simp; omega
    rw [setWords, ih _ _ (by simp; omega), setWordAt_eq _ _ _ h4]
    have h1 : (b.take off ++ bytesOfWord w ++ b.drop (off + 4)).take (off + 4) = b.take off ++ bytesOfWord w := by
      rw [List.take_append_of_le_length (by simp; omega), List.take_of_length_le (by simp)]
    have h2 : (b.take off ++ bytesOfWord w ++ b.drop (off + 4)).drop (off + 4 + 4 * ws.length) =
        b.drop (off + 4 * (ws.length + 1)) := by
      rw [List.drop_append, List.drop_eq_nil_of_le (by simp; omega), List.nil_append, List.drop_drop]
      congr 1
      simp
      omega
    rw [h1, h2]
    simp

/-- A whole block of words. -/
theorem setWords_block (ws : List Word) (b : List Byte) (hb : b.length = 4 * ws.length) :
    setWords b 0 ws = ws.flatMap bytesOfWord := by
  rw [setWords_eq ws b 0 (by omega)]
  simp [hb]

end Sys2Proof.Machine
end

