-- ==== Sys2Proof/Laws/Decode.lean ====
section
/-! SUPPORT. The decoder's parts: taking words and blocks off a request, and what every decoded request has. -/

namespace Sys2Proof

open Machine

/-- A word written in bytes is taken back. -/
@[simp] theorem takeWord_bytesOfWord (w : Word) (rest : List Byte) : takeWord (bytesOfWord w ++ rest) = some (w, rest) := by
  simp [bytesOfWord, takeWord, wordOfBytes_bytesOfWord]

/-- A block is taken whole. -/
theorem length_takeBlock {bs d : List Byte} (h : takeBlock bs = some d) : d.length = blksz := by
  unfold takeBlock at h
  split at h
  · cases h
  · cases h
    simp only [List.length_take]
    omega

/-- A block at the end of a request is taken back. -/
theorem takeBlock_self {d : List Byte} (h : d.length = blksz) : takeBlock d = some d := by
  simp [takeBlock, h, List.take_of_length_le (Nat.le_of_eq h)]

/-- What a conditional answers, one of its branches answers. -/
theorem ite_eq_cases {α : Sort _} {c : Prop} [Decidable c] {a b x : α} (h : (if c then a else b) = x) : a = x ∨ b = x := by
  split at h
  · exact .inl h
  · exact .inr h

theorem with1_ok {bs : List Byte} {f : Word → Except Reject Instr} {i : Instr} (h : with1 bs f = .ok i) :
    ∃ a, f a = .ok i := by
  unfold with1 at h
  split at h
  · exact ⟨_, h⟩
  · cases h
theorem with2_ok {bs : List Byte} {f : Word → Word → Except Reject Instr} {i : Instr} (h : with2 bs f = .ok i) :
    ∃ a b, f a b = .ok i := by
  unfold with2 at h
  split at h
  · exact ⟨_, with1_ok h⟩
  · cases h
theorem with3_ok {bs : List Byte} {f : Word → Word → Word → Except Reject Instr} {i : Instr} (h : with3 bs f = .ok i) :
    ∃ a b c, f a b c = .ok i := by
  unfold with3 at h
  split at h
  · exact ⟨_, with2_ok h⟩
  · cases h
theorem with4_ok {bs : List Byte} {f : Word → Word → Word → Word → Except Reject Instr} {i : Instr}
    (h : with4 bs f = .ok i) : ∃ a b c d, f a b c d = .ok i := by
  unfold with4 at h
  split at h
  · exact ⟨_, with3_ok h⟩
  · cases h

/-- The block operands of an instruction have 512 bytes. -/
def Instr.blockLength : Instr → Prop
  | .pioWrite d | .writeBlockOp _ d => d.length = blksz
  | _ => True

theorem decodeCommand_ok {raw arg flags : Word} {i : Instr} (h : decodeCommand raw arg flags = .ok i) :
    ∃ row, rowOf raw = some row ∧ i = commandOfRow raw arg flags row ∧ i.wellFormed = true ∧
      fieldsAgree raw i = true := by
  unfold decodeCommand at h
  split at h
  · cases h
  · rename_i row hr
    simp only at h
    split at h
    · rename_i hw
      cases h
      simp only [Bool.and_eq_true] at hw
      exact ⟨row, hr, rfl, hw.1, hw.2⟩
    · cases h

theorem decodeHostOp_blockLength {tag : Byte} {bs : List Byte} {i : Instr} (h : decodeHostOp tag bs = .ok i) :
    i.blockLength := by
  unfold decodeHostOp at h
  rcases ite_eq_cases h with h | h
  · obtain ⟨_, h⟩ := with1_ok h; cases h; exact True.intro
  rcases ite_eq_cases h with h | h
  · obtain ⟨_, _, h⟩ := with2_ok h; cases h; exact True.intro
  rcases ite_eq_cases h with h | h
  · obtain ⟨_, _, h⟩ := with2_ok h; cases h; exact True.intro
  rcases ite_eq_cases h with h | h
  · obtain ⟨_, _, h⟩ := with2_ok h; cases h; exact True.intro
  rcases ite_eq_cases h with h | h
  · obtain ⟨_, _, _, h⟩ := with3_ok h; cases h; exact True.intro
  rcases ite_eq_cases h with h | h
  · obtain ⟨_, _, _, _, h⟩ := with4_ok h; split at h <;> cases h; exact True.intro
  rcases ite_eq_cases h with h | h
  · obtain ⟨_, _, _, h⟩ := with3_ok h; cases h; exact True.intro
  rcases ite_eq_cases h with h | h
  · cases h; exact True.intro
  rcases ite_eq_cases h with h | h
  · obtain ⟨_, _, _, h⟩ := with3_ok h; cases h; exact True.intro
  rcases ite_eq_cases h with h | h
  · cases h; exact True.intro
  rcases ite_eq_cases h with h | h
  · split at h <;> cases h; exact length_takeBlock ‹_›
  rcases ite_eq_cases h with h | h
  · cases h; exact True.intro
  rcases ite_eq_cases h with h | h
  · obtain ⟨_, h⟩ := with1_ok h; cases h; exact True.intro
  rcases ite_eq_cases h with h | h
  · obtain ⟨_, h⟩ := with1_ok h; cases h; exact True.intro
  rcases ite_eq_cases h with h | h
  · obtain ⟨_, h⟩ := with1_ok h; cases h; exact True.intro
  rcases ite_eq_cases h with h | h
  · obtain ⟨_, h⟩ := with1_ok h; cases h; exact True.intro
  rcases ite_eq_cases h with h | h
  · obtain ⟨_, h⟩ := with1_ok h; cases h; exact True.intro
  rcases ite_eq_cases h with h | h
  · split at h
    · split at h <;> cases h; exact length_takeBlock ‹_›
    · cases h
  rcases ite_eq_cases h with h | h
  · obtain ⟨_, h⟩ := with1_ok h; cases h; exact True.intro
  rcases ite_eq_cases h with h | h
  · cases h; exact True.intro
  rcases ite_eq_cases h with h | h
  · cases h; exact True.intro
  cases h

/-- A decoded block operand has 512 bytes. -/
theorem decode_blockLength {r : Request} {i : Instr} (h : decode r = .ok i) : i.blockLength := by
  unfold decode at h
  split at h
  · split at h
    · obtain ⟨_, _, h⟩ := with2_ok h
      obtain ⟨row, -, rfl, -⟩ := decodeCommand_ok h
      cases row <;> exact True.intro
    · cases h
  · split at h
    · exact decodeHostOp_blockLength h
    · cases h

end Sys2Proof
end

