-- ==== Sys2Proof/Laws/State.lean ====
section
/-! SUPPORT. One lemma per field of State per shared update, true by unfolding, so that no later proof unfolds a record
update; and the order the updates are brought into: scripts of events innermost, a wait or an outcome outermost. -/

namespace Sys2Proof.Machine

variable (s : State)

@[simp] theorem State.emit_cfg (e : Event) : (s.emit e).cfg = s.cfg := rfl
@[simp] theorem State.emit_base (e : Event) : (s.emit e).base = s.base := rfl
@[simp] theorem State.emit_extBlkcnt (e : Event) : (s.emit e).extBlkcnt = s.extBlkcnt := rfl
@[simp] theorem State.emit_ocrSupported (e : Event) : (s.emit e).ocrSupported = s.ocrSupported := rfl
@[simp] theorem State.emit_inflight (e : Event) : (s.emit e).inflight = s.inflight := rfl
@[simp] theorem State.emit_fsm (e : Event) : (s.emit e).fsm = s.fsm := rfl
@[simp] theorem State.emit_seq (e : Event) : (s.emit e).seq = s.seq := rfl
@[simp] theorem State.emit_session (e : Event) : (s.emit e).session = s.session := rfl
@[simp] theorem State.emit_rem (e : Event) : (s.emit e).rem = s.rem := rfl
@[simp] theorem State.emit_done (e : Event) : (s.emit e).done = s.done := rfl
@[simp] theorem State.emit_buf (e : Event) : (s.emit e).buf = s.buf := rfl
@[simp] theorem State.emit_halted (e : Event) : (s.emit e).halted = s.halted := rfl
@[simp] theorem State.emit_errorFlag (e : Event) : (s.emit e).errorFlag = s.errorFlag := rfl
@[simp] theorem State.emit_respWords (e : Event) : (s.emit e).respWords = s.respWords := rfl
@[simp] theorem State.emit_task (e : Event) : (s.emit e).task = s.task := rfl
@[simp] theorem State.emit_requests (e : Event) : (s.emit e).requests = s.requests := rfl
@[simp] theorem State.emit_env (e : Event) : (s.emit e).env = s.env := rfl
@[simp] theorem State.emit_freeCount (e : Event) : (s.emit e).freeCount = s.freeCount := rfl
@[simp] theorem State.emit_trace (e : Event) : (s.emit e).trace = s.trace ++ [e] := rfl
@[simp] theorem State.emit_result (e : Event) : (s.emit e).result = s.result := rfl

@[simp] theorem State.says_cfg (io : List Io) : (s.says io).cfg = s.cfg := rfl
@[simp] theorem State.says_base (io : List Io) : (s.says io).base = s.base := rfl
@[simp] theorem State.says_extBlkcnt (io : List Io) : (s.says io).extBlkcnt = s.extBlkcnt := rfl
@[simp] theorem State.says_ocrSupported (io : List Io) : (s.says io).ocrSupported = s.ocrSupported := rfl
@[simp] theorem State.says_inflight (io : List Io) : (s.says io).inflight = s.inflight := rfl
@[simp] theorem State.says_fsm (io : List Io) : (s.says io).fsm = s.fsm := rfl
@[simp] theorem State.says_seq (io : List Io) : (s.says io).seq = s.seq := rfl
@[simp] theorem State.says_session (io : List Io) : (s.says io).session = s.session := rfl
@[simp] theorem State.says_rem (io : List Io) : (s.says io).rem = s.rem := rfl
@[simp] theorem State.says_done (io : List Io) : (s.says io).done = s.done := rfl
@[simp] theorem State.says_buf (io : List Io) : (s.says io).buf = s.buf := rfl
@[simp] theorem State.says_halted (io : List Io) : (s.says io).halted = s.halted := rfl
@[simp] theorem State.says_errorFlag (io : List Io) : (s.says io).errorFlag = s.errorFlag := rfl
@[simp] theorem State.says_respWords (io : List Io) : (s.says io).respWords = s.respWords := rfl
@[simp] theorem State.says_task (io : List Io) : (s.says io).task = s.task := rfl
@[simp] theorem State.says_requests (io : List Io) : (s.says io).requests = s.requests := rfl
@[simp] theorem State.says_env (io : List Io) : (s.says io).env = s.env := rfl
@[simp] theorem State.says_freeCount (io : List Io) : (s.says io).freeCount = s.freeCount := rfl
@[simp] theorem State.says_trace (io : List Io) : (s.says io).trace = s.trace ++ io.map (Io.event s.base) := rfl
@[simp] theorem State.says_result (io : List Io) : (s.says io).result = s.result := rfl

@[simp] theorem State.writeReg_cfg (off v : Word) : (s.writeReg off v).cfg = s.cfg := rfl
@[simp] theorem State.writeReg_base (off v : Word) : (s.writeReg off v).base = s.base := rfl
@[simp] theorem State.writeReg_extBlkcnt (off v : Word) : (s.writeReg off v).extBlkcnt = s.extBlkcnt := rfl
@[simp] theorem State.writeReg_ocrSupported (off v : Word) : (s.writeReg off v).ocrSupported = s.ocrSupported := rfl
@[simp] theorem State.writeReg_inflight (off v : Word) : (s.writeReg off v).inflight = s.inflight := rfl
@[simp] theorem State.writeReg_fsm (off v : Word) : (s.writeReg off v).fsm = s.fsm := rfl
@[simp] theorem State.writeReg_seq (off v : Word) : (s.writeReg off v).seq = s.seq := rfl
@[simp] theorem State.writeReg_session (off v : Word) : (s.writeReg off v).session = s.session := rfl
@[simp] theorem State.writeReg_rem (off v : Word) : (s.writeReg off v).rem = s.rem := rfl
@[simp] theorem State.writeReg_done (off v : Word) : (s.writeReg off v).done = s.done := rfl
@[simp] theorem State.writeReg_buf (off v : Word) : (s.writeReg off v).buf = s.buf := rfl
@[simp] theorem State.writeReg_halted (off v : Word) : (s.writeReg off v).halted = s.halted := rfl
@[simp] theorem State.writeReg_errorFlag (off v : Word) : (s.writeReg off v).errorFlag = s.errorFlag := rfl
@[simp] theorem State.writeReg_respWords (off v : Word) : (s.writeReg off v).respWords = s.respWords := rfl
@[simp] theorem State.writeReg_task (off v : Word) : (s.writeReg off v).task = s.task := rfl
@[simp] theorem State.writeReg_requests (off v : Word) : (s.writeReg off v).requests = s.requests := rfl
@[simp] theorem State.writeReg_env (off v : Word) : (s.writeReg off v).env = s.env := rfl
@[simp] theorem State.writeReg_freeCount (off v : Word) : (s.writeReg off v).freeCount = s.freeCount := rfl
@[simp] theorem State.writeReg_trace (off v : Word) : (s.writeReg off v).trace = s.trace ++ [.wr (s.base + off) v] := rfl
@[simp] theorem State.writeReg_result (off v : Word) : (s.writeReg off v).result = s.result := rfl

@[simp] theorem State.hook_cfg : s.hook.cfg = s.cfg := rfl
@[simp] theorem State.hook_base : s.hook.base = s.base := rfl
@[simp] theorem State.hook_extBlkcnt : s.hook.extBlkcnt = s.extBlkcnt := rfl
@[simp] theorem State.hook_ocrSupported : s.hook.ocrSupported = s.ocrSupported := rfl
@[simp] theorem State.hook_inflight : s.hook.inflight = s.inflight := rfl
@[simp] theorem State.hook_fsm : s.hook.fsm = s.fsm := rfl
@[simp] theorem State.hook_seq : s.hook.seq = s.seq := rfl
@[simp] theorem State.hook_session : s.hook.session = s.session := rfl
@[simp] theorem State.hook_rem : s.hook.rem = s.rem := rfl
@[simp] theorem State.hook_done : s.hook.done = s.done := rfl
@[simp] theorem State.hook_buf : s.hook.buf = s.buf := rfl
@[simp] theorem State.hook_halted : s.hook.halted = s.halted := rfl
@[simp] theorem State.hook_errorFlag : s.hook.errorFlag = s.errorFlag := rfl
@[simp] theorem State.hook_respWords : s.hook.respWords = s.respWords := rfl
@[simp] theorem State.hook_task : s.hook.task = s.task := rfl
@[simp] theorem State.hook_requests : s.hook.requests = s.requests := rfl
@[simp] theorem State.hook_env : s.hook.env = s.env := rfl
@[simp] theorem State.hook_freeCount : s.hook.freeCount = s.freeCount := rfl
@[simp] theorem State.hook_trace : s.hook.trace = s.trace ++ [.resetHook] := rfl
@[simp] theorem State.hook_result : s.hook.result = s.result := rfl

@[simp] theorem State.ran_cfg (io : List Io) (rest : List Word) : (s.ran io rest).cfg = s.cfg := rfl
@[simp] theorem State.ran_base (io : List Io) (rest : List Word) : (s.ran io rest).base = s.base := rfl
@[simp] theorem State.ran_extBlkcnt (io : List Io) (rest : List Word) : (s.ran io rest).extBlkcnt = s.extBlkcnt := rfl
@[simp] theorem State.ran_ocrSupported (io : List Io) (rest : List Word) : (s.ran io rest).ocrSupported = s.ocrSupported := rfl
@[simp] theorem State.ran_inflight (io : List Io) (rest : List Word) : (s.ran io rest).inflight = s.inflight := rfl
@[simp] theorem State.ran_fsm (io : List Io) (rest : List Word) : (s.ran io rest).fsm = s.fsm := rfl
@[simp] theorem State.ran_seq (io : List Io) (rest : List Word) : (s.ran io rest).seq = s.seq := rfl
@[simp] theorem State.ran_session (io : List Io) (rest : List Word) : (s.ran io rest).session = s.session := rfl
@[simp] theorem State.ran_rem (io : List Io) (rest : List Word) : (s.ran io rest).rem = s.rem := rfl
@[simp] theorem State.ran_done (io : List Io) (rest : List Word) : (s.ran io rest).done = s.done := rfl
@[simp] theorem State.ran_buf (io : List Io) (rest : List Word) : (s.ran io rest).buf = s.buf := rfl
@[simp] theorem State.ran_halted (io : List Io) (rest : List Word) : (s.ran io rest).halted = s.halted := rfl
@[simp] theorem State.ran_errorFlag (io : List Io) (rest : List Word) : (s.ran io rest).errorFlag = s.errorFlag := rfl
@[simp] theorem State.ran_respWords (io : List Io) (rest : List Word) : (s.ran io rest).respWords = s.respWords := rfl
@[simp] theorem State.ran_task (io : List Io) (rest : List Word) : (s.ran io rest).task = s.task := rfl
@[simp] theorem State.ran_requests (io : List Io) (rest : List Word) : (s.ran io rest).requests = s.requests := rfl
@[simp] theorem State.ran_env (io : List Io) (rest : List Word) : (s.ran io rest).env = rest := rfl
@[simp] theorem State.ran_freeCount (io : List Io) (rest : List Word) : (s.ran io rest).freeCount = s.freeCount := rfl
@[simp] theorem State.ran_trace (io : List Io) (rest : List Word) : (s.ran io rest).trace = s.trace ++ io.map (Io.event s.base) := rfl
@[simp] theorem State.ran_result (io : List Io) (rest : List Word) : (s.ran io rest).result = s.result := rfl

@[simp] theorem State.waitFor_cfg (w : Wait) (c : Caller) : (s.waitFor w c).cfg = s.cfg := rfl
@[simp] theorem State.waitFor_base (w : Wait) (c : Caller) : (s.waitFor w c).base = s.base := rfl
@[simp] theorem State.waitFor_extBlkcnt (w : Wait) (c : Caller) : (s.waitFor w c).extBlkcnt = s.extBlkcnt := rfl
@[simp] theorem State.waitFor_ocrSupported (w : Wait) (c : Caller) : (s.waitFor w c).ocrSupported = s.ocrSupported := rfl
@[simp] theorem State.waitFor_inflight (w : Wait) (c : Caller) : (s.waitFor w c).inflight = s.inflight := rfl
@[simp] theorem State.waitFor_fsm (w : Wait) (c : Caller) : (s.waitFor w c).fsm = s.fsm := rfl
@[simp] theorem State.waitFor_seq (w : Wait) (c : Caller) : (s.waitFor w c).seq = s.seq := rfl
@[simp] theorem State.waitFor_session (w : Wait) (c : Caller) : (s.waitFor w c).session = s.session := rfl
@[simp] theorem State.waitFor_rem (w : Wait) (c : Caller) : (s.waitFor w c).rem = s.rem := rfl
@[simp] theorem State.waitFor_done (w : Wait) (c : Caller) : (s.waitFor w c).done = s.done := rfl
@[simp] theorem State.waitFor_buf (w : Wait) (c : Caller) : (s.waitFor w c).buf = s.buf := rfl
@[simp] theorem State.waitFor_halted (w : Wait) (c : Caller) : (s.waitFor w c).halted = s.halted := rfl
@[simp] theorem State.waitFor_errorFlag (w : Wait) (c : Caller) : (s.waitFor w c).errorFlag = s.errorFlag := rfl
@[simp] theorem State.waitFor_respWords (w : Wait) (c : Caller) : (s.waitFor w c).respWords = s.respWords := rfl
@[simp] theorem State.waitFor_task (w : Wait) (c : Caller) : (s.waitFor w c).task = some ⟨w, c⟩ := rfl
@[simp] theorem State.waitFor_requests (w : Wait) (c : Caller) : (s.waitFor w c).requests = s.requests := rfl
@[simp] theorem State.waitFor_env (w : Wait) (c : Caller) : (s.waitFor w c).env = s.env := rfl
@[simp] theorem State.waitFor_freeCount (w : Wait) (c : Caller) : (s.waitFor w c).freeCount = s.freeCount := rfl
@[simp] theorem State.waitFor_trace (w : Wait) (c : Caller) : (s.waitFor w c).trace = s.trace := rfl
@[simp] theorem State.waitFor_result (w : Wait) (c : Caller) : (s.waitFor w c).result = s.result := rfl

@[simp] theorem State.setFsm_cfg (f : Fsm) : (s.setFsm f).cfg = s.cfg := rfl
@[simp] theorem State.setFsm_base (f : Fsm) : (s.setFsm f).base = s.base := rfl
@[simp] theorem State.setFsm_extBlkcnt (f : Fsm) : (s.setFsm f).extBlkcnt = s.extBlkcnt := rfl
@[simp] theorem State.setFsm_ocrSupported (f : Fsm) : (s.setFsm f).ocrSupported = s.ocrSupported := rfl
@[simp] theorem State.setFsm_inflight (f : Fsm) : (s.setFsm f).inflight = s.inflight := rfl
@[simp] theorem State.setFsm_fsm (f : Fsm) : (s.setFsm f).fsm = f := rfl
@[simp] theorem State.setFsm_seq (f : Fsm) : (s.setFsm f).seq = s.seq := rfl
@[simp] theorem State.setFsm_session (f : Fsm) : (s.setFsm f).session = s.session := rfl
@[simp] theorem State.setFsm_rem (f : Fsm) : (s.setFsm f).rem = s.rem := rfl
@[simp] theorem State.setFsm_done (f : Fsm) : (s.setFsm f).done = s.done := rfl
@[simp] theorem State.setFsm_buf (f : Fsm) : (s.setFsm f).buf = s.buf := rfl
@[simp] theorem State.setFsm_halted (f : Fsm) : (s.setFsm f).halted = s.halted := rfl
@[simp] theorem State.setFsm_errorFlag (f : Fsm) : (s.setFsm f).errorFlag = s.errorFlag := rfl
@[simp] theorem State.setFsm_respWords (f : Fsm) : (s.setFsm f).respWords = s.respWords := rfl
@[simp] theorem State.setFsm_task (f : Fsm) : (s.setFsm f).task = s.task := rfl
@[simp] theorem State.setFsm_requests (f : Fsm) : (s.setFsm f).requests = s.requests := rfl
@[simp] theorem State.setFsm_env (f : Fsm) : (s.setFsm f).env = s.env := rfl
@[simp] theorem State.setFsm_freeCount (f : Fsm) : (s.setFsm f).freeCount = s.freeCount := rfl
@[simp] theorem State.setFsm_trace (f : Fsm) : (s.setFsm f).trace = s.trace := rfl
@[simp] theorem State.setFsm_result (f : Fsm) : (s.setFsm f).result = s.result := rfl

@[simp] theorem State.setInflight_cfg (c : Option Command) : (s.setInflight c).cfg = s.cfg := rfl
@[simp] theorem State.setInflight_base (c : Option Command) : (s.setInflight c).base = s.base := rfl
@[simp] theorem State.setInflight_extBlkcnt (c : Option Command) : (s.setInflight c).extBlkcnt = s.extBlkcnt := rfl
@[simp] theorem State.setInflight_ocrSupported (c : Option Command) : (s.setInflight c).ocrSupported = s.ocrSupported := rfl
@[simp] theorem State.setInflight_inflight (c : Option Command) : (s.setInflight c).inflight = c := rfl
@[simp] theorem State.setInflight_fsm (c : Option Command) : (s.setInflight c).fsm = s.fsm := rfl
@[simp] theorem State.setInflight_seq (c : Option Command) : (s.setInflight c).seq = s.seq := rfl
@[simp] theorem State.setInflight_session (c : Option Command) : (s.setInflight c).session = s.session := rfl
@[simp] theorem State.setInflight_rem (c : Option Command) : (s.setInflight c).rem = s.rem := rfl
@[simp] theorem State.setInflight_done (c : Option Command) : (s.setInflight c).done = s.done := rfl
@[simp] theorem State.setInflight_buf (c : Option Command) : (s.setInflight c).buf = s.buf := rfl
@[simp] theorem State.setInflight_halted (c : Option Command) : (s.setInflight c).halted = s.halted := rfl
@[simp] theorem State.setInflight_errorFlag (c : Option Command) : (s.setInflight c).errorFlag = s.errorFlag := rfl
@[simp] theorem State.setInflight_respWords (c : Option Command) : (s.setInflight c).respWords = s.respWords := rfl
@[simp] theorem State.setInflight_task (c : Option Command) : (s.setInflight c).task = s.task := rfl
@[simp] theorem State.setInflight_requests (c : Option Command) : (s.setInflight c).requests = s.requests := rfl
@[simp] theorem State.setInflight_env (c : Option Command) : (s.setInflight c).env = s.env := rfl
@[simp] theorem State.setInflight_freeCount (c : Option Command) : (s.setInflight c).freeCount = s.freeCount := rfl
@[simp] theorem State.setInflight_trace (c : Option Command) : (s.setInflight c).trace = s.trace := rfl
@[simp] theorem State.setInflight_result (c : Option Command) : (s.setInflight c).result = s.result := rfl

@[simp] theorem State.setSeq_cfg (q : Seq) : (s.setSeq q).cfg = s.cfg := rfl
@[simp] theorem State.setSeq_base (q : Seq) : (s.setSeq q).base = s.base := rfl
@[simp] theorem State.setSeq_extBlkcnt (q : Seq) : (s.setSeq q).extBlkcnt = s.extBlkcnt := rfl
@[simp] theorem State.setSeq_ocrSupported (q : Seq) : (s.setSeq q).ocrSupported = s.ocrSupported := rfl
@[simp] theorem State.setSeq_inflight (q : Seq) : (s.setSeq q).inflight = s.inflight := rfl
@[simp] theorem State.setSeq_fsm (q : Seq) : (s.setSeq q).fsm = s.fsm := rfl
@[simp] theorem State.setSeq_seq (q : Seq) : (s.setSeq q).seq = q := rfl
@[simp] theorem State.setSeq_session (q : Seq) : (s.setSeq q).session = s.session := rfl
@[simp] theorem State.setSeq_rem (q : Seq) : (s.setSeq q).rem = s.rem := rfl
@[simp] theorem State.setSeq_done (q : Seq) : (s.setSeq q).done = s.done := rfl
@[simp] theorem State.setSeq_buf (q : Seq) : (s.setSeq q).buf = s.buf := rfl
@[simp] theorem State.setSeq_halted (q : Seq) : (s.setSeq q).halted = s.halted := rfl
@[simp] theorem State.setSeq_errorFlag (q : Seq) : (s.setSeq q).errorFlag = s.errorFlag := rfl
@[simp] theorem State.setSeq_respWords (q : Seq) : (s.setSeq q).respWords = s.respWords := rfl
@[simp] theorem State.setSeq_task (q : Seq) : (s.setSeq q).task = s.task := rfl
@[simp] theorem State.setSeq_requests (q : Seq) : (s.setSeq q).requests = s.requests := rfl
@[simp] theorem State.setSeq_env (q : Seq) : (s.setSeq q).env = s.env := rfl
@[simp] theorem State.setSeq_freeCount (q : Seq) : (s.setSeq q).freeCount = s.freeCount := rfl
@[simp] theorem State.setSeq_trace (q : Seq) : (s.setSeq q).trace = s.trace := rfl
@[simp] theorem State.setSeq_result (q : Seq) : (s.setSeq q).result = s.result := rfl

@[simp] theorem State.setSession_cfg (x : Option Session) : (s.setSession x).cfg = s.cfg := rfl
@[simp] theorem State.setSession_base (x : Option Session) : (s.setSession x).base = s.base := rfl
@[simp] theorem State.setSession_extBlkcnt (x : Option Session) : (s.setSession x).extBlkcnt = s.extBlkcnt := rfl
@[simp] theorem State.setSession_ocrSupported (x : Option Session) : (s.setSession x).ocrSupported = s.ocrSupported := rfl
@[simp] theorem State.setSession_inflight (x : Option Session) : (s.setSession x).inflight = s.inflight := rfl
@[simp] theorem State.setSession_fsm (x : Option Session) : (s.setSession x).fsm = s.fsm := rfl
@[simp] theorem State.setSession_seq (x : Option Session) : (s.setSession x).seq = s.seq := rfl
@[simp] theorem State.setSession_session (x : Option Session) : (s.setSession x).session = x := rfl
@[simp] theorem State.setSession_rem (x : Option Session) : (s.setSession x).rem = s.rem := rfl
@[simp] theorem State.setSession_done (x : Option Session) : (s.setSession x).done = s.done := rfl
@[simp] theorem State.setSession_buf (x : Option Session) : (s.setSession x).buf = s.buf := rfl
@[simp] theorem State.setSession_halted (x : Option Session) : (s.setSession x).halted = s.halted := rfl
@[simp] theorem State.setSession_errorFlag (x : Option Session) : (s.setSession x).errorFlag = s.errorFlag := rfl
@[simp] theorem State.setSession_respWords (x : Option Session) : (s.setSession x).respWords = s.respWords := rfl
@[simp] theorem State.setSession_task (x : Option Session) : (s.setSession x).task = s.task := rfl
@[simp] theorem State.setSession_requests (x : Option Session) : (s.setSession x).requests = s.requests := rfl
@[simp] theorem State.setSession_env (x : Option Session) : (s.setSession x).env = s.env := rfl
@[simp] theorem State.setSession_freeCount (x : Option Session) : (s.setSession x).freeCount = s.freeCount := rfl
@[simp] theorem State.setSession_trace (x : Option Session) : (s.setSession x).trace = s.trace := rfl
@[simp] theorem State.setSession_result (x : Option Session) : (s.setSession x).result = s.result := rfl

@[simp] theorem State.setPart_cfg (p : Option (BitVec 3)) : (s.setPart p).cfg = s.cfg := rfl
@[simp] theorem State.setPart_base (p : Option (BitVec 3)) : (s.setPart p).base = s.base := rfl
@[simp] theorem State.setPart_extBlkcnt (p : Option (BitVec 3)) : (s.setPart p).extBlkcnt = s.extBlkcnt := rfl
@[simp] theorem State.setPart_ocrSupported (p : Option (BitVec 3)) : (s.setPart p).ocrSupported = s.ocrSupported := rfl
@[simp] theorem State.setPart_inflight (p : Option (BitVec 3)) : (s.setPart p).inflight = s.inflight := rfl
@[simp] theorem State.setPart_fsm (p : Option (BitVec 3)) : (s.setPart p).fsm = s.fsm := rfl
@[simp] theorem State.setPart_seq (p : Option (BitVec 3)) : (s.setPart p).seq = s.seq := rfl
@[simp] theorem State.setPart_session (p : Option (BitVec 3)) : (s.setPart p).session = s.session.map (fun x => { x with part := p }) := rfl
@[simp] theorem State.setPart_rem (p : Option (BitVec 3)) : (s.setPart p).rem = s.rem := rfl
@[simp] theorem State.setPart_done (p : Option (BitVec 3)) : (s.setPart p).done = s.done := rfl
@[simp] theorem State.setPart_buf (p : Option (BitVec 3)) : (s.setPart p).buf = s.buf := rfl
@[simp] theorem State.setPart_halted (p : Option (BitVec 3)) : (s.setPart p).halted = s.halted := rfl
@[simp] theorem State.setPart_errorFlag (p : Option (BitVec 3)) : (s.setPart p).errorFlag = s.errorFlag := rfl
@[simp] theorem State.setPart_respWords (p : Option (BitVec 3)) : (s.setPart p).respWords = s.respWords := rfl
@[simp] theorem State.setPart_task (p : Option (BitVec 3)) : (s.setPart p).task = s.task := rfl
@[simp] theorem State.setPart_requests (p : Option (BitVec 3)) : (s.setPart p).requests = s.requests := rfl
@[simp] theorem State.setPart_env (p : Option (BitVec 3)) : (s.setPart p).env = s.env := rfl
@[simp] theorem State.setPart_freeCount (p : Option (BitVec 3)) : (s.setPart p).freeCount = s.freeCount := rfl
@[simp] theorem State.setPart_trace (p : Option (BitVec 3)) : (s.setPart p).trace = s.trace := rfl
@[simp] theorem State.setPart_result (p : Option (BitVec 3)) : (s.setPart p).result = s.result := rfl

@[simp] theorem State.setBuf_cfg (b : List Byte) : (s.setBuf b).cfg = s.cfg := rfl
@[simp] theorem State.setBuf_base (b : List Byte) : (s.setBuf b).base = s.base := rfl
@[simp] theorem State.setBuf_extBlkcnt (b : List Byte) : (s.setBuf b).extBlkcnt = s.extBlkcnt := rfl
@[simp] theorem State.setBuf_ocrSupported (b : List Byte) : (s.setBuf b).ocrSupported = s.ocrSupported := rfl
@[simp] theorem State.setBuf_inflight (b : List Byte) : (s.setBuf b).inflight = s.inflight := rfl
@[simp] theorem State.setBuf_fsm (b : List Byte) : (s.setBuf b).fsm = s.fsm := rfl
@[simp] theorem State.setBuf_seq (b : List Byte) : (s.setBuf b).seq = s.seq := rfl
@[simp] theorem State.setBuf_session (b : List Byte) : (s.setBuf b).session = s.session := rfl
@[simp] theorem State.setBuf_rem (b : List Byte) : (s.setBuf b).rem = s.rem := rfl
@[simp] theorem State.setBuf_done (b : List Byte) : (s.setBuf b).done = s.done := rfl
@[simp] theorem State.setBuf_buf (b : List Byte) : (s.setBuf b).buf = b := rfl
@[simp] theorem State.setBuf_halted (b : List Byte) : (s.setBuf b).halted = s.halted := rfl
@[simp] theorem State.setBuf_errorFlag (b : List Byte) : (s.setBuf b).errorFlag = s.errorFlag := rfl
@[simp] theorem State.setBuf_respWords (b : List Byte) : (s.setBuf b).respWords = s.respWords := rfl
@[simp] theorem State.setBuf_task (b : List Byte) : (s.setBuf b).task = s.task := rfl
@[simp] theorem State.setBuf_requests (b : List Byte) : (s.setBuf b).requests = s.requests := rfl
@[simp] theorem State.setBuf_env (b : List Byte) : (s.setBuf b).env = s.env := rfl
@[simp] theorem State.setBuf_freeCount (b : List Byte) : (s.setBuf b).freeCount = s.freeCount := rfl
@[simp] theorem State.setBuf_trace (b : List Byte) : (s.setBuf b).trace = s.trace := rfl
@[simp] theorem State.setBuf_result (b : List Byte) : (s.setBuf b).result = s.result := rfl

@[simp] theorem State.setRem_cfg (n : Nat) : (s.setRem n).cfg = s.cfg := rfl
@[simp] theorem State.setRem_base (n : Nat) : (s.setRem n).base = s.base := rfl
@[simp] theorem State.setRem_extBlkcnt (n : Nat) : (s.setRem n).extBlkcnt = s.extBlkcnt := rfl
@[simp] theorem State.setRem_ocrSupported (n : Nat) : (s.setRem n).ocrSupported = s.ocrSupported := rfl
@[simp] theorem State.setRem_inflight (n : Nat) : (s.setRem n).inflight = s.inflight := rfl
@[simp] theorem State.setRem_fsm (n : Nat) : (s.setRem n).fsm = s.fsm := rfl
@[simp] theorem State.setRem_seq (n : Nat) : (s.setRem n).seq = s.seq := rfl
@[simp] theorem State.setRem_session (n : Nat) : (s.setRem n).session = s.session := rfl
@[simp] theorem State.setRem_rem (n : Nat) : (s.setRem n).rem = n := rfl
@[simp] theorem State.setRem_done (n : Nat) : (s.setRem n).done = s.done := rfl
@[simp] theorem State.setRem_buf (n : Nat) : (s.setRem n).buf = s.buf := rfl
@[simp] theorem State.setRem_halted (n : Nat) : (s.setRem n).halted = s.halted := rfl
@[simp] theorem State.setRem_errorFlag (n : Nat) : (s.setRem n).errorFlag = s.errorFlag := rfl
@[simp] theorem State.setRem_respWords (n : Nat) : (s.setRem n).respWords = s.respWords := rfl
@[simp] theorem State.setRem_task (n : Nat) : (s.setRem n).task = s.task := rfl
@[simp] theorem State.setRem_requests (n : Nat) : (s.setRem n).requests = s.requests := rfl
@[simp] theorem State.setRem_env (n : Nat) : (s.setRem n).env = s.env := rfl
@[simp] theorem State.setRem_freeCount (n : Nat) : (s.setRem n).freeCount = s.freeCount := rfl
@[simp] theorem State.setRem_trace (n : Nat) : (s.setRem n).trace = s.trace := rfl
@[simp] theorem State.setRem_result (n : Nat) : (s.setRem n).result = s.result := rfl

@[simp] theorem State.setDone_cfg (b : Bool) : (s.setDone b).cfg = s.cfg := rfl
@[simp] theorem State.setDone_base (b : Bool) : (s.setDone b).base = s.base := rfl
@[simp] theorem State.setDone_extBlkcnt (b : Bool) : (s.setDone b).extBlkcnt = s.extBlkcnt := rfl
@[simp] theorem State.setDone_ocrSupported (b : Bool) : (s.setDone b).ocrSupported = s.ocrSupported := rfl
@[simp] theorem State.setDone_inflight (b : Bool) : (s.setDone b).inflight = s.inflight := rfl
@[simp] theorem State.setDone_fsm (b : Bool) : (s.setDone b).fsm = s.fsm := rfl
@[simp] theorem State.setDone_seq (b : Bool) : (s.setDone b).seq = s.seq := rfl
@[simp] theorem State.setDone_session (b : Bool) : (s.setDone b).session = s.session := rfl
@[simp] theorem State.setDone_rem (b : Bool) : (s.setDone b).rem = s.rem := rfl
@[simp] theorem State.setDone_done (b : Bool) : (s.setDone b).done = b := rfl
@[simp] theorem State.setDone_buf (b : Bool) : (s.setDone b).buf = s.buf := rfl
@[simp] theorem State.setDone_halted (b : Bool) : (s.setDone b).halted = s.halted := rfl
@[simp] theorem State.setDone_errorFlag (b : Bool) : (s.setDone b).errorFlag = s.errorFlag := rfl
@[simp] theorem State.setDone_respWords (b : Bool) : (s.setDone b).respWords = s.respWords := rfl
@[simp] theorem State.setDone_task (b : Bool) : (s.setDone b).task = s.task := rfl
@[simp] theorem State.setDone_requests (b : Bool) : (s.setDone b).requests = s.requests := rfl
@[simp] theorem State.setDone_env (b : Bool) : (s.setDone b).env = s.env := rfl
@[simp] theorem State.setDone_freeCount (b : Bool) : (s.setDone b).freeCount = s.freeCount := rfl
@[simp] theorem State.setDone_trace (b : Bool) : (s.setDone b).trace = s.trace := rfl
@[simp] theorem State.setDone_result (b : Bool) : (s.setDone b).result = s.result := rfl

@[simp] theorem State.setEnv_cfg (vs : List Word) : (s.setEnv vs).cfg = s.cfg := rfl
@[simp] theorem State.setEnv_base (vs : List Word) : (s.setEnv vs).base = s.base := rfl
@[simp] theorem State.setEnv_extBlkcnt (vs : List Word) : (s.setEnv vs).extBlkcnt = s.extBlkcnt := rfl
@[simp] theorem State.setEnv_ocrSupported (vs : List Word) : (s.setEnv vs).ocrSupported = s.ocrSupported := rfl
@[simp] theorem State.setEnv_inflight (vs : List Word) : (s.setEnv vs).inflight = s.inflight := rfl
@[simp] theorem State.setEnv_fsm (vs : List Word) : (s.setEnv vs).fsm = s.fsm := rfl
@[simp] theorem State.setEnv_seq (vs : List Word) : (s.setEnv vs).seq = s.seq := rfl
@[simp] theorem State.setEnv_session (vs : List Word) : (s.setEnv vs).session = s.session := rfl
@[simp] theorem State.setEnv_rem (vs : List Word) : (s.setEnv vs).rem = s.rem := rfl
@[simp] theorem State.setEnv_done (vs : List Word) : (s.setEnv vs).done = s.done := rfl
@[simp] theorem State.setEnv_buf (vs : List Word) : (s.setEnv vs).buf = s.buf := rfl
@[simp] theorem State.setEnv_halted (vs : List Word) : (s.setEnv vs).halted = s.halted := rfl
@[simp] theorem State.setEnv_errorFlag (vs : List Word) : (s.setEnv vs).errorFlag = s.errorFlag := rfl
@[simp] theorem State.setEnv_respWords (vs : List Word) : (s.setEnv vs).respWords = s.respWords := rfl
@[simp] theorem State.setEnv_task (vs : List Word) : (s.setEnv vs).task = s.task := rfl
@[simp] theorem State.setEnv_requests (vs : List Word) : (s.setEnv vs).requests = s.requests := rfl
@[simp] theorem State.setEnv_env (vs : List Word) : (s.setEnv vs).env = vs := rfl
@[simp] theorem State.setEnv_freeCount (vs : List Word) : (s.setEnv vs).freeCount = s.freeCount := rfl
@[simp] theorem State.setEnv_trace (vs : List Word) : (s.setEnv vs).trace = s.trace := rfl
@[simp] theorem State.setEnv_result (vs : List Word) : (s.setEnv vs).result = s.result := rfl

@[simp] theorem State.setRequests_cfg (rs : List Request) : (s.setRequests rs).cfg = s.cfg := rfl
@[simp] theorem State.setRequests_base (rs : List Request) : (s.setRequests rs).base = s.base := rfl
@[simp] theorem State.setRequests_extBlkcnt (rs : List Request) : (s.setRequests rs).extBlkcnt = s.extBlkcnt := rfl
@[simp] theorem State.setRequests_ocrSupported (rs : List Request) : (s.setRequests rs).ocrSupported = s.ocrSupported := rfl
@[simp] theorem State.setRequests_inflight (rs : List Request) : (s.setRequests rs).inflight = s.inflight := rfl
@[simp] theorem State.setRequests_fsm (rs : List Request) : (s.setRequests rs).fsm = s.fsm := rfl
@[simp] theorem State.setRequests_seq (rs : List Request) : (s.setRequests rs).seq = s.seq := rfl
@[simp] theorem State.setRequests_session (rs : List Request) : (s.setRequests rs).session = s.session := rfl
@[simp] theorem State.setRequests_rem (rs : List Request) : (s.setRequests rs).rem = s.rem := rfl
@[simp] theorem State.setRequests_done (rs : List Request) : (s.setRequests rs).done = s.done := rfl
@[simp] theorem State.setRequests_buf (rs : List Request) : (s.setRequests rs).buf = s.buf := rfl
@[simp] theorem State.setRequests_halted (rs : List Request) : (s.setRequests rs).halted = s.halted := rfl
@[simp] theorem State.setRequests_errorFlag (rs : List Request) : (s.setRequests rs).errorFlag = s.errorFlag := rfl
@[simp] theorem State.setRequests_respWords (rs : List Request) : (s.setRequests rs).respWords = s.respWords := rfl
@[simp] theorem State.setRequests_task (rs : List Request) : (s.setRequests rs).task = s.task := rfl
@[simp] theorem State.setRequests_requests (rs : List Request) : (s.setRequests rs).requests = rs := rfl
@[simp] theorem State.setRequests_env (rs : List Request) : (s.setRequests rs).env = s.env := rfl
@[simp] theorem State.setRequests_freeCount (rs : List Request) : (s.setRequests rs).freeCount = s.freeCount := rfl
@[simp] theorem State.setRequests_trace (rs : List Request) : (s.setRequests rs).trace = s.trace := rfl
@[simp] theorem State.setRequests_result (rs : List Request) : (s.setRequests rs).result = s.result := rfl

@[simp] theorem State.begin_cfg : s.begin.cfg = s.cfg := rfl
@[simp] theorem State.begin_base : s.begin.base = s.base := rfl
@[simp] theorem State.begin_extBlkcnt : s.begin.extBlkcnt = s.extBlkcnt := rfl
@[simp] theorem State.begin_ocrSupported : s.begin.ocrSupported = s.ocrSupported := rfl
@[simp] theorem State.begin_inflight : s.begin.inflight = s.inflight := rfl
@[simp] theorem State.begin_fsm : s.begin.fsm = s.fsm := rfl
@[simp] theorem State.begin_seq : s.begin.seq = s.seq := rfl
@[simp] theorem State.begin_session : s.begin.session = s.session := rfl
@[simp] theorem State.begin_rem : s.begin.rem = s.rem := rfl
@[simp] theorem State.begin_done : s.begin.done = s.done := rfl
@[simp] theorem State.begin_buf : s.begin.buf = s.buf := rfl
@[simp] theorem State.begin_halted : s.begin.halted = s.halted := rfl
@[simp] theorem State.begin_errorFlag : s.begin.errorFlag = s.errorFlag := rfl
@[simp] theorem State.begin_respWords : s.begin.respWords = s.respWords := rfl
@[simp] theorem State.begin_task : s.begin.task = s.task := rfl
@[simp] theorem State.begin_requests : s.begin.requests = s.requests := rfl
@[simp] theorem State.begin_env : s.begin.env = s.env := rfl
@[simp] theorem State.begin_freeCount : s.begin.freeCount = s.freeCount := rfl
@[simp] theorem State.begin_trace : s.begin.trace = s.trace := rfl
@[simp] theorem State.begin_result : s.begin.result = none := rfl

@[simp] theorem State.spendFree_cfg : s.spendFree.cfg = s.cfg := rfl
@[simp] theorem State.spendFree_base : s.spendFree.base = s.base := rfl
@[simp] theorem State.spendFree_extBlkcnt : s.spendFree.extBlkcnt = s.extBlkcnt := rfl
@[simp] theorem State.spendFree_ocrSupported : s.spendFree.ocrSupported = s.ocrSupported := rfl
@[simp] theorem State.spendFree_inflight : s.spendFree.inflight = s.inflight := rfl
@[simp] theorem State.spendFree_fsm : s.spendFree.fsm = s.fsm := rfl
@[simp] theorem State.spendFree_seq : s.spendFree.seq = s.seq := rfl
@[simp] theorem State.spendFree_session : s.spendFree.session = s.session := rfl
@[simp] theorem State.spendFree_rem : s.spendFree.rem = s.rem := rfl
@[simp] theorem State.spendFree_done : s.spendFree.done = s.done := rfl
@[simp] theorem State.spendFree_buf : s.spendFree.buf = s.buf := rfl
@[simp] theorem State.spendFree_halted : s.spendFree.halted = s.halted := rfl
@[simp] theorem State.spendFree_errorFlag : s.spendFree.errorFlag = s.errorFlag := rfl
@[simp] theorem State.spendFree_respWords : s.spendFree.respWords = s.respWords := rfl
@[simp] theorem State.spendFree_task : s.spendFree.task = s.task := rfl
@[simp] theorem State.spendFree_requests : s.spendFree.requests = s.requests := rfl
@[simp] theorem State.spendFree_env : s.spendFree.env = s.env := rfl
@[simp] theorem State.spendFree_freeCount : s.spendFree.freeCount = s.freeCount + 1 := rfl
@[simp] theorem State.spendFree_trace : s.spendFree.trace = s.trace := rfl
@[simp] theorem State.spendFree_result : s.spendFree.result = s.result := rfl

@[simp] theorem State.halt_cfg : s.halt.cfg = s.cfg := rfl
@[simp] theorem State.halt_base : s.halt.base = s.base := rfl
@[simp] theorem State.halt_extBlkcnt : s.halt.extBlkcnt = s.extBlkcnt := rfl
@[simp] theorem State.halt_ocrSupported : s.halt.ocrSupported = s.ocrSupported := rfl
@[simp] theorem State.halt_inflight : s.halt.inflight = s.inflight := rfl
@[simp] theorem State.halt_fsm : s.halt.fsm = s.fsm := rfl
@[simp] theorem State.halt_seq : s.halt.seq = s.seq := rfl
@[simp] theorem State.halt_session : s.halt.session = s.session := rfl
@[simp] theorem State.halt_rem : s.halt.rem = s.rem := rfl
@[simp] theorem State.halt_done : s.halt.done = s.done := rfl
@[simp] theorem State.halt_buf : s.halt.buf = s.buf := rfl
@[simp] theorem State.halt_halted : s.halt.halted = true := rfl
@[simp] theorem State.halt_errorFlag : s.halt.errorFlag = s.errorFlag := rfl
@[simp] theorem State.halt_respWords : s.halt.respWords = s.respWords := rfl
@[simp] theorem State.halt_task : s.halt.task = s.task := rfl
@[simp] theorem State.halt_requests : s.halt.requests = s.requests := rfl
@[simp] theorem State.halt_env : s.halt.env = s.env := rfl
@[simp] theorem State.halt_freeCount : s.halt.freeCount = s.freeCount := rfl
@[simp] theorem State.halt_trace : s.halt.trace = s.trace := rfl
@[simp] theorem State.halt_result : s.halt.result = s.result := rfl

@[simp] theorem State.decodedWith_cfg (ws : List Word) : (s.decodedWith ws).cfg = s.cfg := rfl
@[simp] theorem State.decodedWith_base (ws : List Word) : (s.decodedWith ws).base = s.base := rfl
@[simp] theorem State.decodedWith_extBlkcnt (ws : List Word) : (s.decodedWith ws).extBlkcnt = s.extBlkcnt := rfl
@[simp] theorem State.decodedWith_ocrSupported (ws : List Word) : (s.decodedWith ws).ocrSupported = s.ocrSupported := rfl
@[simp] theorem State.decodedWith_inflight (ws : List Word) : (s.decodedWith ws).inflight = none := rfl
@[simp] theorem State.decodedWith_fsm (ws : List Word) : (s.decodedWith ws).fsm = .decoded := rfl
@[simp] theorem State.decodedWith_seq (ws : List Word) : (s.decodedWith ws).seq = s.seq := rfl
@[simp] theorem State.decodedWith_session (ws : List Word) : (s.decodedWith ws).session = s.session := rfl
@[simp] theorem State.decodedWith_rem (ws : List Word) : (s.decodedWith ws).rem = s.rem := rfl
@[simp] theorem State.decodedWith_done (ws : List Word) : (s.decodedWith ws).done = s.done := rfl
@[simp] theorem State.decodedWith_buf (ws : List Word) : (s.decodedWith ws).buf = s.buf := rfl
@[simp] theorem State.decodedWith_halted (ws : List Word) : (s.decodedWith ws).halted = s.halted := rfl
@[simp] theorem State.decodedWith_errorFlag (ws : List Word) : (s.decodedWith ws).errorFlag = 0 := rfl
@[simp] theorem State.decodedWith_respWords (ws : List Word) : (s.decodedWith ws).respWords = ws := rfl
@[simp] theorem State.decodedWith_task (ws : List Word) : (s.decodedWith ws).task = s.task := rfl
@[simp] theorem State.decodedWith_requests (ws : List Word) : (s.decodedWith ws).requests = s.requests := rfl
@[simp] theorem State.decodedWith_env (ws : List Word) : (s.decodedWith ws).env = s.env := rfl
@[simp] theorem State.decodedWith_freeCount (ws : List Word) : (s.decodedWith ws).freeCount = s.freeCount := rfl
@[simp] theorem State.decodedWith_trace (ws : List Word) : (s.decodedWith ws).trace = s.trace := rfl
@[simp] theorem State.decodedWith_result (ws : List Word) : (s.decodedWith ws).result = s.result := rfl

@[simp] theorem State.failedWith_cfg (flag : Word) : (s.failedWith flag).cfg = s.cfg := rfl
@[simp] theorem State.failedWith_base (flag : Word) : (s.failedWith flag).base = s.base := rfl
@[simp] theorem State.failedWith_extBlkcnt (flag : Word) : (s.failedWith flag).extBlkcnt = s.extBlkcnt := rfl
@[simp] theorem State.failedWith_ocrSupported (flag : Word) : (s.failedWith flag).ocrSupported = s.ocrSupported := rfl
@[simp] theorem State.failedWith_inflight (flag : Word) : (s.failedWith flag).inflight = none := rfl
@[simp] theorem State.failedWith_fsm (flag : Word) : (s.failedWith flag).fsm = .failed := rfl
@[simp] theorem State.failedWith_seq (flag : Word) : (s.failedWith flag).seq = s.seq := rfl
@[simp] theorem State.failedWith_session (flag : Word) : (s.failedWith flag).session = s.session := rfl
@[simp] theorem State.failedWith_rem (flag : Word) : (s.failedWith flag).rem = s.rem := rfl
@[simp] theorem State.failedWith_done (flag : Word) : (s.failedWith flag).done = s.done := rfl
@[simp] theorem State.failedWith_buf (flag : Word) : (s.failedWith flag).buf = s.buf := rfl
@[simp] theorem State.failedWith_halted (flag : Word) : (s.failedWith flag).halted = s.halted := rfl
@[simp] theorem State.failedWith_errorFlag (flag : Word) : (s.failedWith flag).errorFlag = flag := rfl
@[simp] theorem State.failedWith_respWords (flag : Word) : (s.failedWith flag).respWords = [] := rfl
@[simp] theorem State.failedWith_task (flag : Word) : (s.failedWith flag).task = s.task := rfl
@[simp] theorem State.failedWith_requests (flag : Word) : (s.failedWith flag).requests = s.requests := rfl
@[simp] theorem State.failedWith_env (flag : Word) : (s.failedWith flag).env = s.env := rfl
@[simp] theorem State.failedWith_freeCount (flag : Word) : (s.failedWith flag).freeCount = s.freeCount := rfl
@[simp] theorem State.failedWith_trace (flag : Word) : (s.failedWith flag).trace = s.trace := rfl
@[simp] theorem State.failedWith_result (flag : Word) : (s.failedWith flag).result = s.result := rfl

@[simp] theorem State.endOp_cfg (r : OpResult) : (s.endOp r).cfg = s.cfg := rfl
@[simp] theorem State.endOp_base (r : OpResult) : (s.endOp r).base = s.base := rfl
@[simp] theorem State.endOp_extBlkcnt (r : OpResult) : (s.endOp r).extBlkcnt = s.extBlkcnt := rfl
@[simp] theorem State.endOp_ocrSupported (r : OpResult) : (s.endOp r).ocrSupported = s.ocrSupported := rfl
@[simp] theorem State.endOp_inflight (r : OpResult) : (s.endOp r).inflight = s.inflight := rfl
@[simp] theorem State.endOp_fsm (r : OpResult) : (s.endOp r).fsm = s.fsm := rfl
@[simp] theorem State.endOp_seq (r : OpResult) : (s.endOp r).seq = .s0 := rfl
@[simp] theorem State.endOp_session (r : OpResult) : (s.endOp r).session = s.session := rfl
@[simp] theorem State.endOp_rem (r : OpResult) : (s.endOp r).rem = s.rem := rfl
@[simp] theorem State.endOp_done (r : OpResult) : (s.endOp r).done = s.done := rfl
@[simp] theorem State.endOp_buf (r : OpResult) : (s.endOp r).buf = s.buf := rfl
@[simp] theorem State.endOp_halted (r : OpResult) : (s.endOp r).halted = s.halted := rfl
@[simp] theorem State.endOp_errorFlag (r : OpResult) : (s.endOp r).errorFlag = s.errorFlag := rfl
@[simp] theorem State.endOp_respWords (r : OpResult) : (s.endOp r).respWords = s.respWords := rfl
@[simp] theorem State.endOp_task (r : OpResult) : (s.endOp r).task = none := rfl
@[simp] theorem State.endOp_requests (r : OpResult) : (s.endOp r).requests = s.requests := rfl
@[simp] theorem State.endOp_env (r : OpResult) : (s.endOp r).env = s.env := rfl
@[simp] theorem State.endOp_freeCount (r : OpResult) : (s.endOp r).freeCount = s.freeCount := rfl
@[simp] theorem State.endOp_trace (r : OpResult) : (s.endOp r).trace = s.trace := rfl
@[simp] theorem State.endOp_result (r : OpResult) : (s.endOp r).result = some r := rfl

/-! Every event an operation emits is a script of one event. -/

@[simp] theorem State.addr_eq (off : Word) : s.addr off = s.base + off := rfl
@[simp] theorem State.says_nil : s.says [] = s := by simp [State.says]
theorem State.emit_rd (off v : Word) : s.emit (.rd (s.base + off) v) = s.says [.rd off v] := rfl
theorem State.writeReg_eq (off v : Word) : s.writeReg off v = s.says [.wr off v] := rfl
theorem State.setBitsWrite_eq (off m v : Word) : s.setBitsWrite off m v = s.says [.wr off (v ||| m)] := rfl
theorem State.clearBitsWrite_eq (off m v : Word) : s.clearBitsWrite off m v = s.says [.wr off (v &&& ~~~m)] := rfl
theorem State.emit_diag (d : Diag) : s.emit (.diag d) = s.says [.diag d] := rfl
theorem State.emit_delay (us : Nat) : s.emit (.delay us) = s.says [.delay us] := rfl
theorem State.hook_eq : s.hook = s.says [.hook] := rfl
theorem State.hookUnlessTuning_eq (o : Word) :
    s.hookUnlessTuning o = s.says (if o ∈ s.cfg.tuningOpcodes then [] else [.hook]) := by
  unfold State.hookUnlessTuning; split <;> simp [State.says, State.hook, State.emit, Io.event]
theorem State.warn_eq (st : Word) :
    s.warn st = s.says (if st &&& s.cfg.r1UnexpectedMask = 0#32 then [] else [.diag (.unexpectedStatus st)]) := by
  by_cases h : st &&& s.cfg.r1UnexpectedMask = 0#32 <;> simp [State.warn, h, State.emit_diag]
theorem State.ackTransfer_eq (st : Word) :
    s.ackTransfer st =
      s.says (if s.cfg.pioAck ∧ st &&& xferInts ≠ 0 then [.wr offInt (st &&& xferInts)] else []) := by
  unfold State.ackTransfer; split <;> simp [State.says, State.writeReg, State.emit, Io.event]

/-- Two scripts one after the other are one. -/
@[simp] theorem State.says_says (io io' : List Io) : (s.says io).says io' = s.says (io ++ io') := by simp [State.says]
/-- With the answers left over set, a script has run. -/
theorem State.says_setEnv (io : List Io) (vs : List Word) : (s.says io).setEnv vs = s.ran io vs := rfl

/-! The order of updates. -/

@[simp] theorem State.setEnv_says (vs : List Word) (io' : List Io) : ((s.setEnv vs).says io') = ((s.says io').setEnv vs) := rfl
@[simp] theorem State.setRequests_says (rs : List Request) (io' : List Io) : ((s.setRequests rs).says io') = ((s.says io').setRequests rs) := rfl
@[simp] theorem State.begin_says (io' : List Io) : (s.begin.says io') = (s.says io').begin := rfl
@[simp] theorem State.spendFree_says (io' : List Io) : (s.spendFree.says io') = (s.says io').spendFree := rfl
@[simp] theorem State.decodedWith_says (ws : List Word) (io' : List Io) : ((s.decodedWith ws).says io') = ((s.says io').decodedWith ws) := rfl
@[simp] theorem State.failedWith_says (flag : Word) (io' : List Io) : ((s.failedWith flag).says io') = ((s.says io').failedWith flag) := rfl
@[simp] theorem State.setFsm_says (f : Fsm) (io' : List Io) : ((s.setFsm f).says io') = ((s.says io').setFsm f) := rfl
@[simp] theorem State.setInflight_says (c : Option Command) (io' : List Io) : ((s.setInflight c).says io') = ((s.says io').setInflight c) := rfl
@[simp] theorem State.setSession_says (x : Option Session) (io' : List Io) : ((s.setSession x).says io') = ((s.says io').setSession x) := rfl
@[simp] theorem State.setPart_says (p : Option (BitVec 3)) (io' : List Io) : ((s.setPart p).says io') = ((s.says io').setPart p) := rfl
@[simp] theorem State.setBuf_says (b : List Byte) (io' : List Io) : ((s.setBuf b).says io') = ((s.says io').setBuf b) := rfl
@[simp] theorem State.setRem_says (n : Nat) (io' : List Io) : ((s.setRem n).says io') = ((s.says io').setRem n) := rfl
@[simp] theorem State.setDone_says (b : Bool) (io' : List Io) : ((s.setDone b).says io') = ((s.says io').setDone b) := rfl
@[simp] theorem State.halt_says (io' : List Io) : (s.halt.says io') = (s.says io').halt := rfl
@[simp] theorem State.setSeq_says (q : Seq) (io' : List Io) : ((s.setSeq q).says io') = ((s.says io').setSeq q) := rfl
@[simp] theorem State.waitFor_says (w : Wait) (c : Caller) (io' : List Io) : ((s.waitFor w c).says io') = ((s.says io').waitFor w c) := rfl
@[simp] theorem State.setRequests_setEnv (rs : List Request) (vs' : List Word) : ((s.setRequests rs).setEnv vs') = ((s.setEnv vs').setRequests rs) := rfl
@[simp] theorem State.begin_setEnv (vs' : List Word) : (s.begin.setEnv vs') = (s.setEnv vs').begin := rfl
@[simp] theorem State.spendFree_setEnv (vs' : List Word) : (s.spendFree.setEnv vs') = (s.setEnv vs').spendFree := rfl
@[simp] theorem State.decodedWith_setEnv (ws : List Word) (vs' : List Word) : ((s.decodedWith ws).setEnv vs') = ((s.setEnv vs').decodedWith ws) := rfl
@[simp] theorem State.failedWith_setEnv (flag : Word) (vs' : List Word) : ((s.failedWith flag).setEnv vs') = ((s.setEnv vs').failedWith flag) := rfl
@[simp] theorem State.setFsm_setEnv (f : Fsm) (vs' : List Word) : ((s.setFsm f).setEnv vs') = ((s.setEnv vs').setFsm f) := rfl
@[simp] theorem State.setInflight_setEnv (c : Option Command) (vs' : List Word) : ((s.setInflight c).setEnv vs') = ((s.setEnv vs').setInflight c) := rfl
@[simp] theorem State.setSession_setEnv (x : Option Session) (vs' : List Word) : ((s.setSession x).setEnv vs') = ((s.setEnv vs').setSession x) := rfl
@[simp] theorem State.setPart_setEnv (p : Option (BitVec 3)) (vs' : List Word) : ((s.setPart p).setEnv vs') = ((s.setEnv vs').setPart p) := rfl
@[simp] theorem State.setBuf_setEnv (b : List Byte) (vs' : List Word) : ((s.setBuf b).setEnv vs') = ((s.setEnv vs').setBuf b) := rfl
@[simp] theorem State.setRem_setEnv (n : Nat) (vs' : List Word) : ((s.setRem n).setEnv vs') = ((s.setEnv vs').setRem n) := rfl
@[simp] theorem State.setDone_setEnv (b : Bool) (vs' : List Word) : ((s.setDone b).setEnv vs') = ((s.setEnv vs').setDone b) := rfl
@[simp] theorem State.halt_setEnv (vs' : List Word) : (s.halt.setEnv vs') = (s.setEnv vs').halt := rfl
@[simp] theorem State.setSeq_setEnv (q : Seq) (vs' : List Word) : ((s.setSeq q).setEnv vs') = ((s.setEnv vs').setSeq q) := rfl
@[simp] theorem State.waitFor_setEnv (w : Wait) (c : Caller) (vs' : List Word) : ((s.waitFor w c).setEnv vs') = ((s.setEnv vs').waitFor w c) := rfl
@[simp] theorem State.begin_setRequests (rs' : List Request) : (s.begin.setRequests rs') = (s.setRequests rs').begin := rfl
@[simp] theorem State.spendFree_setRequests (rs' : List Request) : (s.spendFree.setRequests rs') = (s.setRequests rs').spendFree := rfl
@[simp] theorem State.decodedWith_setRequests (ws : List Word) (rs' : List Request) : ((s.decodedWith ws).setRequests rs') = ((s.setRequests rs').decodedWith ws) := rfl
@[simp] theorem State.failedWith_setRequests (flag : Word) (rs' : List Request) : ((s.failedWith flag).setRequests rs') = ((s.setRequests rs').failedWith flag) := rfl
@[simp] theorem State.setFsm_setRequests (f : Fsm) (rs' : List Request) : ((s.setFsm f).setRequests rs') = ((s.setRequests rs').setFsm f) := rfl
@[simp] theorem State.setInflight_setRequests (c : Option Command) (rs' : List Request) : ((s.setInflight c).setRequests rs') = ((s.setRequests rs').setInflight c) := rfl
@[simp] theorem State.setSession_setRequests (x : Option Session) (rs' : List Request) : ((s.setSession x).setRequests rs') = ((s.setRequests rs').setSession x) := rfl
@[simp] theorem State.setPart_setRequests (p : Option (BitVec 3)) (rs' : List Request) : ((s.setPart p).setRequests rs') = ((s.setRequests rs').setPart p) := rfl
@[simp] theorem State.setBuf_setRequests (b : List Byte) (rs' : List Request) : ((s.setBuf b).setRequests rs') = ((s.setRequests rs').setBuf b) := rfl
@[simp] theorem State.setRem_setRequests (n : Nat) (rs' : List Request) : ((s.setRem n).setRequests rs') = ((s.setRequests rs').setRem n) := rfl
@[simp] theorem State.setDone_setRequests (b : Bool) (rs' : List Request) : ((s.setDone b).setRequests rs') = ((s.setRequests rs').setDone b) := rfl
@[simp] theorem State.halt_setRequests (rs' : List Request) : (s.halt.setRequests rs') = (s.setRequests rs').halt := rfl
@[simp] theorem State.setSeq_setRequests (q : Seq) (rs' : List Request) : ((s.setSeq q).setRequests rs') = ((s.setRequests rs').setSeq q) := rfl
@[simp] theorem State.waitFor_setRequests (w : Wait) (c : Caller) (rs' : List Request) : ((s.waitFor w c).setRequests rs') = ((s.setRequests rs').waitFor w c) := rfl
@[simp] theorem State.spendFree_begin : s.spendFree.begin = s.begin.spendFree := rfl
@[simp] theorem State.decodedWith_begin (ws : List Word) : (s.decodedWith ws).begin = (s.begin.decodedWith ws) := rfl
@[simp] theorem State.failedWith_begin (flag : Word) : (s.failedWith flag).begin = (s.begin.failedWith flag) := rfl
@[simp] theorem State.setFsm_begin (f : Fsm) : (s.setFsm f).begin = (s.begin.setFsm f) := rfl
@[simp] theorem State.setInflight_begin (c : Option Command) : (s.setInflight c).begin = (s.begin.setInflight c) := rfl
@[simp] theorem State.setSession_begin (x : Option Session) : (s.setSession x).begin = (s.begin.setSession x) := rfl
@[simp] theorem State.setPart_begin (p : Option (BitVec 3)) : (s.setPart p).begin = (s.begin.setPart p) := rfl
@[simp] theorem State.setBuf_begin (b : List Byte) : (s.setBuf b).begin = (s.begin.setBuf b) := rfl
@[simp] theorem State.setRem_begin (n : Nat) : (s.setRem n).begin = (s.begin.setRem n) := rfl
@[simp] theorem State.setDone_begin (b : Bool) : (s.setDone b).begin = (s.begin.setDone b) := rfl
@[simp] theorem State.halt_begin : s.halt.begin = s.begin.halt := rfl
@[simp] theorem State.setSeq_begin (q : Seq) : (s.setSeq q).begin = (s.begin.setSeq q) := rfl
@[simp] theorem State.waitFor_begin (w : Wait) (c : Caller) : (s.waitFor w c).begin = (s.begin.waitFor w c) := rfl
@[simp] theorem State.decodedWith_spendFree (ws : List Word) : (s.decodedWith ws).spendFree = (s.spendFree.decodedWith ws) := rfl
@[simp] theorem State.failedWith_spendFree (flag : Word) : (s.failedWith flag).spendFree = (s.spendFree.failedWith flag) := rfl
@[simp] theorem State.setFsm_spendFree (f : Fsm) : (s.setFsm f).spendFree = (s.spendFree.setFsm f) := rfl
@[simp] theorem State.setInflight_spendFree (c : Option Command) : (s.setInflight c).spendFree = (s.spendFree.setInflight c) := rfl
@[simp] theorem State.setSession_spendFree (x : Option Session) : (s.setSession x).spendFree = (s.spendFree.setSession x) := rfl
@[simp] theorem State.setPart_spendFree (p : Option (BitVec 3)) : (s.setPart p).spendFree = (s.spendFree.setPart p) := rfl
@[simp] theorem State.setBuf_spendFree (b : List Byte) : (s.setBuf b).spendFree = (s.spendFree.setBuf b) := rfl
@[simp] theorem State.setRem_spendFree (n : Nat) : (s.setRem n).spendFree = (s.spendFree.setRem n) := rfl
@[simp] theorem State.setDone_spendFree (b : Bool) : (s.setDone b).spendFree = (s.spendFree.setDone b) := rfl
@[simp] theorem State.halt_spendFree : s.halt.spendFree = s.spendFree.halt := rfl
@[simp] theorem State.setSeq_spendFree (q : Seq) : (s.setSeq q).spendFree = (s.spendFree.setSeq q) := rfl
@[simp] theorem State.waitFor_spendFree (w : Wait) (c : Caller) : (s.waitFor w c).spendFree = (s.spendFree.waitFor w c) := rfl
@[simp] theorem State.setSession_decodedWith (x : Option Session) (ws' : List Word) : ((s.setSession x).decodedWith ws') = ((s.decodedWith ws').setSession x) := rfl
@[simp] theorem State.setPart_decodedWith (p : Option (BitVec 3)) (ws' : List Word) : ((s.setPart p).decodedWith ws') = ((s.decodedWith ws').setPart p) := rfl
@[simp] theorem State.setBuf_decodedWith (b : List Byte) (ws' : List Word) : ((s.setBuf b).decodedWith ws') = ((s.decodedWith ws').setBuf b) := rfl
@[simp] theorem State.setRem_decodedWith (n : Nat) (ws' : List Word) : ((s.setRem n).decodedWith ws') = ((s.decodedWith ws').setRem n) := rfl
@[simp] theorem State.setDone_decodedWith (b : Bool) (ws' : List Word) : ((s.setDone b).decodedWith ws') = ((s.decodedWith ws').setDone b) := rfl
@[simp] theorem State.halt_decodedWith (ws' : List Word) : (s.halt.decodedWith ws') = (s.decodedWith ws').halt := rfl
@[simp] theorem State.setSeq_decodedWith (q : Seq) (ws' : List Word) : ((s.setSeq q).decodedWith ws') = ((s.decodedWith ws').setSeq q) := rfl
@[simp] theorem State.waitFor_decodedWith (w : Wait) (c : Caller) (ws' : List Word) : ((s.waitFor w c).decodedWith ws') = ((s.decodedWith ws').waitFor w c) := rfl
@[simp] theorem State.setSession_failedWith (x : Option Session) (flag' : Word) : ((s.setSession x).failedWith flag') = ((s.failedWith flag').setSession x) := rfl
@[simp] theorem State.setPart_failedWith (p : Option (BitVec 3)) (flag' : Word) : ((s.setPart p).failedWith flag') = ((s.failedWith flag').setPart p) := rfl
@[simp] theorem State.setBuf_failedWith (b : List Byte) (flag' : Word) : ((s.setBuf b).failedWith flag') = ((s.failedWith flag').setBuf b) := rfl
@[simp] theorem State.setRem_failedWith (n : Nat) (flag' : Word) : ((s.setRem n).failedWith flag') = ((s.failedWith flag').setRem n) := rfl
@[simp] theorem State.setDone_failedWith (b : Bool) (flag' : Word) : ((s.setDone b).failedWith flag') = ((s.failedWith flag').setDone b) := rfl
@[simp] theorem State.halt_failedWith (flag' : Word) : (s.halt.failedWith flag') = (s.failedWith flag').halt := rfl
@[simp] theorem State.setSeq_failedWith (q : Seq) (flag' : Word) : ((s.setSeq q).failedWith flag') = ((s.failedWith flag').setSeq q) := rfl
@[simp] theorem State.waitFor_failedWith (w : Wait) (c : Caller) (flag' : Word) : ((s.waitFor w c).failedWith flag') = ((s.failedWith flag').waitFor w c) := rfl
@[simp] theorem State.setInflight_setFsm (c : Option Command) (f' : Fsm) : ((s.setInflight c).setFsm f') = ((s.setFsm f').setInflight c) := rfl
@[simp] theorem State.setSession_setFsm (x : Option Session) (f' : Fsm) : ((s.setSession x).setFsm f') = ((s.setFsm f').setSession x) := rfl
@[simp] theorem State.setPart_setFsm (p : Option (BitVec 3)) (f' : Fsm) : ((s.setPart p).setFsm f') = ((s.setFsm f').setPart p) := rfl
@[simp] theorem State.setBuf_setFsm (b : List Byte) (f' : Fsm) : ((s.setBuf b).setFsm f') = ((s.setFsm f').setBuf b) := rfl
@[simp] theorem State.setRem_setFsm (n : Nat) (f' : Fsm) : ((s.setRem n).setFsm f') = ((s.setFsm f').setRem n) := rfl
@[simp] theorem State.setDone_setFsm (b : Bool) (f' : Fsm) : ((s.setDone b).setFsm f') = ((s.setFsm f').setDone b) := rfl
@[simp] theorem State.halt_setFsm (f' : Fsm) : (s.halt.setFsm f') = (s.setFsm f').halt := rfl
@[simp] theorem State.setSeq_setFsm (q : Seq) (f' : Fsm) : ((s.setSeq q).setFsm f') = ((s.setFsm f').setSeq q) := rfl
@[simp] theorem State.waitFor_setFsm (w : Wait) (c : Caller) (f' : Fsm) : ((s.waitFor w c).setFsm f') = ((s.setFsm f').waitFor w c) := rfl
@[simp] theorem State.setSession_setInflight (x : Option Session) (c' : Option Command) : ((s.setSession x).setInflight c') = ((s.setInflight c').setSession x) := rfl
@[simp] theorem State.setPart_setInflight (p : Option (BitVec 3)) (c' : Option Command) : ((s.setPart p).setInflight c') = ((s.setInflight c').setPart p) := rfl
@[simp] theorem State.setBuf_setInflight (b : List Byte) (c' : Option Command) : ((s.setBuf b).setInflight c') = ((s.setInflight c').setBuf b) := rfl
@[simp] theorem State.setRem_setInflight (n : Nat) (c' : Option Command) : ((s.setRem n).setInflight c') = ((s.setInflight c').setRem n) := rfl
@[simp] theorem State.setDone_setInflight (b : Bool) (c' : Option Command) : ((s.setDone b).setInflight c') = ((s.setInflight c').setDone b) := rfl
@[simp] theorem State.halt_setInflight (c' : Option Command) : (s.halt.setInflight c') = (s.setInflight c').halt := rfl
@[simp] theorem State.setSeq_setInflight (q : Seq) (c' : Option Command) : ((s.setSeq q).setInflight c') = ((s.setInflight c').setSeq q) := rfl
@[simp] theorem State.waitFor_setInflight (w : Wait) (c : Caller) (c' : Option Command) : ((s.waitFor w c).setInflight c') = ((s.setInflight c').waitFor w c) := rfl
@[simp] theorem State.setBuf_setSession (b : List Byte) (x' : Option Session) : ((s.setBuf b).setSession x') = ((s.setSession x').setBuf b) := rfl
@[simp] theorem State.setRem_setSession (n : Nat) (x' : Option Session) : ((s.setRem n).setSession x') = ((s.setSession x').setRem n) := rfl
@[simp] theorem State.setDone_setSession (b : Bool) (x' : Option Session) : ((s.setDone b).setSession x') = ((s.setSession x').setDone b) := rfl
@[simp] theorem State.halt_setSession (x' : Option Session) : (s.halt.setSession x') = (s.setSession x').halt := rfl
@[simp] theorem State.setSeq_setSession (q : Seq) (x' : Option Session) : ((s.setSeq q).setSession x') = ((s.setSession x').setSeq q) := rfl
@[simp] theorem State.waitFor_setSession (w : Wait) (c : Caller) (x' : Option Session) : ((s.waitFor w c).setSession x') = ((s.setSession x').waitFor w c) := rfl
@[simp] theorem State.setBuf_setPart (b : List Byte) (p' : Option (BitVec 3)) : ((s.setBuf b).setPart p') = ((s.setPart p').setBuf b) := rfl
@[simp] theorem State.setRem_setPart (n : Nat) (p' : Option (BitVec 3)) : ((s.setRem n).setPart p') = ((s.setPart p').setRem n) := rfl
@[simp] theorem State.setDone_setPart (b : Bool) (p' : Option (BitVec 3)) : ((s.setDone b).setPart p') = ((s.setPart p').setDone b) := rfl
@[simp] theorem State.halt_setPart (p' : Option (BitVec 3)) : (s.halt.setPart p') = (s.setPart p').halt := rfl
@[simp] theorem State.setSeq_setPart (q : Seq) (p' : Option (BitVec 3)) : ((s.setSeq q).setPart p') = ((s.setPart p').setSeq q) := rfl
@[simp] theorem State.waitFor_setPart (w : Wait) (c : Caller) (p' : Option (BitVec 3)) : ((s.waitFor w c).setPart p') = ((s.setPart p').waitFor w c) := rfl
@[simp] theorem State.setRem_setBuf (n : Nat) (b' : List Byte) : ((s.setRem n).setBuf b') = ((s.setBuf b').setRem n) := rfl
@[simp] theorem State.setDone_setBuf (b : Bool) (b' : List Byte) : ((s.setDone b).setBuf b') = ((s.setBuf b').setDone b) := rfl
@[simp] theorem State.halt_setBuf (b' : List Byte) : (s.halt.setBuf b') = (s.setBuf b').halt := rfl
@[simp] theorem State.setSeq_setBuf (q : Seq) (b' : List Byte) : ((s.setSeq q).setBuf b') = ((s.setBuf b').setSeq q) := rfl
@[simp] theorem State.waitFor_setBuf (w : Wait) (c : Caller) (b' : List Byte) : ((s.waitFor w c).setBuf b') = ((s.setBuf b').waitFor w c) := rfl
@[simp] theorem State.setDone_setRem (b : Bool) (n' : Nat) : ((s.setDone b).setRem n') = ((s.setRem n').setDone b) := rfl
@[simp] theorem State.halt_setRem (n' : Nat) : (s.halt.setRem n') = (s.setRem n').halt := rfl
@[simp] theorem State.setSeq_setRem (q : Seq) (n' : Nat) : ((s.setSeq q).setRem n') = ((s.setRem n').setSeq q) := rfl
@[simp] theorem State.waitFor_setRem (w : Wait) (c : Caller) (n' : Nat) : ((s.waitFor w c).setRem n') = ((s.setRem n').waitFor w c) := rfl
@[simp] theorem State.halt_setDone (b' : Bool) : (s.halt.setDone b') = (s.setDone b').halt := rfl
@[simp] theorem State.setSeq_setDone (q : Seq) (b' : Bool) : ((s.setSeq q).setDone b') = ((s.setDone b').setSeq q) := rfl
@[simp] theorem State.waitFor_setDone (w : Wait) (c : Caller) (b' : Bool) : ((s.waitFor w c).setDone b') = ((s.setDone b').waitFor w c) := rfl
@[simp] theorem State.setSeq_halt (q : Seq) : (s.setSeq q).halt = (s.halt.setSeq q) := rfl
@[simp] theorem State.waitFor_halt (w : Wait) (c : Caller) : (s.waitFor w c).halt = (s.halt.waitFor w c) := rfl
@[simp] theorem State.waitFor_setSeq (w : Wait) (c : Caller) (q' : Seq) : ((s.waitFor w c).setSeq q') = ((s.setSeq q').waitFor w c) := rfl

@[simp] theorem State.setEnv_setEnv (vs : List Word) (vs' : List Word) : ((s.setEnv vs).setEnv vs') = (s.setEnv vs') := rfl
@[simp] theorem State.setRequests_setRequests (rs : List Request) (rs' : List Request) : ((s.setRequests rs).setRequests rs') = (s.setRequests rs') := rfl
@[simp] theorem State.setFsm_setFsm (f : Fsm) (f' : Fsm) : ((s.setFsm f).setFsm f') = (s.setFsm f') := rfl
@[simp] theorem State.setInflight_setInflight (c : Option Command) (c' : Option Command) : ((s.setInflight c).setInflight c') = (s.setInflight c') := rfl
@[simp] theorem State.setSession_setSession (x : Option Session) (x' : Option Session) : ((s.setSession x).setSession x') = (s.setSession x') := rfl
@[simp] theorem State.setBuf_setBuf (b : List Byte) (b' : List Byte) : ((s.setBuf b).setBuf b') = (s.setBuf b') := rfl
@[simp] theorem State.setRem_setRem (n : Nat) (n' : Nat) : ((s.setRem n).setRem n') = (s.setRem n') := rfl
@[simp] theorem State.setDone_setDone (b : Bool) (b' : Bool) : ((s.setDone b).setDone b') = (s.setDone b') := rfl
@[simp] theorem State.setSeq_setSeq (q : Seq) (q' : Seq) : ((s.setSeq q).setSeq q') = (s.setSeq q') := rfl
@[simp] theorem State.waitFor_waitFor (w : Wait) (c : Caller) (w' : Wait) (c' : Caller) : ((s.waitFor w c).waitFor w' c') = (s.waitFor w' c') := rfl
@[simp] theorem State.setFsm_decodedWith (f : Fsm) (ws : List Word) : (s.setFsm f).decodedWith ws = s.decodedWith ws := rfl
@[simp] theorem State.setInflight_decodedWith (c : Option Command) (ws : List Word) :
    (s.setInflight c).decodedWith ws = s.decodedWith ws := rfl
@[simp] theorem State.setFsm_failedWith (f : Fsm) (w : Word) : (s.setFsm f).failedWith w = s.failedWith w := rfl
@[simp] theorem State.setInflight_failedWith (c : Option Command) (w : Word) :
    (s.setInflight c).failedWith w = s.failedWith w := rfl
@[simp] theorem State.waitFor_endOp (w : Wait) (k : Caller) (r : OpResult) : (s.waitFor w k).endOp r = s.endOp r := rfl
@[simp] theorem State.setSeq_endOp (q : Seq) (r : OpResult) : (s.setSeq q).endOp r = s.endOp r := rfl

@[simp] theorem State.outstanding_says (io : List Io) : (s.says io).outstanding = s.outstanding := rfl
@[simp] theorem State.outstanding_begin : s.begin.outstanding = s.outstanding := rfl
@[simp] theorem State.outstanding_setSeq (q : Seq) : (s.setSeq q).outstanding = s.outstanding := rfl
@[simp] theorem State.outstanding_setSession (x : Option Session) : (s.setSession x).outstanding = s.outstanding := rfl
@[simp] theorem State.outstanding_decodedWith (ws : List Word) : (s.decodedWith ws).outstanding = false := rfl
@[simp] theorem State.outstanding_failedWith (w : Word) : (s.failedWith w).outstanding = false := rfl
@[simp] theorem State.outstanding_waitFor (w : Wait) (k : Caller) : (s.waitFor w k).outstanding = s.outstanding := rfl

@[simp] theorem answersOf_nil : answersOf [] = [] := rfl
@[simp] theorem answersOf_rd (off v : Word) (l : List Io) : answersOf (.rd off v :: l) = v :: answersOf l := rfl
@[simp] theorem answersOf_wr (off v : Word) (l : List Io) : answersOf (.wr off v :: l) = answersOf l := rfl
@[simp] theorem answersOf_delay (us : Nat) (l : List Io) : answersOf (.delay us :: l) = answersOf l := rfl
@[simp] theorem answersOf_diag (d : Diag) (l : List Io) : answersOf (.diag d :: l) = answersOf l := rfl
@[simp] theorem answersOf_hook (l : List Io) : answersOf (.hook :: l) = answersOf l := rfl

/-- The answers of a script in two parts. -/
@[simp] theorem answersOf_append (l l' : List Io) : answersOf (l ++ l') = answersOf l ++ answersOf l' := by
  induction l with
  | nil => rfl
  | cons a l ih => cases a <;> simp [ih]

/-- The answers of reads of one register are their values. -/
@[simp] theorem answersOf_map_rd (off : Word) (vs : List Word) : answersOf (vs.map (Io.rd off)) = vs := by
  induction vs with
  | nil => rfl
  | cons v vs ih => simp [ih]

end Sys2Proof.Machine
end

