-- ==== Sys2Proof/Laws/Drive.lean ====
section
/-! SUPPORT. How a run goes on with queued answers: one lemma per read and one per spin, then one per command. Each says
everything that happens with the answers it consumes, so that a proof about an operation chains them and unfolds none of
the engine. -/

namespace Sys2Proof.Machine

/-- An operation that has ended consumes nothing. -/
theorem drive_ended {s : State} (h : s.task = none) (vs : List Word) : drive vs s = s.setEnv vs := by
  cases vs <;> simp [drive, h]

/-- A waiting operation consumes the next answer. -/
theorem drive_cons {s : State} {t : Task} (h : s.task = some t) (v : Word) (vs : List Word) :
    drive (v :: vs) s = drive vs (answer t v s) := by
  simp [drive, h]

/-- The same for a read just issued. -/
theorem drive_wait (s : State) (w : Wait) (k : Caller) (v : Word) (vs : List Word) :
    drive (v :: vs) (s.waitFor w k) =
      drive vs (resume ⟨w, k⟩ v ((s.says [.rd w.off v]).waitFor w k)) := by
  rw [drive_cons (State.waitFor_task s w k)]
  rfl

/-- With unbounded spins a spin always goes on (60_exceptions.md R410). -/
theorem mayPoll_of_unbounded {s : State} (h : s.cfg.pollLimit = none) (n : Nat) : s.mayPoll n = true := by
  simp [State.mayPoll, h]

/-- SUBMIT's busy-wait: reads that show busy change nothing but the trace (42_command_response_engine.md R302). -/
theorem drive_busy {c : Command} {raw : Word} {k : Caller} (vs : List Word) (busy : List Word) :
    ∀ {s : State} {n : Nat}, s.cfg.pollLimit = none → (∀ b ∈ busy, b &&& busyMask s.cfg c.opcode ≠ 0) →
      drive (busy ++ vs) (s.waitFor (.busy c raw n) k) =
        drive vs ((s.says (busy.map (Io.rd offSdcSts))).waitFor (.busy c raw (n + busy.length)) k) := by
  induction busy with
  | nil => intro s n _ _; simp
  | cons b busy ih =>
    intro s n hl hb
    have hb0 : ¬ b &&& busyMask s.cfg c.opcode = 0 := hb b (by simp)
    have hs : resume ⟨.busy c raw n, k⟩ b ((s.says [.rd offSdcSts b]).waitFor (.busy c raw n) k) =
        (s.says [.rd offSdcSts b]).waitFor (.busy c raw (n + 1)) k := by
      simp only [resume, submitBusy]
      rw [if_neg (by simpa using hb0), if_pos (mayPoll_of_unbounded (by simpa using hl) n)]
      rfl
    rw [List.cons_append, drive_wait]
    simp only [Wait.off]
    rw [hs, ih (by simpa using hl) (by simpa using fun x hx => hb x (by simp [hx]))]
    simp [Nat.add_assoc, Nat.add_comm]

/-- AWAIT's poll: reads without an awaited bit change nothing but the trace (42_command_response_engine.md R305). -/
theorem drive_polls {c : Command} {k : Caller} (vs : List Word) (polls : List Word) :
    ∀ {s : State} {n : Nat}, s.cfg.pollLimit = none → (∀ p ∈ polls, p &&& cmdWaitMask s.cfg = 0) →
      drive (polls ++ vs) (s.waitFor (.poll c n) k) =
        drive vs ((s.says (polls.map (Io.rd offInt))).waitFor (.poll c (n + polls.length)) k) := by
  induction polls with
  | nil => intro s n _ _; simp
  | cons b polls ih =>
    intro s n hl hb
    have hb0 : b &&& cmdWaitMask s.cfg = 0 := hb b (by simp)
    have hs : resume ⟨.poll c n, k⟩ b ((s.says [.rd offInt b]).waitFor (.poll c n) k) =
        (s.says [.rd offInt b]).waitFor (.poll c (n + 1)) k := by
      simp only [resume, awaitPoll]
      rw [if_pos (by simpa using hb0), if_pos (mayPoll_of_unbounded (by simpa using hl) n)]
      rfl
    rw [List.cons_append, drive_wait]
    simp only [Wait.off]
    rw [hs, ih (by simpa using hl) (by simpa using fun x hx => hb x (by simp [hx]))]
    simp [Nat.add_assoc, Nat.add_comm]

/-! ## The position left behind does not matter -/

theorem launch_waitFor (s : State) (w : Wait) (k' : Caller) (o a f : Word) (k : Caller) :
    launch (s.waitFor w k') o a f k = launch s o a f k := by
  have h : submitCheck (s.waitFor w k') o a f = submitCheck s o a f := rfl
  unfold launch
  rw [h]
  cases submitCheck s o a f with
  | error r => cases r <;> rfl
  | ok p => rfl

theorem opcondAttempt_waitFor (s : State) (w : Wait) (k' : Caller) (a : Word) (i : Nat) (p : OpcondFor) :
    opcondAttempt (s.waitFor w k') a i p = opcondAttempt s a i p := launch_waitFor s w k' _ _ _ _

theorem opcondReturn_waitFor (s : State) (w : Wait) (k' : Caller) (v : Word) (p : OpcondFor) :
    opcondReturn (s.waitFor w k') v p = opcondReturn s v p := by
  cases p with
  | host => rfl
  | probe => exact opcondAttempt_waitFor (s.setSeq .b5) w k' _ _ _
  | negotiate => exact launch_waitFor (s.setSeq .b6) w k' _ _ _ _

theorem switchFinish_waitFor (s : State) (w : Wait) (k' : Caller) (p st : Word) :
    switchFinish (s.waitFor w k') p st = switchFinish s p st := by
  simp [switchFinish, State.warn_eq, State.emit_diag, State.raiseErr]
  rfl

/-- What an operation does when its command has succeeded does not depend on the position. -/
theorem commandDone_waitFor (s : State) (w : Wait) (k' : Caller) (words : List Word) (k : Caller) :
    commandDone (s.waitFor w k') words k = commandDone s words k := by
  cases k with
  | opcond a i p =>
    simp [commandDone, opcondNext, opcondReturn_waitFor, State.emit_delay, State.raiseErr, opcondAttempt_waitFor]
  | goIdle => exact opcondAttempt_waitFor (s.setSeq .b3) w k' _ _ _
  | sendCid ocr => exact launch_waitFor (s.setSeq .b7) w k' _ _ _ _
  | setRca ocr cid => exact launch_waitFor s w k' _ _ _ _
  | switchCmd p => exact launch_waitFor (s.setSeq .p2) w k' _ _ _ _
  | status p polls =>
    simp only [commandDone, switchFinish_waitFor]
    rw [show (s.waitFor w k').mayPoll polls = s.mayPoll polls from rfl,
      show sendStatusPoll (s.waitFor w k') p (polls + 1) = sendStatusPoll s p (polls + 1) from
        launch_waitFor s w k' _ _ _ _]
    rfl
  | _ => rfl

/-- What an operation does when its command has failed does not depend on the position. -/
theorem commandFailed_waitFor (s : State) (w : Wait) (k' : Caller) (e : ErrKind) (k : Caller) :
    commandFailed (s.waitFor w k') e k = commandFailed s e k := by
  cases k <;> rfl

/-! ## One command -/

/-- SUBMIT passes its checks: the state in which it waits. -/
theorem launch_ok {s : State} {o a f : Word} {kind : Kind} {raw : Word} (k : Caller) (hh : s.halted = false)
    (ho : s.outstanding = false) (hc : classify s.cfg o a f = .ok kind)
    (he : encodeCommand s.cfg o a kind f = some raw) :
    launch s o a f k = (s.setFsm .submitting).waitFor (.busy ⟨o, a, f, kind⟩ raw 0) k := by
  simp [launch, submitCheck, hh, ho, hc, he]

/-- SUBMIT's busy-wait to its end: the argument and the command are written (42_command_response_engine.md R302,
R303). -/
theorem drive_submit {s : State} {c : Command} {raw : Word} {k : Caller} {a : CmdAnswers}
    (hl : s.cfg.pollLimit = none) (hb : ∀ b ∈ a.busy, b &&& busyMask s.cfg c.opcode ≠ 0)
    (hi : a.idle &&& busyMask s.cfg c.opcode = 0) (vs : List Word) :
    drive (answersOf (submitIo a c.arg raw) ++ vs) (s.waitFor (.busy c raw 0) k) =
      drive vs
        (if k = .submit then ((s.says (submitIo a c.arg raw)).setInflight (some c)).endOp (.ok .unit)
         else awaitStart ((s.says (submitIo a c.arg raw)).setInflight (some c)) c k) := by
  have hr (s : State) (n : Nat) (hi : a.idle &&& busyMask s.cfg c.opcode = 0) :
      resume ⟨.busy c raw n, k⟩ a.idle (s.waitFor (.busy c raw n) k) =
      if k = .submit then ((s.waitFor (.busy c raw n) k).sendCommand c raw).endOp (.ok .unit)
      else awaitStart ((s.waitFor (.busy c raw n) k).sendCommand c raw) c k := if_pos hi
  simp only [submitIo, answersOf_append, answersOf_map_rd, answersOf_rd, answersOf_wr, answersOf_nil, List.append_assoc,
    List.cons_append, List.nil_append]
  rw [drive_busy _ _ hl hb, drive_wait, State.says_says, Wait.off, hr _ _ (by exact hi)]
  simp [State.sendCommand, State.writeReg_eq, awaitStart]

/-- AWAIT up to the acknowledge (42_command_response_engine.md R304 to R306). -/
theorem drive_await {s : State} {c : Command} {k : Caller} {a : CmdAnswers}
    (hl : s.cfg.pollLimit = none) (hs : a.polled s.cfg) (vs : List Word) :
    drive (answersOf (awaitIo a s.cfg) ++ vs) (awaitStart s c k) =
      drive vs
        (if a.matched s.cfg &&& cmdErrMask ≠ 0 then
           awaitFail (((s.says (awaitIo a s.cfg)).setFsm .awaitingResponse).waitFor (.poll c a.polls.length) k) c
             (a.matched s.cfg) k
         else
           readResponse (((s.says (awaitIo a s.cfg)).setFsm .awaitingResponse).waitFor (.poll c a.polls.length) k)
             (respRegs c.kind) [] k) := by
  obtain ⟨hp, hm⟩ := hs
  have h1 (s : State) : resume ⟨.awaitClear c, k⟩ a.inten (s.waitFor (.awaitClear c) k) =
      ((s.says [.wr offInten (a.inten &&& ~~~cmdWaitMask s.cfg)]).setFsm .awaitingResponse).waitFor (.poll c 0) k := rfl
  have h2 (s : State) (n : Nat) (hm : a.status &&& cmdWaitMask s.cfg ≠ 0) :
      resume ⟨.poll c n, k⟩ a.status (s.waitFor (.poll c n) k) =
      if a.matched s.cfg &&& cmdErrMask ≠ 0 then
        awaitFail ((s.says [.wr offInt (a.matched s.cfg)]).waitFor (.poll c n) k) c (a.matched s.cfg) k
      else readResponse ((s.says [.wr offInt (a.matched s.cfg)]).waitFor (.poll c n) k) (respRegs c.kind) [] k :=
    if_neg hm
  simp only [awaitIo, answersOf_append, answersOf_map_rd, answersOf_rd, answersOf_wr, answersOf_nil, List.append_assoc,
    List.cons_append, List.nil_append, awaitStart]
  rw [drive_wait, h1, drive_polls _ _ (by exact hl) (by exact hp), drive_wait, h2 _ _ (by exact hm)]
  simp [Wait.off]

/-- The response reads (42_command_response_engine.md R309, R310): what is read is what AWAIT succeeds with. -/
theorem drive_response {k : Caller} (vs : List Word) (regs : List Word) :
    ∀ {s : State} {got ws : List Word}, ws.length = regs.length →
      drive (ws ++ vs) (readResponse s regs got k) =
        drive vs (awaitDone (s.says (List.zipWith Io.rd regs ws)) (got ++ ws) k) := by
  induction regs with
  | nil =>
    intro s got ws h
    obtain rfl : ws = [] := by simpa using h
    simp [readResponse]
  | cons off more ih =>
    intro s got ws h
    obtain _ | ⟨w, ws⟩ := ws
    · simp at h
    have h1 (s : State) : resume ⟨.resp off more got, k⟩ w (s.waitFor (.resp off more got) k) =
        readResponse (s.waitFor (.resp off more got) k) more (got ++ [w]) k := rfl
    rw [List.cons_append, readResponse, drive_wait, h1, ih (by simpa using h)]
    simp [awaitDone, commandDone_waitFor, Wait.off]

/-- The response registers of a kind are as many as its response words (10_state.md R153). -/
theorem respRegs_length (k : Kind) : (respRegs k).length = kindWords k := by cases k <;> rfl

/-- The response events in one form for every kind. -/
theorem respIo_eq (k : Kind) (ws : List Word) : respIo k ws = List.zipWith Io.rd (respRegs k) ws := by
  cases k <;> simp [respIo, respRegs]

/-- The answers of the response events are the words. -/
theorem answersOf_zipWith (regs : List Word) :
    ∀ {ws : List Word}, ws.length = regs.length → answersOf (List.zipWith Io.rd regs ws) = ws := by
  induction regs with
  | nil => intro ws h; simpa using (List.length_eq_zero_iff.1 h).symm
  | cons r regs ih =>
    intro ws h
    obtain _ | ⟨w, ws⟩ := ws
    · simp at h
    · simp [ih (ws := ws) (by simpa using h)]

/-- AWAIT of a command that succeeds, whatever goes on after it. -/
theorem drive_await_succeeds {s : State} {c : Command} {k : Caller} {a : CmdAnswers} (hl : s.cfg.pollLimit = none)
    (hsp : a.polled s.cfg) (he : a.matched s.cfg &&& cmdErrMask = 0) (hw : a.words.length = kindWords c.kind)
    (vs : List Word) :
    drive (answersOf (awaitIo a s.cfg ++ respIo c.kind a.words) ++ vs) (awaitStart s c k) =
      drive vs
        (commandDone ((s.says (awaitIo a s.cfg ++ respIo c.kind a.words)).decodedWith a.words) a.words k) := by
  have hlen : a.words.length = (respRegs c.kind).length := hw.trans (respRegs_length c.kind).symm
  rw [answersOf_append, respIo_eq, answersOf_zipWith _ hlen, List.append_assoc, drive_await hl hsp,
    if_neg (not_not_intro he), drive_response _ _ hlen]
  simp [awaitDone, commandDone_waitFor]

/-- AWAIT of a command that fails, whatever goes on after it (42_command_response_engine.md R307, R308). -/
theorem drive_await_fails {s : State} {c : Command} {k : Caller} {a : CmdAnswers} (hl : s.cfg.pollLimit = none)
    (hs : a.polled s.cfg) (he : a.matched s.cfg &&& cmdErrMask ≠ 0) (vs : List Word) :
    drive (answersOf (awaitIo a s.cfg) ++ vs) (awaitStart s c k) =
      drive vs
        (commandFailed
          ((s.says (awaitIo a s.cfg ++ cmdFailIo a s.cfg c.opcode c.arg)).failedWith (a.matched s.cfg &&& cmdErrMask))
          (cmdError (a.matched s.cfg &&& cmdErrMask) c) k) := by
  rw [drive_await hl hs, if_pos he]
  simp [awaitFail, commandFailed_waitFor, State.emit_diag, State.hookUnlessTuning_eq, cmdFailIo]
  rfl

/-- SUBMIT of any other operation than SUBMIT itself goes on with AWAIT. -/
theorem drive_launch {s : State} {o arg f : Word} {kind : Kind} {raw : Word} {k : Caller} {a : CmdAnswers}
    (hl : s.cfg.pollLimit = none) (hh : s.halted = false) (ho : s.outstanding = false)
    (hc : classify s.cfg o arg f = .ok kind) (he : encodeCommand s.cfg o arg kind f = some raw)
    (hs : a.spins s.cfg o) (hk : k ≠ .submit) (vs : List Word) :
    drive (answersOf (submitIo a arg raw) ++ vs) (launch s o arg f k) =
      drive vs
        (awaitStart (((s.says (submitIo a arg raw)).setFsm .submitting).setInflight (some ⟨o, arg, f, kind⟩))
          ⟨o, arg, f, kind⟩ k) := by
  rw [launch_ok k hh ho hc he, drive_submit (c := ⟨o, arg, f, kind⟩) (by exact hl) (by exact hs.1) (by exact hs.2.1),
    if_neg hk]
  simp

/-- A whole command that succeeds, whatever goes on after it (42_command_response_engine.md R312). -/
theorem drive_command_succeeds {s : State} {o arg f : Word} {kind : Kind} {raw : Word} {k : Caller} {a : CmdAnswers}
    (hl : s.cfg.pollLimit = none) (hh : s.halted = false) (ho : s.outstanding = false)
    (hc : classify s.cfg o arg f = .ok kind) (he : encodeCommand s.cfg o arg kind f = some raw)
    (hs : a.succeeds s.cfg o kind) (hk : k ≠ .submit) (vs : List Word) :
    drive (answersOf (cmdIo a s.cfg arg raw kind) ++ vs) (launch s o arg f k) =
      drive vs (commandDone ((s.says (cmdIo a s.cfg arg raw kind)).decodedWith a.words) a.words k) := by
  rw [show cmdIo a s.cfg arg raw kind = submitIo a arg raw ++ (awaitIo a s.cfg ++ respIo kind a.words) by simp [cmdIo],
    answersOf_append, List.append_assoc, drive_launch hl hh ho hc he hs.1 hk,
    show awaitIo a s.cfg ++ respIo kind a.words =
      awaitIo a (((s.says (submitIo a arg raw)).setFsm .submitting).setInflight (some ⟨o, arg, f, kind⟩)).cfg ++
        respIo (⟨o, arg, f, kind⟩ : Command).kind a.words from rfl,
    drive_await_succeeds (by exact hl) (by exact hs.1.2.2) (by exact hs.2.1) (by exact hs.2.2)]
  simp

/-- A whole command that fails, whatever goes on after it. -/
theorem drive_command_fails {s : State} {o arg f : Word} {kind : Kind} {raw : Word} {k : Caller} {a : CmdAnswers}
    (hl : s.cfg.pollLimit = none) (hh : s.halted = false) (ho : s.outstanding = false)
    (hc : classify s.cfg o arg f = .ok kind) (he : encodeCommand s.cfg o arg kind f = some raw)
    (hs : a.fails s.cfg o) (hk : k ≠ .submit) (vs : List Word) :
    drive (answersOf (submitIo a arg raw ++ awaitIo a s.cfg) ++ vs) (launch s o arg f k) =
      drive vs
        (commandFailed
          ((s.says (submitIo a arg raw ++ awaitIo a s.cfg ++ cmdFailIo a s.cfg o arg)).failedWith
            (a.matched s.cfg &&& cmdErrMask))
          (cmdError (a.matched s.cfg &&& cmdErrMask) ⟨o, arg, f, kind⟩) k) := by
  rw [answersOf_append, List.append_assoc, drive_launch hl hh ho hc he hs.1 hk,
    show awaitIo a s.cfg =
      awaitIo a (((s.says (submitIo a arg raw)).setFsm .submitting).setInflight (some ⟨o, arg, f, kind⟩)).cfg from rfl,
    drive_await_fails (by exact hl) (by exact hs.1.2.2) (by exact hs.2.1)]
  simp

end Sys2Proof.Machine
end

