-- ==== Sys2Proof/Laws/Exec.lean ====
section
/-! SUPPORT. How every operation begins, in one place: `exec` of any instruction but CONSTRUCT is `hostOp` of `startOf`, so
that a proof about all instructions goes through the beginnings and through the answers, not through 43 meanings. -/

namespace Sys2Proof.Machine

/-- What the register operations take: the 4-byte cells up to 0xFC. -/
theorem inMap_iff (off : Word) : inMap off = true ↔ off.toNat % 4 = 0 ∧ off.toNat ≤ 0xFC := by simp [inMap]

/-- The beginning of a command. -/
def startCommand (o a f : Word) (s : State) : State := launch s o a f .cmd

/-- What an operation that is not refused for HALTED does before its first read; CONSTRUCT has no such beginning. -/
def startOf : Instr → State → State
  | .goIdleState a f => startCommand opGoIdleState a f
  | .sendOpCond a f => startCommand opSendOpCond a f
  | .allSendCid a f => startCommand opAllSendCid a f
  | .setRelativeAddr a f => startCommand opSetRelativeAddr a f
  | .switchFunc a f => startCommand opSwitch a f
  | .selectCard a f => startCommand opSelectCard a f
  | .deselectCard f => startCommand opSelectCard 0 f
  | .sendExtCsd a f => startCommand opSendExtCsd a f
  | .stopTransmission a f => startCommand opStopTransmission a f
  | .sendStatus a f => startCommand opSendStatus a f
  | .setBlocklen a f => startCommand opSetBlocklen a f
  | .readSingleBlock a f => startCommand opReadSingleBlock a f
  | .sendTuningBlock a f => startCommand opSendTuningBlock a f
  | .sendTuningBlockHs200 a f => startCommand opSendTuningBlockHs200 a f
  | .writeBlock a f => startCommand opWriteBlock a f
  | .fastIo a f => startCommand opFastIo a f
  | .goIrqState a f => startCommand opGoIrqState a f
  | .sdAppOpCond a f => startCommand opSdAppOpCond a f
  | .appCmd a f => startCommand opAppCmd a f
  | .generic o a f => startCommand (o.setWidth 32) a f
  | .readMultipleBlock a f => startCommand opReadMultipleBlock a f
  | .writeMultipleBlock a f => startCommand opWriteMultipleBlock a f
  | .regRead r => fun s => if inMap r then s.waitFor (.regRead r) .regOp else s.refuse .badRegister
  | .regWrite r v => fun s => if inMap r then (s.writeReg r v).endOp (.ok .unit) else s.refuse .badRegister
  | .regSetBits r m => fun s => if inMap r then s.waitFor (.setBits r m) .regOp else s.refuse .badRegister
  | .regClearBits r m => fun s => if inMap r then s.waitFor (.clearBits r m) .regOp else s.refuse .badRegister
  | .classify o a f => fun s =>
    match classify s.cfg o a f with
    | .ok k => s.endOp (.ok (.kind k))
    | .error r => s.refuse r
  | .encode o a k f => fun s =>
    match classify s.cfg o a f with
    | .error r => s.refuse r
    | .ok k' =>
      if k' = k then
        match encodeCommand s.cfg o a k f with
        | some raw => s.endOp (.ok (.word raw))
        | none => s.fatal o
      else s.refuse .sequencing
  | .submit o a f => fun s => launch s o a f .submit
  | .await => fun s =>
    match s.fsm, s.inflight with
    | .submitting, some c => awaitStart s c .await
    | _, _ => s.refuse .noCommand
  | .cmd o a f => startCommand o a f
  | .pioRead => fun s => if s.fsm = .decoded then pioStart s .rx .pio else s.refuse .noCompanionCommand
  | .pioWrite d => fun s => if s.fsm = .decoded then pioStart (s.setBuf d) .tx .pio else s.refuse .noCompanionCommand
  | .bringup => fun s =>
    if s.outstanding then s.refuse .commandOutstanding else ((s.setSession none).setSeq .b1).waitFor .cfgEnable .goIdle
  | .opcondLoop a => fun s => opcondAttempt s a 1 .host
  | .ffs x => fun s => s.endOp (.ok (.index (ffs x)))
  | .selectWindow m => fun s => s.endOp (.ok (.word (selectWindow m)))
  | .switchPart p => fun s =>
    match sessionRefusal s with
    | some r => s.refuse r
    | none =>
      if 7 < p.toNat then s.refuse .badPartition
      else launch (s.setSeq .p1) opSwitch (switchArg p) (flagsR1BAc s.cfg) (.switchCmd p)
  | .readBlock a => fun s =>
    match sessionRefusal s with
    | some r => s.refuse r
    | none => blockCommand s opReadSingleBlock a .readBlock
  | .writeBlockOp a d => fun s =>
    match sessionRefusal s with
    | some r => s.refuse r
    | none => blockCommand s opWriteBlock a (.writeBlock d)
  | .construct _ => id
  | .resetHook => fun s => s.hook.endOp (.ok .unit)
  | .deviceReset => fun s => (s.setSession none).endOp (.ok .unit)

/-- Every operation but CONSTRUCT is a host operation with its beginning. -/
theorem exec_eq_hostOp {i : Instr} (h : ∀ b, i ≠ .construct b) (s : State) : exec i s = hostOp s (startOf i) := by
  cases i
  case construct b => exact absurd rfl (h b)
  all_goals rfl

/-- A command row is CMD (log entry 9). -/
theorem exec_command {i : Instr} {o a f : Word} (h : i.command = some (o, a, f)) (s : State) :
    exec i s = exec (.cmd o a f) s := by
  cases i <;> simp only [Instr.command, Option.some.injEq, Prod.mk.injEq, reduceCtorEq] at h <;>
    (obtain ⟨rfl, rfl, rfl⟩ := h; rfl)

/-- A host operation that is not halted begins and runs on with the answers queued. -/
theorem hostOp_ready {s : State} (h : s.halted = false) (start : State → State) :
    hostOp s start = .next (drive s.env (start s.begin)) := by
  simp [hostOp, h]

/-- A halted one is refused (10_state.md R134). -/
theorem hostOp_halted {s : State} (h : s.halted = true) (start : State → State) :
    hostOp s start = .next ((s.begin.refuse .halted).setEnv s.env) := by
  simp only [hostOp, h, if_true]
  rw [drive_ended rfl]

/-- The state after an operation that ended without an event. -/
theorem ended_eq {s : State} (ht : s.task = none) (hq : s.seq = .s0) (r : OpResult) :
    (s.begin.endOp r).setEnv s.env = { s with result := some r } := by
  cases s
  simp_all [State.begin, State.endOp, State.setEnv]

/-- An operation that is not halted and ends at once. -/
theorem hostOp_ends {s : State} (h : s.ready) {start : State → State} {r : OpResult}
    (he : start s.begin = s.begin.endOp r) : hostOp s start = .next { s with result := some r } := by
  rw [hostOp_ready h.2.2, he, drive_ended rfl, ended_eq h.1 h.2.1]

end Sys2Proof.Machine
end

