-- ==== Sys2Proof/Laws/Frames.lean ====
section
/-! SUPPORT. What no operation changes, said once: a step of the engine keeps the parameters, BASE and the host's queue,
and only appends to the trace. And the induction over the answers of a run. -/

namespace Sys2Proof.Machine

/-- What holds before a run and is kept by every answer holds after it. -/
theorem drive_keeps {P : State → Prop} (hs : ∀ s t v, P s → s.task = some t → P (answer t v s))
    (he : ∀ s vs, P s → P (s.setEnv vs)) (vs : List Word) : ∀ s, P s → P (drive vs s) := by
  induction vs with
  | nil => intro s h; exact he s [] h
  | cons v vs ih =>
    intro s h
    cases ht : s.task with
    | none => rw [drive_ended ht]; exact he s _ h
    | some t => rw [drive_cons ht]; exact ih _ (hs s t v h ht)

/-- `t` has the parameters, the base and the host's queue of `s`, and a trace that goes on from that of `s`. -/
structure State.Extends (s t : State) : Prop where
  cfg          : t.cfg = s.cfg
  base         : t.base = s.base
  extBlkcnt    : t.extBlkcnt = s.extBlkcnt
  ocrSupported : t.ocrSupported = s.ocrSupported
  requests     : t.requests = s.requests
  freeCount    : t.freeCount = s.freeCount
  trace        : s.trace <+: t.trace

namespace State.Extends

variable {s t u : State}

theorem refl (s : State) : s.Extends s := ⟨rfl, rfl, rfl, rfl, rfl, rfl, List.prefix_rfl⟩

theorem trans (h : s.Extends t) (h' : t.Extends u) : s.Extends u :=
  ⟨h'.cfg.trans h.cfg, h'.base.trans h.base, h'.extBlkcnt.trans h.extBlkcnt, h'.ocrSupported.trans h.ocrSupported,
    h'.requests.trans h.requests, h'.freeCount.trans h.freeCount, h.trace.trans h'.trace⟩

theorem script (h : s.Extends t) (io : List Io) : s.Extends (t.says io) :=
  h.trans ⟨rfl, rfl, rfl, rfl, rfl, rfl, List.prefix_append _ _⟩
theorem emit (h : s.Extends t) (e : Event) : s.Extends (t.emit e) :=
  h.trans ⟨rfl, rfl, rfl, rfl, rfl, rfl, List.prefix_append _ _⟩
theorem waitFor (h : s.Extends t) (w : Wait) (k : Caller) : s.Extends (t.waitFor w k) :=
  h.trans ⟨rfl, rfl, rfl, rfl, rfl, rfl, List.prefix_rfl⟩
theorem endOp (h : s.Extends t) (r : OpResult) : s.Extends (t.endOp r) :=
  h.trans ⟨rfl, rfl, rfl, rfl, rfl, rfl, List.prefix_rfl⟩
theorem setSeq (h : s.Extends t) (q : Seq) : s.Extends (t.setSeq q) :=
  h.trans ⟨rfl, rfl, rfl, rfl, rfl, rfl, List.prefix_rfl⟩
theorem setFsm (h : s.Extends t) (f : Fsm) : s.Extends (t.setFsm f) :=
  h.trans ⟨rfl, rfl, rfl, rfl, rfl, rfl, List.prefix_rfl⟩
theorem setInflight (h : s.Extends t) (c : Option Command) : s.Extends (t.setInflight c) :=
  h.trans ⟨rfl, rfl, rfl, rfl, rfl, rfl, List.prefix_rfl⟩
theorem setSession (h : s.Extends t) (x : Option Session) : s.Extends (t.setSession x) :=
  h.trans ⟨rfl, rfl, rfl, rfl, rfl, rfl, List.prefix_rfl⟩
theorem setPart (h : s.Extends t) (p : Option (BitVec 3)) : s.Extends (t.setPart p) :=
  h.trans ⟨rfl, rfl, rfl, rfl, rfl, rfl, List.prefix_rfl⟩
theorem setBuf (h : s.Extends t) (b : List Byte) : s.Extends (t.setBuf b) :=
  h.trans ⟨rfl, rfl, rfl, rfl, rfl, rfl, List.prefix_rfl⟩
theorem setRem (h : s.Extends t) (n : Nat) : s.Extends (t.setRem n) :=
  h.trans ⟨rfl, rfl, rfl, rfl, rfl, rfl, List.prefix_rfl⟩
theorem setDone (h : s.Extends t) (b : Bool) : s.Extends (t.setDone b) :=
  h.trans ⟨rfl, rfl, rfl, rfl, rfl, rfl, List.prefix_rfl⟩
theorem halt (h : s.Extends t) : s.Extends t.halt :=
  h.trans ⟨rfl, rfl, rfl, rfl, rfl, rfl, List.prefix_rfl⟩
theorem decodedWith (h : s.Extends t) (ws : List Word) : s.Extends (t.decodedWith ws) :=
  h.trans ⟨rfl, rfl, rfl, rfl, rfl, rfl, List.prefix_rfl⟩
theorem failedWith (h : s.Extends t) (f : Word) : s.Extends (t.failedWith f) :=
  h.trans ⟨rfl, rfl, rfl, rfl, rfl, rfl, List.prefix_rfl⟩
theorem setEnv (h : s.Extends t) (vs : List Word) : s.Extends (t.setEnv vs) :=
  h.trans ⟨rfl, rfl, rfl, rfl, rfl, rfl, List.prefix_rfl⟩
theorem begin (h : s.Extends t) : s.Extends t.begin :=
  h.trans ⟨rfl, rfl, rfl, rfl, rfl, rfl, List.prefix_rfl⟩

theorem writeReg (h : s.Extends t) (o v : Word) : s.Extends (t.writeReg o v) := h.emit _
theorem refuse (h : s.Extends t) (r : Reason) : s.Extends (t.refuse r) := h.endOp _
theorem raiseErr (h : s.Extends t) (e : ErrKind) : s.Extends (t.raiseErr e) := h.endOp _
theorem fatal (h : s.Extends t) (o : Word) : s.Extends (t.fatal o) := h.halt.endOp _

theorem stopWith (h : s.Extends t) (r : OpResult) : s.Extends (t.stopWith r) := by
  cases r <;> first | exact h.endOp _ | exact h.fatal _

theorem launch (h : s.Extends t) (o a f : Word) (k : Caller) : s.Extends (launch t o a f k) := by
  unfold Machine.launch
  split
  · exact h.stopWith _
  · exact (h.setFsm _).waitFor _ _

theorem opcondReturn (h : s.Extends t) (w : Word) (p : OpcondFor) : s.Extends (opcondReturn t w p) := by
  cases p
  · exact h.endOp _
  · exact (h.setSeq _).launch _ _ _ _
  · exact (h.setSeq _).launch _ _ _ _

theorem opcondNext (h : s.Extends t) (a : Word) (i : Nat) (p : OpcondFor) (w : Word) :
    s.Extends (opcondNext t a i p w) := by
  unfold Machine.opcondNext
  split
  · exact h.opcondReturn _ _
  · split
    · exact h.opcondReturn _ _
    · split
      · exact (h.emit _).launch _ _ _ _
      · exact h.raiseErr _

theorem switchFinish (h : s.Extends t) (p st : Word) : s.Extends (switchFinish t p st) := by
  unfold Machine.switchFinish
  rw [State.warn_eq]
  split
  · exact (((h.script _).emit _).setPart _).raiseErr _
  · exact ((h.script _).setPart _).endOp _

theorem commandDone (h : s.Extends t) (ws : List Word) (k : Caller) : s.Extends (commandDone t ws k) := by
  cases k
  case opcond a i p => exact h.opcondNext _ _ _ _
  case goIdle => exact (h.setSeq _).launch _ _ _ _
  case sendCid ocr => exact (h.setSeq _).launch _ _ _ _
  case setRca ocr cid => exact h.launch _ _ _ _
  case selectCard ocr cid => exact (h.setSession _).endOp _
  case switchCmd p => exact (h.setSeq _).launch _ _ _ _
  case status p polls =>
    simp only [Machine.commandDone]
    split
    · split
      · exact h.launch _ _ _ _
      · exact (h.setPart _).raiseErr _
    · exact h.switchFinish _ _
  case readBlock => exact (h.setSeq _).waitFor _ _
  case writeBlock d => exact ((h.setSeq _).setBuf _).waitFor _ _
  all_goals exact h.endOp _

theorem commandFailed (h : s.Extends t) (e : ErrKind) (k : Caller) : s.Extends (commandFailed t e k) := by
  cases k
  case switchCmd p => exact (h.setPart _).raiseErr _
  case status p polls => exact (h.setPart _).raiseErr _
  all_goals exact h.raiseErr _

theorem readResponse (h : s.Extends t) (regs got : List Word) (k : Caller) : s.Extends (readResponse t regs got k) := by
  cases regs
  · exact (h.decodedWith _).commandDone _ _
  · exact h.waitFor _ _

theorem pioHead (h : s.Extends t) (p : PioPos) (k : Caller) : s.Extends (pioHead t p k) := by
  unfold Machine.pioHead
  split
  · exact h.waitFor _ _
  · split
    · exact h.endOp _
    · split
      · exact h.waitFor _ _
      · exact h.raiseErr _

theorem pioFail (h : s.Extends t) (v : Word) (c : Bool) : s.Extends (pioFail t v c) :=
  ((h.emit _).emit _).raiseErr _

theorem pioPush (n : Nat) : ∀ {t : State}, s.Extends t → s.Extends (pioPush n t) := by
  induction n with
  | zero => intro t h; exact h
  | succ n ih => intro t h; exact ih ((h.writeReg _ _).setRem _)

theorem pioBurst (h : s.Extends t) (p : PioPos) (k : Caller) (n : Nat) : s.Extends (pioBurst t p k n) := by
  unfold Machine.pioBurst
  split
  · exact h.pioHead _ _
  · exact h.waitFor _ _

/-- Every answer. -/
theorem resume (h : s.Extends t) (x : Task) (v : Word) : s.Extends (resume x v t) := by
  obtain ⟨w, k⟩ := x
  cases w
  case regRead o => exact h.endOp _
  case setBits o m => exact (h.emit _).endOp _
  case clearBits o m => exact (h.emit _).endOp _
  case cfgEnable => exact ((h.emit _).emit _).waitFor _ _
  case cfgMode => exact (((h.emit _).emit _).setSeq _).launch _ _ _ _
  case busy c raw n =>
    simp only [Machine.resume, submitBusy]
    split
    · split
      · exact (((h.writeReg _ _).writeReg _ _).setInflight _).endOp _
      · exact (((h.writeReg _ _).writeReg _ _).setInflight _).waitFor _ _
    · split
      · exact h.waitFor _ _
      · exact (h.setFsm _).commandFailed _ _
  case awaitClear c => exact ((h.emit _).setFsm _).waitFor _ _
  case poll c n =>
    simp only [Machine.resume, awaitPoll]
    split
    · split
      · exact h.waitFor _ _
      · exact ((h.setFsm _).setInflight _).commandFailed _ _
    · split
      · simp only [awaitFail, State.hookUnlessTuning_eq]
        exact ((((h.writeReg _ _).failedWith _).emit _).script _).commandFailed _ _
      · exact (h.writeReg _ _).readResponse _ _ _
  case resp o more got => exact h.readResponse _ _ _
  case pioClear d => exact (((h.emit _).setRem _).setDone _).waitFor _ _
  case pioRearm p => exact (h.emit _).waitFor _ _
  case pioStatus p =>
    simp only [Machine.resume, pioStatus]
    split
    · exact h.pioFail _ _
    · rw [State.ackTransfer_eq]
      exact ((h.setDone _).script _).pioHead _ _
  case pioFifo p =>
    simp only [Machine.resume, pioFifo]
    split
    · split
      · exact h.pioBurst _ _ _
      · split
        · exact h.pioBurst _ _ _
        · exact h.waitFor _ _
    · split
      · exact (pioPush _ h).pioHead _ _
      · exact h.waitFor _ _
  case pioDrain p l =>
    simp only [Machine.resume, pioDrain]
    split
    · exact ((h.setBuf _).setRem _).pioHead _ _
    · exact ((h.setBuf _).setRem _).waitFor _ _
  case pioRecheck p =>
    simp only [Machine.resume, pioRecheck]
    split
    · exact h.pioFail _ _
    · split
      · exact h.waitFor _ _
      · exact h.raiseErr _

theorem answer (h : s.Extends t) (x : Task) (v : Word) : s.Extends (answer x v t) := (h.emit _).resume x v

/-- A whole run. -/
theorem drive (h : s.Extends t) (vs : List Word) : s.Extends (drive vs t) :=
  drive_keeps (P := fun t => s.Extends t) (fun _ x v h _ => h.answer x v) (fun _ _ h => h.setEnv _) vs t h

/-- Every beginning. -/
theorem startOf (h : s.Extends t) (i : Instr) : s.Extends (startOf i t) := by
  cases i
  case regRead r => simp only [Machine.startOf]; split; exacts [h.waitFor _ _, h.refuse _]
  case regWrite r v => simp only [Machine.startOf]; split; exacts [(h.writeReg _ _).endOp _, h.refuse _]
  case regSetBits r m => simp only [Machine.startOf]; split; exacts [h.waitFor _ _, h.refuse _]
  case regClearBits r m => simp only [Machine.startOf]; split; exacts [h.waitFor _ _, h.refuse _]
  case classify o a f => simp only [Machine.startOf]; split; exacts [h.endOp _, h.refuse _]
  case encode o a k f =>
    simp only [Machine.startOf]
    split
    · exact h.refuse _
    · split
      · split
        · exact h.endOp _
        · exact h.fatal _
      · exact h.refuse _
  case await => simp only [Machine.startOf]; split; exacts [h.waitFor _ _, h.refuse _]
  case pioRead => simp only [Machine.startOf]; split; exacts [h.waitFor _ _, h.refuse _]
  case pioWrite d => simp only [Machine.startOf]; split; exacts [(h.setBuf _).waitFor _ _, h.refuse _]
  case bringup => simp only [Machine.startOf]; split; exacts [h.refuse _, ((h.setSession _).setSeq _).waitFor _ _]
  case ffs x => exact h.endOp _
  case selectWindow x => exact h.endOp _
  case switchPart p =>
    simp only [Machine.startOf]
    split
    · exact h.refuse _
    · split
      · exact h.refuse _
      · exact (h.setSeq _).launch _ _ _ _
  case readBlock a =>
    simp only [Machine.startOf]; split; exacts [h.refuse _, (((h.setSeq _).writeReg _ _).setSeq _).launch _ _ _ _]
  case writeBlockOp a d =>
    simp only [Machine.startOf]; split; exacts [h.refuse _, (((h.setSeq _).writeReg _ _).setSeq _).launch _ _ _ _]
  case construct b => exact h
  case resetHook => exact (h.emit _).endOp _
  case deviceReset => exact (h.setSession _).endOp _
  all_goals exact h.launch _ _ _ _

end State.Extends

/-- What every operation but CONSTRUCT keeps. -/
theorem exec_extends {s t : State} {i : Instr} (hi : ∀ b, i ≠ .construct b) (h : exec i s = .next t) : s.Extends t := by
  rw [exec_eq_hostOp hi] at h
  simp only [hostOp, Host.Outcome.next.injEq] at h
  subst h
  refine State.Extends.drive ?_ _
  split
  · exact (State.Extends.refl s).begin.refuse _
  · exact (State.Extends.refl s).begin.startOf i

end Sys2Proof.Machine
end

