-- ==== Sys2Proof/Laws/Session.lean ====
section
/-! SUPPORT. Under the spec's flag values every command the session controller sends has its kind and its word, and one
lemma each for such a command that succeeds or fails and for the waiting attempts of OPCOND_LOOP. -/

namespace Sys2Proof.Machine

/-- The kind depends on the flag layout alone of all parameters. -/
theorem classify_flags {c c' : Config} (h : c.flags = c'.flags) (o a f : Word) : classify c o a f = classify c' o a f := by
  simp only [classify, operandRefusal, kindOf, h]

/-- The kind depends on the argument for opcode 7 only (41_command_codec.md R250). -/
theorem classify_arg (cfg : Config) {o : Word} (h : o ≠ 7) (a b f : Word) : classify cfg o a f = classify cfg o b f := by
  unfold classify kindOf
  rw [if_neg (c := o = opSelectCard) h, if_neg (c := o = opSelectCard) h]

/-- The flags values of 92_eei_decisions.md D18. -/
theorem flags_usual {cfg : Config} (h : cfg.usual) :
    flagsGoIdle cfg = 0x40 ∧ flagsOpCond cfg = 0x61 ∧ flagsSendCid cfg = 0x67 ∧ flagsR1Ac cfg = 0x15 ∧
      flagsR1BAc cfg = 0x1D ∧ flagsR1Adtc cfg = 0x35 := by
  simp only [flagsGoIdle, flagsOpCond, flagsSendCid, flagsR1Ac, flagsR1BAc, flagsR1Adtc, h.1]
  decide

/-- A command that is not a multi-block one has its word. -/
theorem encode_usual {cfg : Config} (h : cfg.usual) {o : Word} (h18 : o ≠ 18) (h25 : o ≠ 25) (a f : Word) (k : Kind) :
    encodeCommand cfg o a k f = some (rawWord cfg o k f) := by
  unfold encodeCommand
  rw [if_neg]
  rw [h.2.1]
  simp only [List.contains_cons, List.contains_nil, Bool.or_false, Bool.or_eq_true, beq_iff_eq, not_or]
  exact ⟨h18, h25⟩

/-- `launch` does not look at the caller's checks: what a command needs to be sent. -/
structure State.sends (s : State) (o arg f : Word) (kind : Kind) : Prop where
  usual : s.cfg.usual
  live  : s.halted = false
  idle  : s.outstanding = false
  kind  : classify defaultConfig o arg f = .ok kind
  read  : o ≠ 18
  write : o ≠ 25

/-- A command of the session controller that succeeds. -/
theorem drive_usual_succeeds {s : State} {o arg f : Word} {kind : Kind} {k : Caller} {a : CmdAnswers}
    (h : s.sends o arg f kind) (hs : a.succeeds s.cfg o kind) (hk : k ≠ .submit) (vs : List Word) :
    drive (answersOf (cmdIo a s.cfg arg (rawWord s.cfg o kind f) kind) ++ vs) (launch s o arg f k) =
      drive vs
        (commandDone ((s.says (cmdIo a s.cfg arg (rawWord s.cfg o kind f) kind)).decodedWith a.words) a.words k) :=
  drive_command_succeeds h.usual.2.2 h.live h.idle
    ((classify_flags (c' := defaultConfig) (h.usual.1.trans rfl) _ _ _).trans h.kind)
    (encode_usual h.usual h.read h.write _ _ _) hs hk vs

/-- A command of the session controller that fails. -/
theorem drive_usual_fails {s : State} {o arg f : Word} {kind : Kind} {k : Caller} {a : CmdAnswers}
    (h : s.sends o arg f kind) (hs : a.fails s.cfg o) (hk : k ≠ .submit) (vs : List Word) :
    drive (answersOf (submitIo a arg (rawWord s.cfg o kind f) ++ awaitIo a s.cfg) ++ vs) (launch s o arg f k) =
      drive vs
        (commandFailed
          ((s.says (submitIo a arg (rawWord s.cfg o kind f) ++ awaitIo a s.cfg ++ cmdFailIo a s.cfg o arg)).failedWith
            (a.matched s.cfg &&& cmdErrMask))
          (cmdError (a.matched s.cfg &&& cmdErrMask) ⟨o, arg, f, kind⟩) k) :=
  drive_command_fails h.usual.2.2 h.live h.idle
    ((classify_flags (c' := defaultConfig) (h.usual.1.trans rfl) _ _ _).trans h.kind)
    (encode_usual h.usual h.read h.write _ _ _) hs hk vs

/-- Attempts of OPCOND_LOOP that find the card not ready, each with the delay after it (44_card_session.md R353): the
state is as before but for the trace and what the last of them left of the command. -/
theorem drive_opcond_waiting {arg : Word} {p : OpcondFor} (ha : arg ≠ 0) (vs : List Word) (waiting : List CmdAnswers) :
    ∀ {s : State} {i : Nat}, s.cfg.usual → s.halted = false → s.outstanding = false →
      (∀ x ∈ waiting, x.succeeds s.cfg 1 .kR3 ∧ x.notReady) → i + waiting.length ≤ opcondAttempts →
      ∃ t : State, t = (if waiting = [] then s else
          (s.says (opcondWaitIo s.cfg arg waiting)).decodedWith ((waiting.getLast?.map CmdAnswers.words).getD [])) ∧
        drive (answersOf (opcondWaitIo s.cfg arg waiting) ++ vs) (opcondAttempt s arg i p) =
          drive vs (opcondAttempt t arg (i + waiting.length) p) := by
  induction waiting with
  | nil => intro s i _ _ _ _ _; exact ⟨s, rfl, rfl⟩
  | cons a waiting ih =>
    intro s i hu hh ho hw hi
    have hsend : s.sends opSendOpCond arg 0x61 .kR3 :=
      ⟨hu, hh, ho, (classify_arg _ (by decide) arg 0 _).trans (by decide), by decide, by decide⟩
    have hf : flagsOpCond s.cfg = 0x61 := (flags_usual hu).2.1
    have hi' : i < opcondAttempts := by simp only [List.length_cons] at hi; omega
    have hn : ocrReady (word0 a.words) = false := (hw a (by simp)).2
    obtain ⟨t, rfl, ht⟩ := ih (s := ((s.says (cmdIo a s.cfg arg (rawWord s.cfg 1 .kR3 0x61) .kR3)).decodedWith a.words).emit
      (.delay opcondDelay)) (i := i + 1) hu hh rfl (fun x hx => hw x (by simp [hx]))
      (by simp only [List.length_cons] at hi; omega)
    refine ⟨_, rfl, ?_⟩
    simp only [opcondWaitIo, List.flatMap_cons, answersOf_append, List.append_assoc, answersOf_delay, answersOf_nil,
      List.nil_append]
    rw [opcondAttempt, hf]
    refine (drive_usual_succeeds hsend (hw a (by simp)).1 (by simp) _).trans ?_
    rw [commandDone, opcondNext, if_neg ha, if_neg (by rw [hn]; decide), if_pos hi']
    refine Eq.trans ht ?_
    have hlen : i + (a :: waiting).length = i + 1 + waiting.length := by simp; omega
    rw [hlen]
    congr 1
    cases waiting with
    | nil => simp [State.emit_delay, opcondDelay]
    | cons b waiting => simp [opcondWaitIo, State.emit_delay, opcondDelay]; rfl

end Sys2Proof.Machine
end

