-- ==== Sys2Proof/Laws/Transfer.lean ====
section
/-! SUPPORT. How a PIO transfer goes on with queued answers: one lemma per part, then one for a whole PIO_READ and one
for a whole PIO_WRITE, whatever called them (43_pio_transfer.md R331 to R344). -/

namespace Sys2Proof.Machine

theorem pioHead_waitFor (s : State) (w : Wait) (k' : Caller) (p : PioPos) (k : Caller) :
    pioHead (s.waitFor w k') p k = pioHead s p k := by
  simp only [pioHead, State.waitFor_rem, State.waitFor_done, State.waitFor_waitFor, State.waitFor_endOp, State.raiseErr,
    State.waitFor_seq]
  rfl

/-- The head of the inner loop with bytes left. -/
theorem pioHead_left {s : State} {p : PioPos} {k : Caller} (h : 0 < s.rem) :
    pioHead s p k = s.waitFor (.pioFifo p) k := if_pos h

/-- With no bytes left the iterations of the inner loop no longer matter. -/
theorem pioHead_inner {s : State} {d : Dir} {o i j : Nat} {k : Caller} (h : s.rem = 0) :
    pioHead s ⟨d, o, i⟩ k = pioHead s ⟨d, o, j⟩ k := by
  simp [pioHead, h]

/-- One outer iteration without an error (43_pio_transfer.md R331, R341, R344). -/
theorem drive_outer {s : State} {p : PioPos} {k : Caller} {o : OuterAnswers} (ho : o.clean) (vs : List Word) :
    drive (answersOf (outerIo s.cfg o) ++ vs) (s.waitFor (.pioRearm p) k) =
      drive vs
        (pioHead ((s.says (outerIo s.cfg o)).setDone (s.done || o.status &&& intXferCompl != 0)) p k) := by
  have h1 (s : State) : resume ⟨.pioRearm p, k⟩ o.inten (s.waitFor (.pioRearm p) k) =
      (s.says [.wr offInten (o.inten ||| xferInts)]).waitFor (.pioStatus p) k := rfl
  have h2 (s : State) : resume ⟨.pioStatus p, k⟩ o.status (s.waitFor (.pioStatus p) k) =
      pioHead (((s.waitFor (.pioStatus p) k).latchDone o.status).ackTransfer o.status) p k :=
    if_neg (not_not_intro ho)
  have ha : answersOf (outerIo s.cfg o) = [o.inten, o.status] := by
    unfold outerIo; split <;> simp
  rw [ha, List.cons_append, List.cons_append, List.nil_append, drive_wait, h1, drive_wait, h2, State.ackTransfer_eq]
  simp [State.latchDone, Wait.off, pioHead_waitFor, outerIo]

/-- Waits before a burst of PIO_READ (43_pio_transfer.md R334). -/
theorem drive_rx_waits {k : Caller} {o : Nat} (vs : List Word) (waits : List (Word × Word)) :
    ∀ {s : State} {i : Nat}, s.cfg.pollLimit = none → 64 ≤ s.rem →
      (∀ w ∈ waits, rxCnt w.1 < fifoThreshold ∧ w.2 &&& intDatTmo = 0) →
      drive (answersOf (waits.flatMap (fun w => [.rd offFifocs w.1, .rd offInt w.2])) ++ vs)
          (s.waitFor (.pioFifo ⟨.rx, o, i⟩) k) =
        drive vs ((s.says (waits.flatMap (fun w => [.rd offFifocs w.1, .rd offInt w.2]))).waitFor
          (.pioFifo ⟨.rx, o, i + waits.length⟩) k) := by
  induction waits with
  | nil => intro s i _ _ _; simp
  | cons w waits ih =>
    intro s i hl hr hw
    obtain ⟨hw1, hw2⟩ := hw w (by simp)
    have h1 (s : State) (hr : 64 ≤ s.rem) : resume ⟨.pioFifo ⟨.rx, o, i⟩, k⟩ w.1 (s.waitFor (.pioFifo ⟨.rx, o, i⟩) k) =
        s.waitFor (.pioRecheck ⟨.rx, o, i⟩) k := by
      have e1 : ¬ (s.rem ≥ fifoThreshold ∧ rxCnt w.1 ≥ fifoThreshold) := by omega
      have e2 : ¬ (s.rem < fifoThreshold ∧ rxCnt w.1 ≥ s.rem) := by unfold fifoThreshold; omega
      simp [resume, pioFifo, e1, e2]
    have h2 (s : State) (hl : s.cfg.pollLimit = none) :
        resume ⟨.pioRecheck ⟨.rx, o, i⟩, k⟩ w.2 (s.waitFor (.pioRecheck ⟨.rx, o, i⟩) k) =
        s.waitFor (.pioFifo ⟨.rx, o, i + 1⟩) k :=
      (if_neg (not_not_intro hw2)).trans (if_pos (mayPoll_of_unbounded (by exact hl) i))
    simp only [List.flatMap_cons, answersOf_rd, List.cons_append, List.nil_append]
    rw [drive_wait, h1 _ (by exact hr), drive_wait, h2 _ (by exact hl), ih (by exact hl) (by exact hr)
      (fun x hx => hw x (by simp [hx]))]
    simp [Wait.off, Nat.add_assoc, Nat.add_comm]

/-- Waits before a chunk of PIO_WRITE (43_pio_transfer.md R338). -/
theorem drive_tx_waits {k : Caller} {o : Nat} (vs : List Word) (waits : List (Word × Word)) :
    ∀ {s : State} {i : Nat}, s.cfg.pollLimit = none →
      (∀ w ∈ waits, txCnt s.cfg w.1 ≠ 0 ∧ w.2 &&& intDatTmo = 0) →
      drive (answersOf (waits.flatMap (fun w => [.rd offFifocs w.1, .rd offInt w.2])) ++ vs)
          (s.waitFor (.pioFifo ⟨.tx, o, i⟩) k) =
        drive vs ((s.says (waits.flatMap (fun w => [.rd offFifocs w.1, .rd offInt w.2]))).waitFor
          (.pioFifo ⟨.tx, o, i + waits.length⟩) k) := by
  induction waits with
  | nil => intro s i _ _; simp
  | cons w waits ih =>
    intro s i hl hw
    obtain ⟨hw1, hw2⟩ := hw w (by simp)
    have h1 (s : State) (hw1 : txCnt s.cfg w.1 ≠ 0) :
        resume ⟨.pioFifo ⟨.tx, o, i⟩, k⟩ w.1 (s.waitFor (.pioFifo ⟨.tx, o, i⟩) k) =
        s.waitFor (.pioRecheck ⟨.tx, o, i⟩) k := if_neg hw1
    have h2 (s : State) (hl : s.cfg.pollLimit = none) :
        resume ⟨.pioRecheck ⟨.tx, o, i⟩, k⟩ w.2 (s.waitFor (.pioRecheck ⟨.tx, o, i⟩) k) =
        s.waitFor (.pioFifo ⟨.tx, o, i + 1⟩) k :=
      (if_neg (not_not_intro hw2)).trans (if_pos (mayPoll_of_unbounded (by exact hl) i))
    simp only [List.flatMap_cons, answersOf_rd, List.cons_append, List.nil_append]
    rw [drive_wait, h1 _ (by exact hw1), drive_wait, h2 _ (by exact hl), ih (by exact hl)
      (by exact fun x hx => hw x (by simp [hx]))]
    simp [Wait.off, Nat.add_assoc, Nat.add_comm]

/-- The data reads of a burst (43_pio_transfer.md R336). -/
theorem drive_drain {k : Caller} {p : PioPos} (vs : List Word) (ws : List Word) :
    ∀ {s : State} {w : Word}, s.rem ≤ blksz → 4 * (ws.length + 1) ≤ s.rem →
      drive (w :: ws ++ vs) (s.waitFor (.pioDrain p (ws.length + 1)) k) =
        drive vs
          (pioHead
            (((s.says ((w :: ws).map (Io.rd offRxdata))).setBuf (setWords s.buf (blksz - s.rem) (w :: ws))).setRem
              (s.rem - 4 * (ws.length + 1))) p k) := by
  induction ws with
  | nil =>
    intro s w _ _
    have h1 (s : State) : resume ⟨.pioDrain p 1, k⟩ w (s.waitFor (.pioDrain p 1) k) =
        pioHead ((s.waitFor (.pioDrain p 1) k).storeWord w) p k := by
      simp [resume, pioDrain]
    rw [List.cons_append, List.nil_append, List.length_nil, Nat.zero_add, drive_wait, h1]
    simp [State.storeWord, pioHead_waitFor, setWords, Wait.off]
  | cons w' ws ih =>
    intro s w hb hr
    simp only [List.length_cons] at hr
    have h1 (s : State) : resume ⟨.pioDrain p (ws.length + 1 + 1), k⟩ w (s.waitFor (.pioDrain p (ws.length + 1 + 1)) k) =
        ((s.waitFor (.pioDrain p (ws.length + 1 + 1)) k).storeWord w).waitFor (.pioDrain p (ws.length + 1)) k := by
      simp [resume, pioDrain]
    rw [List.cons_append, List.length_cons, drive_wait, h1, State.storeWord]
    have hr' : (State.says s [Io.rd (Wait.pioDrain p (ws.length + 1 + 1)).off w]).rem = s.rem := rfl
    rw [State.waitFor_setBuf, State.waitFor_setRem, State.waitFor_waitFor,
      ih (s := _) (by show s.rem - 4 ≤ blksz; omega) (by show 4 * (ws.length + 1) ≤ s.rem - 4; omega)]
    simp only [State.setRem_rem, State.setRem_buf, State.setBuf_buf, State.waitFor_rem, State.waitFor_buf, State.says_rem, State.says_buf]
    have e1 : blksz - (s.rem - 4) = blksz - s.rem + 4 := by omega
    have e2 : s.rem - 4 - 4 * (ws.length + 1) = s.rem - 4 * (ws.length + 1 + 1) := by omega
    rw [e1, e2]
    simp [setWords, Wait.off]

/-- One burst of PIO_READ. -/
theorem drive_rx_burst {s : State} {k : Caller} {o i : Nat} {b : BurstAnswers} (hl : s.cfg.pollLimit = none)
    (hb : b.rx) (h512 : s.rem ≤ blksz) (hr : 64 ≤ s.rem) (vs : List Word) :
    drive (answersOf (rxBurstIo b) ++ vs) (pioHead s ⟨.rx, o, i⟩ k) =
      drive vs
        (pioHead (((s.says (rxBurstIo b)).setBuf (setWords s.buf (blksz - s.rem) b.words)).setRem (s.rem - 64))
          ⟨.rx, o, 0⟩ k) := by
  obtain ⟨hw, hf, hn⟩ := hb
  obtain ⟨w, ws, hws⟩ : ∃ w ws, b.words = w :: ws := by
    cases h : b.words with
    | nil => simp [h] at hn
    | cons w ws => exact ⟨w, ws, rfl⟩
  have hlen : ws.length + 1 = 16 := by simpa [hws] using hn
  have h1 (s : State) (j : Nat) (hr : 64 ≤ s.rem) :
      resume ⟨.pioFifo ⟨.rx, o, j⟩, k⟩ b.fifo (s.waitFor (.pioFifo ⟨.rx, o, j⟩) k) =
      s.waitFor (.pioDrain ⟨.rx, o, 0⟩ 16) k := if_pos ⟨hr, hf⟩
  have hdrain := drive_drain (k := k) (p := ⟨.rx, o, 0⟩) vs ws
    (s := s.says (waitsIo b ++ [.rd offFifocs b.fifo])) (w := w) h512 (by rw [hlen]; exact hr)
  rw [hlen] at hdrain
  have ha : answersOf (rxBurstIo b) ++ vs =
      answersOf (waitsIo b) ++ b.fifo :: (w :: ws ++ vs) := by
    simp [rxBurstIo, hws]
  rw [ha, pioHead_left (by omega), waitsIo, drive_rx_waits _ _ hl hr hw, drive_wait, h1 _ _ (by exact hr)]
  simp only [State.says_says]
  rw [show (State.says s (b.waits.flatMap (fun w => [Io.rd offFifocs w.1, .rd offInt w.2]) ++
      [Io.rd (Wait.pioFifo ⟨.rx, o, i + b.waits.length⟩).off b.fifo])) = s.says (waitsIo b ++ [.rd offFifocs b.fifo]) from rfl,
    hdrain]
  simp [rxBurstIo, hws]

/-- The bursts of a PIO_READ from any point on. -/
theorem drive_rx_bursts {k : Caller} {o : Nat} (vs : List Word) (bs : List BurstAnswers) :
    ∀ {s : State} {i : Nat}, s.cfg.pollLimit = none → (∀ b ∈ bs, b.rx) → s.rem ≤ blksz → s.rem = 64 * bs.length →
      drive (answersOf (bs.flatMap rxBurstIo) ++ vs) (pioHead s ⟨.rx, o, i⟩ k) =
        drive vs
          (pioHead
            (((s.says (bs.flatMap rxBurstIo)).setBuf
              (setWords s.buf (blksz - s.rem) (bs.flatMap BurstAnswers.words))).setRem 0) ⟨.rx, o, 0⟩ k) := by
  induction bs with
  | nil =>
    intro s i _ _ _ hr
    have h0 : s.rem = 0 := by simpa using hr
    have e : (((s.says []).setBuf s.buf).setRem 0) = s := by simp [State.setBuf, State.setRem, ← h0]
    simp only [List.flatMap_nil, answersOf_nil, List.nil_append, setWords]
    rw [e, pioHead_inner h0]
  | cons b bs ih =>
    intro s i hl hb h512 hr
    simp only [List.length_cons] at hr
    have hn : b.words.length = 16 := (hb b (by simp)).2.2
    rw [List.flatMap_cons, answersOf_append, List.append_assoc, drive_rx_burst hl (hb b (by simp)) h512 (by omega),
      ih (by exact hl) (fun x hx => hb x (by simp [hx])) (by show s.rem - 64 ≤ blksz; omega)
        (by show s.rem - 64 = 64 * bs.length; omega)]
    simp only [State.setRem_rem, State.setRem_buf, State.setBuf_buf]
    rw [List.flatMap_cons, setWords_append, hn, show blksz - (s.rem - 64) = blksz - s.rem + 4 * 16 by omega]
    simp

/-- The writes of a chunk (43_pio_transfer.md R339). -/
theorem pioPush_eq (k : Nat) : ∀ {s : State}, s.rem ≤ blksz → 4 * k ≤ s.rem →
    pioPush k s = (s.says (chunkIo s.buf k (blksz - s.rem))).setRem (s.rem - 4 * k) := by
  induction k with
  | zero => intro s _ _; simp [pioPush, chunkIo, State.setRem]
  | succ k ih =>
    intro s h512 h
    rw [pioPush, ih (by show s.rem - 4 ≤ blksz; omega) (by show 4 * k ≤ s.rem - 4; omega)]
    simp only [State.setRem_rem, State.setRem_buf, State.writeReg_eq, State.says_buf, chunkIo]
    rw [show blksz - (s.rem - 4) = blksz - s.rem + 4 by omega, show s.rem - 4 - 4 * k = s.rem - 4 * (k + 1) by omega]
    simp

/-- One chunk of PIO_WRITE. -/
theorem drive_tx_chunk {s : State} {k : Caller} {o i : Nat} {b : BurstAnswers} (hl : s.cfg.pollLimit = none)
    (hb : b.tx s.cfg) (h512 : s.rem ≤ blksz) (hr : 128 ≤ s.rem) (vs : List Word) :
    drive (answersOf (waitsIo b ++ [.rd offFifocs b.fifo]) ++ vs) (pioHead s ⟨.tx, o, i⟩ k) =
      drive vs
        (pioHead ((s.says (waitsIo b ++ [.rd offFifocs b.fifo] ++ chunkIo s.buf 32 (blksz - s.rem))).setRem (s.rem - 128))
          ⟨.tx, o, 0⟩ k) := by
  obtain ⟨hw, hf, hn⟩ := hb
  have h1 (s : State) (j : Nat) (hf : txCnt s.cfg b.fifo = 0) :
      resume ⟨.pioFifo ⟨.tx, o, j⟩, k⟩ b.fifo (s.waitFor (.pioFifo ⟨.tx, o, j⟩) k) =
      pioHead (pioPush (min fifoSize s.rem / 4) (s.waitFor (.pioFifo ⟨.tx, o, j⟩) k)) ⟨.tx, o, 0⟩ k := if_pos hf
  have h32 : min fifoSize s.rem / 4 = 32 := by unfold fifoSize; omega
  rw [answersOf_append, List.append_assoc, pioHead_left (by omega), waitsIo, drive_tx_waits _ _ hl hw, answersOf_rd,
    answersOf_nil, List.cons_append, List.nil_append, drive_wait, h1 _ _ (by exact hf)]
  simp only [State.says_rem, h32]
  rw [pioPush_eq 32 (by exact h512) (by show 4 * 32 ≤ s.rem; omega)]
  simp [pioHead_waitFor, Wait.off]

/-- The answers of a chunk's writes: none. -/
@[simp] theorem answersOf_chunkIo (d : List Byte) (k : Nat) : ∀ off, answersOf (chunkIo d k off) = [] := by
  induction k with
  | zero => intro off; rfl
  | succ k ih => intro off; simp [chunkIo, ih]

/-- The chunks of a PIO_WRITE from any point on. -/
theorem drive_tx_chunks {k : Caller} {o : Nat} (vs : List Word) (bs : List BurstAnswers) :
    ∀ {s : State} {i : Nat}, s.cfg.pollLimit = none → (∀ b ∈ bs, b.tx s.cfg) → s.rem ≤ blksz →
      s.rem = 128 * bs.length →
      drive (answersOf (txChunksIo s.buf bs (blksz - s.rem)) ++ vs) (pioHead s ⟨.tx, o, i⟩ k) =
        drive vs (pioHead ((s.says (txChunksIo s.buf bs (blksz - s.rem))).setRem 0) ⟨.tx, o, 0⟩ k) := by
  induction bs with
  | nil =>
    intro s i _ _ _ hr
    have h0 : s.rem = 0 := by simpa using hr
    have e : (s.says []).setRem 0 = s := by simp [State.setRem, ← h0]
    simp only [txChunksIo, answersOf_nil, List.nil_append]
    rw [e, pioHead_inner h0]
  | cons b bs ih =>
    intro s i hl hb h512 hr
    simp only [List.length_cons] at hr
    have ih' := ih (s := (s.says (waitsIo b ++ [.rd offFifocs b.fifo] ++ chunkIo s.buf 32 (blksz - s.rem))).setRem
      (s.rem - 128)) (i := 0) (by simp only [State.setRem_cfg, State.says_cfg]; exact hl)
      (by simp only [State.setRem_cfg, State.says_cfg]; exact fun x hx => hb x (by simp [hx]))
      (by rw [State.setRem_rem]; omega) (by rw [State.setRem_rem]; omega)
    simp only [State.setRem_rem, State.setRem_buf, State.says_buf,
      show blksz - (s.rem - 128) = blksz - s.rem + 128 by omega] at ih'
    have ha : answersOf (txChunksIo s.buf (b :: bs) (blksz - s.rem)) ++ vs =
        answersOf (waitsIo b ++ [.rd offFifocs b.fifo]) ++ (answersOf (txChunksIo s.buf bs (blksz - s.rem + 128)) ++ vs) := by
      simp [txChunksIo]
    rw [ha, drive_tx_chunk hl (hb b (by simp)) h512 (by omega), ih']
    simp [txChunksIo]

/-- The outer iterations after the data, up to the one that shows transfer-complete (43_pio_transfer.md R335). -/
theorem drive_later {k : Caller} {d : Dir} {last : OuterAnswers} (hc : last.clean) (hd : last.complete) (vs : List Word)
    (more : List OuterAnswers) :
    ∀ {s : State} {o i : Nat}, s.cfg.pollLimit = none → s.rem = 0 → s.done = false → (∀ x ∈ more, x.clean ∧ ¬x.complete) →
      drive (answersOf ((more ++ [last]).flatMap (outerIo s.cfg)) ++ vs) (pioHead s ⟨d, o, i⟩ k) =
        drive vs
          ((((s.says ((more ++ [last]).flatMap (outerIo s.cfg))).setDone true)).endOp (.ok (pioValue s d))) := by
  have hh {s : State} {o i : Nat} (hl : s.cfg.pollLimit = none) (hr : s.rem = 0) (hn : s.done = false) :
      pioHead s ⟨d, o, i⟩ k = s.waitFor (.pioRearm ⟨d, o + 1, 0⟩) k := by
    simp [pioHead, hr, hn, mayPoll_of_unbounded hl]
  have hv (s t : State) (h : s.buf = t.buf) : pioValue s d = pioValue t d := by cases d <;> simp [pioValue, h]
  induction more with
  | nil =>
    intro s o i hl hr hn _
    have hd' : (last.status &&& intXferCompl != 0) = true := by simpa [OuterAnswers.complete] using hd
    rw [hh hl hr hn]
    simp only [List.nil_append, List.flatMap_cons, List.flatMap_nil, List.append_nil]
    rw [drive_outer hc, hd', Bool.or_true]
    congr 1
    simp only [pioHead, State.setDone_rem, State.says_rem, hr, State.setDone_done]
    rw [if_neg (by omega), if_pos trivial]
    exact congrArg (fun v => State.endOp _ (.ok v)) (hv _ _ rfl)
  | cons m more ih =>
    intro s o i hl hr hn hm
    obtain ⟨hmc, hmd⟩ := hm m (by simp)
    have hd' : (m.status &&& intXferCompl != 0) = false := by simpa [OuterAnswers.complete] using hmd
    rw [hh hl hr hn]
    simp only [List.cons_append, List.flatMap_cons, answersOf_append, List.append_assoc]
    have ih' := ih (s := (s.says (outerIo s.cfg m)).setDone (s.done || m.status &&& intXferCompl != 0)) (o := o + 1) (i := 0)
      hl hr (by show (s.done || _) = false; rw [hn, hd']; rfl) (fun x hx => hm x (by simp [hx]))
    simp only [State.setDone_cfg, State.says_cfg] at ih'
    rw [drive_outer hmc, ih', hv ((s.says (outerIo s.cfg m)).setDone _) s rfl]
    simp

/-- From the end of the data on, with the first status latched. -/
theorem drive_completes {s : State} {k : Caller} {d : Dir} {o i : Nat} {a : PioAnswers} (hl : s.cfg.pollLimit = none)
    (ha : a.completes) (hr : s.rem = 0) (hd : s.done = (a.first.status &&& intXferCompl != 0)) (vs : List Word) :
    drive (answersOf (a.later.flatMap (outerIo s.cfg)) ++ vs) (pioHead s ⟨d, o, i⟩ k) =
      drive vs (((s.says (a.later.flatMap (outerIo s.cfg))).setDone true).endOp (.ok (pioValue s d))) := by
  obtain ⟨-, hc, ⟨h1, h2⟩ | ⟨h1, more, last, h2, h3, h4⟩⟩ := ha
  · have hd' : s.done = true := by simpa [OuterAnswers.complete, hd] using h1
    have e : (s.says []).setDone true = s := by simp [State.setDone, ← hd']
    rw [h2, List.flatMap_nil, answersOf_nil, List.nil_append, e]
    simp [pioHead, hr, hd']
  · have hd' : s.done = false := by simpa [OuterAnswers.complete, hd] using h1
    rw [h2] at hc ⊢
    exact drive_later (hc last (by simp)) h4 vs more hl hr hd' (fun x hx => ⟨hc x (by simp [hx]), h3 x hx⟩)

/-- The start of a transfer up to the data (43_pio_transfer.md R331, R337). -/
theorem drive_pio_begin {s : State} {k : Caller} {d : Dir} {a : PioAnswers} (ha : a.first.clean) (vs : List Word) :
    drive (answersOf (clearIo a ++ outerIo s.cfg a.first) ++ vs) (pioStart s d k) =
      drive vs
        (pioHead (((s.says (clearIo a ++ outerIo s.cfg a.first)).setRem blksz).setDone
          (a.first.status &&& intXferCompl != 0)) ⟨d, 0, 0⟩ k) := by
  have h1 (s : State) : resume ⟨.pioClear d, k⟩ a.clear (s.waitFor (.pioClear d) k) =
      (((s.says [.wr offInten (a.clear &&& ~~~xferInts)]).setRem blksz).setDone false).waitFor (.pioRearm ⟨d, 0, 0⟩) k := rfl
  simp only [clearIo, answersOf_rd, answersOf_wr, List.cons_append, List.nil_append, pioStart]
  rw [drive_wait, h1]
  have h2 := drive_outer (s := (((s.says [Io.rd (Wait.pioClear d).off a.clear]).says
    [.wr offInten (a.clear &&& ~~~xferInts)]).setRem blksz).setDone false) (p := ⟨d, 0, 0⟩) (k := k) ha vs
  simp only [State.setDone_cfg, State.setRem_cfg, State.says_cfg] at h2
  rw [h2]
  simp [Wait.off]

/-- A whole PIO_READ that succeeds, whatever called it: the words read, least significant byte first, are BUF and the
result (43_pio_transfer.md R331 to R336, R342). -/
theorem drive_pio_read {s : State} {k : Caller} {a : PioAnswers} (hl : s.cfg.pollLimit = none)
    (hb : s.buf.length = blksz) (ha : a.readsBlock) (vs : List Word) :
    drive (answersOf (pioReadIo s.cfg a) ++ vs) (pioStart s .rx k) =
      drive vs
        (((((s.says (pioReadIo s.cfg a)).setBuf (pioReadBlock a)).setRem 0).setDone true).endOp
          (.ok (.block (pioReadBlock a)))) := by
  obtain ⟨hc, hn, hr⟩ := ha
  have hw : ∀ bs : List BurstAnswers, (∀ b ∈ bs, b.rx) → (bs.flatMap BurstAnswers.words).length = 16 * bs.length := by
    intro bs
    induction bs with
    | nil => intro _; rfl
    | cons b bs ih =>
      intro h
      rw [List.flatMap_cons, List.length_append, ih (fun x hx => h x (by simp [hx])), (h b (by simp)).2.2, List.length_cons]
      omega
  have hblk : setWords s.buf 0 (a.bursts.flatMap BurstAnswers.words) = pioReadBlock a := by
    rw [setWords_block _ _ (by rw [hw _ hr, hn, hb]; rfl), List.flatMap_assoc]
    rfl
  simp only [pioReadIo, answersOf_append, List.append_assoc]
  rw [← List.append_assoc, ← answersOf_append, drive_pio_begin hc.1,
    drive_rx_bursts _ _ (by exact hl) hr (by exact Nat.le_refl _) (by rw [hn]; rfl)]
  simp only [State.setDone_rem, State.setRem_rem, State.setDone_buf, State.setRem_buf, State.says_buf, Nat.sub_self, hblk]
  have h3 := drive_completes (s := ((((s.says (clearIo a ++ outerIo s.cfg a.first)).setRem blksz).setDone
    (a.first.status &&& intXferCompl != 0)).says (a.bursts.flatMap rxBurstIo)).setBuf (pioReadBlock a) |>.setRem 0)
    (k := k) (d := .rx) (o := 0) (i := 0) hl hc rfl rfl vs
  simp only [State.setDone_cfg, State.setRem_cfg, State.says_cfg, State.setBuf_cfg] at h3
  rw [h3]
  simp [pioValue]

/-- A whole PIO_WRITE that succeeds, whatever called it (43_pio_transfer.md R337 to R340, R342). -/
theorem drive_pio_write {s : State} {k : Caller} {a : PioAnswers} (hl : s.cfg.pollLimit = none)
    (ha : a.writesBlock s.cfg) (vs : List Word) :
    drive (answersOf (pioWriteIo s.cfg a s.buf) ++ vs) (pioStart s .tx k) =
      drive vs ((((s.says (pioWriteIo s.cfg a s.buf)).setRem 0).setDone true).endOp (.ok .unit)) := by
  obtain ⟨hc, hn, hr⟩ := ha
  simp only [pioWriteIo, answersOf_append, List.append_assoc]
  rw [← List.append_assoc, ← answersOf_append, drive_pio_begin hc.1]
  have h2 := drive_tx_chunks (answersOf (a.later.flatMap (outerIo s.cfg)) ++ vs) a.bursts
    (s := ((s.says (clearIo a ++ outerIo s.cfg a.first)).setRem blksz).setDone (a.first.status &&& intXferCompl != 0))
    (k := k) (o := 0) (i := 0) hl hr (Nat.le_refl _) (by rw [hn]; rfl)
  simp only [State.setDone_rem, State.setRem_rem, State.setDone_buf, State.setRem_buf, State.says_buf, Nat.sub_self] at h2
  rw [h2]
  have h3 := drive_completes (s := ((((s.says (clearIo a ++ outerIo s.cfg a.first)).setRem blksz).setDone
    (a.first.status &&& intXferCompl != 0)).says (txChunksIo s.buf a.bursts 0)).setRem 0)
    (k := k) (d := .tx) (o := 0) (i := 0) hl hc rfl rfl vs
  simp only [State.setDone_cfg, State.setRem_cfg, State.says_cfg] at h3
  rw [h3]
  simp [pioValue]

end Sys2Proof.Machine
end

