-- ==== Sys2Proof/Tests/Slice0.lean ====
section
/-! SUPPORT. Tests: the checks of WellFormed on ill-formed terms, the decoding of every constructor from a word written
out by hand, small runs from the vectors of 95_test_vectors.md, and for every statement's hypotheses a concrete state
that meets them. Expected values come from the spec's file named beside each group, none from the model. -/

namespace Sys2Proof.Tests

open Sys2Proof Sys2Proof.Machine

/-! ## Helpers -/

/-- The state after an operation, if it answers one. -/
def next (i : Instr) (s : State) : Option State :=
  match exec i s with
  | .next t => some t
  | .fault _ => none
  | .refused _ => none

/-- The state after reset with answers queued. -/
def queued (env : List Word) : State := { State.reset with env := env }

/-- The outcome and the events of an operation. -/
def seen (i : Instr) (s : State) : Option (Option OpResult × List Event) := (next i s).map (fun t => (t.result, t.trace))

/-- The reset state with the last command ended well. -/
def decoded (env : List Word) : State := { queued env with fsm := .decoded }

/-- The reset state with a session. -/
def session : Session := ⟨1, ⟨0x11111111, 0x22222222, 0x33333333, 0x44444444⟩, none, 0x00780000, 0x80FF8000⟩
def selected (env : List Word) : State := { queued env with session := some session }

/-- The reset state with a command submitted. -/
def submitted (c : Command) (env : List Word) : State := { queued env with fsm := .submitting, inflight := some c }
def status : Command := ⟨13, 0x00010000, 0x15, .kR1⟩

/-! ## WellFormed refuses ill-formed terms -/

/-- argument 0 is DESELECT_CARD's -/
theorem test_wf_select_card_zero : (Instr.selectCard 0 0x1D).wellFormed = false := by decide
theorem test_wf_select_card : (Instr.selectCard 1 0x1D).wellFormed = true := by decide
/-- an opcode with a rule of its own -/
theorem test_wf_generic_ruled : (Instr.generic 17 0 0x35).wellFormed = false := by decide
theorem test_wf_generic_multiblock : (Instr.generic 18 0 0x35).wellFormed = false := by decide
theorem test_wf_generic : (Instr.generic 63 0 0).wellFormed = true := by decide
/-- B20: no kind -/
theorem test_wf_flags_shape : (Instr.readSingleBlock 0 0x05).wellFormed = false := by decide
/-- B24: a bit no flag has -/
theorem test_wf_flags_bit7 : (Instr.readSingleBlock 0 0x95).wellFormed = false := by decide
/-- B22: the shape bits are not read -/
theorem test_wf_special_shape : (Instr.sendOpCond 0 0x05).wellFormed = true := by decide
/-- a block has 512 bytes -/
theorem test_wf_write_length : (Instr.pioWrite (List.replicate 511 0)).wellFormed = false := by simp only [Instr.wellFormed, List.length_replicate]; decide
theorem test_wf_write_op_length : (Instr.writeBlockOp 0 []).wellFormed = false := by decide
theorem test_wf_config_default : defaultConfig.wellFormed = true := by decide
/-- inside OPC -/
theorem test_wf_config_data_present : ({ defaultConfig with cmdDataPresent := 0x1 } : Config).wellFormed = false := by decide
/-- the patch bits are apart -/
theorem test_wf_config_overlap : ({ defaultConfig with cmdWrite := 0x800 } : Config).wellFormed = false := by decide
/-- one bit -/
theorem test_wf_config_stop : ({ defaultConfig with cmdStop := 0x6000 } : Config).wellFormed = false := by decide
theorem test_wf_config_blklen : ({ defaultConfig with cmdBlklenMask := 0 } : Config).wellFormed = false := by decide
theorem test_wf_config_busy : ({ defaultConfig with stsSdcBusy := 0 } : Config).wellFormed = false := by decide
theorem test_wf_config_cmd_busy : ({ defaultConfig with stsCmdBusy := 3 } : Config).wellFormed = false := by decide
/-- CFG_ENABLE and CFG_MODE are apart -/
theorem test_wf_config_cfg : ({ defaultConfig with cfgMode := 1 } : Config).wellFormed = false := by decide
theorem test_wf_config_txcnt : ({ defaultConfig with txcntLsb := 8 } : Config).wellFormed = false := by decide
theorem test_wf_config_acmd : ({ defaultConfig with acmdDoneBit := 8 } : Config).wellFormed = false := by decide
theorem test_wf_config_switch_error : ({ defaultConfig with r1SwitchError := 0x180 } : Config).wellFormed = false := by decide

/-! ## Decoding: one word written out for each row

The fields are OPC = bits 5:0, RSPTYP = bits 9:7, the data-present bit 11, the write bit 13, the stop bit 14 and BLKLEN from
bit 16 (30_encoding.md R201); the words are those of 95_test_vectors.md 2.3. A command request is its word, arg, flags. -/

/-- A command request of three words. -/
def command (raw arg flags : Word) : Request := ⟨.command, bytesOfWord raw ++ bytesOfWord arg ++ bytesOfWord flags⟩

theorem test_decode_go_idle_state : decode (command 0x02000000 0 0x40) = .ok (.goIdleState 0 0x40) := by decide
theorem test_decode_send_op_cond : decode (command 0x02000181 0x40180000 0x61) = .ok (.sendOpCond 0x40180000 0x61) := by decide
theorem test_decode_all_send_cid : decode (command 0x02000102 0 0x67) = .ok (.allSendCid 0 0x67) := by decide
theorem test_decode_set_relative_addr : decode (command 0x02000083 0x00010000 0x15) = .ok (.setRelativeAddr 0x00010000 0x15) := by decide
theorem test_decode_switch : decode (command 0x02000386 0x03B34900 0x1D) = .ok (.switchFunc 0x03B34900 0x1D) := by decide
theorem test_decode_switch_adtc : decode (command 0x02000886 0 0x35) = .ok (.switchFunc 0 0x35) := by decide
theorem test_decode_select_card : decode (command 0x02000387 0x00010000 0x1D) = .ok (.selectCard 0x00010000 0x1D) := by decide
theorem test_decode_deselect_card : decode (command 0x02000007 0 0x1D) = .ok (.deselectCard 0x1D) := by decide
theorem test_decode_send_ext_csd : decode (command 0x02000888 0 0x35) = .ok (.sendExtCsd 0 0x35) := by decide
theorem test_decode_stop_transmission : decode (command 0x0000438C 0 0x1D) = .ok (.stopTransmission 0 0x1D) := by decide
theorem test_decode_send_status : decode (command 0x0200008D 0x00010000 0x15) = .ok (.sendStatus 0x00010000 0x15) := by decide
theorem test_decode_set_blocklen : decode (command 0x02000090 512 0x15) = .ok (.setBlocklen 512 0x15) := by decide
theorem test_decode_read_single_block : decode (command 0x02000891 0x1000 0x35) = .ok (.readSingleBlock 0x1000 0x35) := by decide
theorem test_decode_send_tuning_block : decode (command 0x02000093 0 0x35) = .ok (.sendTuningBlock 0 0x35) := by decide
theorem test_decode_send_tuning_block_hs200 : decode (command 0x02000095 0 0x35) = .ok (.sendTuningBlockHs200 0 0x35) := by decide
theorem test_decode_write_block : decode (command 0x02002898 0x1000 0x35) = .ok (.writeBlock 0x1000 0x35) := by decide
theorem test_decode_fast_io : decode (command 0x02000227 0 0x15) = .ok (.fastIo 0 0x15) := by decide
theorem test_decode_go_irq_state : decode (command 0x020000A8 0 0x55) = .ok (.goIrqState 0 0x55) := by decide
theorem test_decode_sd_app_op_cond : decode (command 0x020001A9 0 0x61) = .ok (.sdAppOpCond 0 0x61) := by decide
theorem test_decode_app_cmd : decode (command 0x020000B7 0x00010000 0x15) = .ok (.appCmd 0x00010000 0x15) := by decide
theorem test_decode_generic : decode (command 0x02000109 0x00010000 0x07) = .ok (.generic 9 0x00010000 0x07) := by decide
theorem test_decode_generic_63 : decode (command 0x0200003F 0 0) = .ok (.generic 63 0 0) := by decide
theorem test_decode_read_multiple_block : decode (command 0x00000012 0 0x35) = .ok (.readMultipleBlock 0 0x35) := by decide
theorem test_decode_write_multiple_block : decode (command 0x00000019 0 0x35) = .ok (.writeMultipleBlock 0 0x35) := by decide

/-- Words that no row has: BLKLEN 0, bit 6 set, the data-present bit on opcode 13. -/
theorem test_decode_no_row : [0x00000181, 0x020001C1, 0x0200088D].map (fun raw => decode (command raw 0 0x61)) =
    [.error .noRow, .error .noRow, .error .noRow] := by decide
/-- Opcode 12 without its stop bit is no generic command. -/
theorem test_decode_no_stop : decode (command 0x0200038C 0 0x1D) = .error .badOperands := by decide
/-- RSPTYP says R3, the flags say R1 (30_encoding.md R205): no encode_command gives the three together. -/
theorem test_decode_other_kind : decode (command 0x0200018D 0 0x15) = .error .badOperands := by decide
theorem test_decode_truncated : decode ⟨.command, [0x81, 0x01, 0x00]⟩ = .error .truncated := by decide

/-! The tags of 30_encoding.md R224. -/

/-- A host operation's request. -/
def operation (tag : Byte) (operands : List Word) : Request := ⟨.hostOp, tag :: operands.flatMap bytesOfWord⟩

theorem test_decode_reg_read : decode (operation 0x01 [0x0C]) = .ok (.regRead 0x0C) := by decide
theorem test_decode_reg_write : decode (operation 0x02 [0x38, 7]) = .ok (.regWrite 0x38 7) := by decide
theorem test_decode_reg_set_bits : decode (operation 0x03 [0, 1]) = .ok (.regSetBits 0 1) := by decide
theorem test_decode_reg_clear_bits : decode (operation 0x04 [0x10, 0xD000]) = .ok (.regClearBits 0x10 0xD000) := by decide
theorem test_decode_classify : decode (operation 0x10 [17, 1, 0x35]) = .ok (.classify 17 1 0x35) := by decide
theorem test_decode_encode : decode (operation 0x11 [17, 1, 1, 0x35]) = .ok (.encode 17 1 .kR1 0x35) := by decide
theorem test_decode_submit : decode (operation 0x20 [13, 1, 0x15]) = .ok (.submit 13 1 0x15) := by decide
theorem test_decode_await : decode (operation 0x21 []) = .ok (.await) := by decide
theorem test_decode_cmd : decode (operation 0x22 [13, 1, 0x15]) = .ok (.cmd 13 1 0x15) := by decide
theorem test_decode_pio_read : decode (operation 0x30 []) = .ok (.pioRead) := by decide
theorem test_decode_bringup : decode (operation 0x40 []) = .ok (.bringup) := by decide
theorem test_decode_opcond_loop : decode (operation 0x41 [5]) = .ok (.opcondLoop 5) := by decide
theorem test_decode_ffs : decode (operation 0x42 [4]) = .ok (.ffs 4) := by decide
theorem test_decode_select_window : decode (operation 0x43 [4]) = .ok (.selectWindow 4) := by decide
theorem test_decode_switch_part : decode (operation 0x44 [1]) = .ok (.switchPart 1) := by decide
theorem test_decode_read_block : decode (operation 0x45 [0x1000]) = .ok (.readBlock 0x1000) := by decide
theorem test_decode_construct : decode (operation 0x50 [0x11230000]) = .ok (.construct 0x11230000) := by decide
theorem test_decode_reset_hook : decode (operation 0x51 []) = .ok (.resetHook) := by decide
theorem test_decode_device_reset : decode (operation 0x52 []) = .ok (.deviceReset) := by decide
theorem test_decode_pio_write :
    decode ⟨.hostOp, 0x31 :: List.replicate 512 7⟩ = .ok (.pioWrite (List.replicate 512 7)) := by
  have h : takeBlock (List.replicate 512 7) = some (List.replicate 512 7) := takeBlock_self List.length_replicate
  generalize List.replicate 512 (7 : Byte) = d at h
  simp [decode, decodeHostOp, h]
theorem test_decode_write_block_op :
    decode ⟨.hostOp, 0x46 :: (bytesOfWord 0x1000 ++ List.replicate 512 7)⟩ =
      .ok (.writeBlockOp 0x1000 (List.replicate 512 7)) := by
  have h : takeBlock (List.replicate 512 7) = some (List.replicate 512 7) := takeBlock_self List.length_replicate
  generalize List.replicate 512 (7 : Byte) = d at h
  simp [decode, decodeHostOp, h]
theorem test_decode_bad_kind : decode (operation 0x11 [17, 1, 9, 0x35]) = .error .badKind := by decide
theorem test_decode_bad_tag : decode (operation 0x05 []) = .error .badTag := by decide

/-! ## Steps -/

/-- A request placed by withFetchWord is what the next step runs: FFS 0, and the multi-block opcode. -/
theorem test_fetch_ffs :
    step (State.reset.withFetchWord 8 0x42) = .next { State.reset with result := some (.ok (.index 0)) } := rfl
theorem test_fetch_multi_block :
    step (State.reset.withFetchWord 8 0x12) =
      .next { State.reset with halted := true, result := some (.fatal 18) } := rfl
theorem test_fetch_bad_tag : step (State.reset.withFetchWord 8 0x05) = .fault (.undecodable .badTag) := rfl

/-! ## Runs: 95_test_vectors.md 2.1 to 2.7 -/

theorem test_A1 : seen (.regRead 0x0C) (queued [0x100]) =
    some (some (.ok (.word 0x100)), [.rd 0x1123000C 0x100]) := by decide
theorem test_A2 : seen (.regWrite 0x38 0x00010000) (queued []) =
    some (some (.ok .unit), [.wr 0x11230038 0x00010000]) := by decide
theorem test_A4 : seen (.regSetBits 0x00 1) (queued [1]) =
    some (some (.ok .unit), [.rd 0x11230000 1, .wr 0x11230000 1]) := by decide
theorem test_A5 : seen (.regClearBits 0x10 0x00010700) (queued [0xFFFFFFFF]) =
    some (some (.ok .unit), [.rd 0x11230010 0xFFFFFFFF, .wr 0x11230010 0xFFFEF8FF]) := by decide
theorem test_A8 : seen (.regRead 0x100) (queued [1]) = some (some (.refused .badRegister), []) := by decide

theorem test_B2_B5_B20_B23 :
    [seen (.classify 1 0 0x15) State.reset, seen (.classify 3 0x00010000 0x75) State.reset,
     seen (.classify 17 0 0x05) State.reset, seen (.classify 64 0 0) State.reset] =
    [some (some (.ok (.kind .kR3)), []), some (some (.ok (.kind .kR6)), []),
     some (some (.refused .sequencing), []), some (some (.refused .badOpcode), [])] := by decide

theorem test_C12_C14_C22 :
    [seen (.encode 8 0 .kR1 0x75) State.reset, seen (.encode 12 0 .kR1B 0x1D) State.reset,
     seen (.encode 24 0 .kR1 0x35) State.reset] =
    [some (some (.ok (.word 0x02000088)), []), some (some (.ok (.word 0x0000438C)), []),
     some (some (.ok (.word 0x02002898)), [])] := by decide
theorem test_C28 : next (.encode 18 0 .kR1 0x35) State.reset =
    some { State.reset with halted := true, result := some (.fatal 18) } := rfl
theorem test_C30 : seen (.encode 17 0 .kR2 0x35) State.reset = some (some (.refused .sequencing), []) := by decide

/-- E1: SEND_STATUS passes while the bus is busy. -/
theorem test_E1 : next (.sendStatus 0x00010000 0x15) (queued [1, 0, 0x100, 0x900]) =
    some { queued [] with
      trace := [.rd 0x1123003C 1, .wr 0x11230038 0x00010000, .wr 0x11230034 0x0200008D, .rd 0x11230010 0,
        .wr 0x11230010 0, .rd 0x1123000C 0x100, .wr 0x1123000C 0x100, .rd 0x11230040 0x900]
      fsm := .decoded, respWords := [0x900], result := some (.ok (.response 0 [0x900])) } := rfl
/-- E2: the bus busy for two reads. -/
theorem test_E2 : seen (.submit 17 0x1000 0x35) (queued [1, 3, 2]) =
    some (some (.ok .unit), [.rd 0x1123003C 1, .rd 0x1123003C 3, .rd 0x1123003C 2, .wr 0x11230038 0x1000,
      .wr 0x11230034 0x02000891]) := by decide
/-- E3: command timeout. -/
theorem test_E3 : next (.readSingleBlock 0x1000 0x35) (queued [0, 0xFFFF, 0, 0x200]) =
    some { queued [] with
      trace := [.rd 0x1123003C 0, .wr 0x11230038 0x1000, .wr 0x11230034 0x02000891, .rd 0x11230010 0xFFFF,
        .wr 0x11230010 0xF8FF, .rd 0x1123000C 0, .rd 0x1123000C 0x200, .wr 0x1123000C 0x200,
        .diag (.cmdFailed 17 0x1000 0x200), .resetHook]
      fsm := .failed, errorFlag := 0x200, result := some (.err (.cmdTimeout 0x200 17 0x1000) .s0) } := rfl
/-- E4: response-CRC error beside command-ready; bit 12 is not written back. -/
theorem test_E4 : (next .await (submitted status [0, 0x1500])).map (fun t => (t.errorFlag, t.result, t.trace.drop 3)) =
    some (0x400, some (.err (.rspCrcErr 0x400 13 0x00010000) .s0),
      [.wr 0x1123000C 0x500, .diag (.cmdFailed 13 0x00010000 0x500), .resetHook]) := by decide
/-- E6: a tuning opcode invokes no reset hook. -/
theorem test_E6 : (next (.sendTuningBlockHs200 0 0x35) (queued [0, 0, 0x400])).map (fun t => (t.fsm, t.trace.drop 5)) =
    some (.failed, [.rd 0x1123000C 0x400, .wr 0x1123000C 0x400, .diag (.cmdFailed 21 0 0x400)]) := by decide
/-- E7, E8: application-command-done alone succeeds; K_NONE reads no response. -/
theorem test_E7_E8 : (seen (.goIdleState 0 0x40) (queued [0, 0, 0x00010000])).map (fun p => (p.1, p.2.drop 5)) =
    some (some (.ok (.response 0 [])), [.rd 0x1123000C 0x00010000, .wr 0x1123000C 0x00010000]) := by decide
/-- E9: K_R2 reads RESP3 first. -/
theorem test_E9 :
    (seen (.allSendCid 0 0x67) (queued [0, 0, 0x100, 0xAAAA0003, 0xAAAA0002, 0xAAAA0001, 0xAAAA0000])).map
      (fun p => (p.1, p.2.drop 7)) =
    some (some (.ok (.response 0 [0xAAAA0003, 0xAAAA0002, 0xAAAA0001, 0xAAAA0000])),
      [.rd 0x1123004C 0xAAAA0003, .rd 0x11230048 0xAAAA0002, .rd 0x11230044 0xAAAA0001, .rd 0x11230040 0xAAAA0000]) := by
  decide
/-- E10: sequencing. -/
theorem test_E10 :
    [seen (.submit 13 0 0x15) (submitted status []), seen .await State.reset,
     seen (.submit 0 0 0x40) { State.reset with halted := true }] =
    [some (some (.refused .commandOutstanding), []), some (some (.refused .noCommand), []),
     some (some (.refused .halted), [])] := by decide

/-- F1: byte order. -/
theorem test_F1 : bytesOfWord 0x44332211 = [0x11, 0x22, 0x33, 0x44] ∧ wordAt [0xDE, 0xAD, 0xBE, 0xEF] 0 = 0xEFBEADDE := by
  decide
/-- F2: RXCNT 0x3F allows no burst, 0x40 does. -/
def reading (rem : Nat) (env : List Word) : State :=
  { decoded env with task := some ⟨.pioFifo ⟨.rx, 0, 0⟩, .pio⟩, rem := rem }
/-- The position and the bytes left after one step. -/
def place (s : State) : Option (Option Wait × Nat) :=
  match step s with
  | .next t => some (t.task.map Task.wait, t.rem)
  | .fault _ => none
  | .refused _ => none
theorem test_F2 :
    [place (reading 512 [0x40]), place (reading 512 [0x3F]), place (reading 512 [0xFFFFFF00]),
     place (reading 32 [0x20])] =
    [some (some (.pioDrain ⟨.rx, 0, 0⟩ 16), 512), some (some (.pioRecheck ⟨.rx, 0, 0⟩), 512),
     some (some (.pioRecheck ⟨.rx, 0, 0⟩), 512), some (some (.pioDrain ⟨.rx, 0, 0⟩ 8), 32)] := by decide
/-- F3: TXCNT with TXCNT_LSB 24. -/
def writing (env : List Word) : State :=
  { decoded env with task := some ⟨.pioFifo ⟨.tx, 0, 0⟩, .pio⟩, rem := 512 }
theorem test_F3_no_push : [place (writing [0x01000000]), place (writing [0x80000000])] =
    [some (some (.pioRecheck ⟨.tx, 0, 0⟩), 512), some (some (.pioRecheck ⟨.tx, 0, 0⟩), 512)] := by decide
theorem test_F3_push : [txCnt defaultConfig 0x00FFFFFF, txCnt { defaultConfig with txcntLsb := 16 } 0x00FFFFFF] =
    [0, 0xFF] := by decide
/-- F4: data errors at the outer status read. -/
theorem test_F4 : [0x8000, 0x4000, 0xC000, 0x9000].map (fun v => (seen .pioRead (decoded [0, 0, v])).map Prod.fst) =
    [some (some (.err (.dataCrcErr 0x8000) .s0)), some (some (.err (.dataTimeout 0x4000) .s0)),
     some (some (.err (.dataCrcErr 0xC000) .s0)), some (some (.err (.dataCrcErr 0x9000) .s0))] := by decide
/-- F4 and R403: data errors at the inner re-check, where data-CRC-error is ignored. -/
theorem test_F4_inner : [0x4000, 0xC000].map (fun v => (seen .pioRead (decoded [0, 0, 0, 0, v])).map Prod.fst) =
    [some (some (.err (.dataTimeout 0x4000) .s0)), some (some (.err (.dataTimeout 0xC000) .s0))] ∧
    place (reading 512 [0, 0x8000]) = some (some (.pioFifo ⟨.rx, 0, 1⟩), 512) := by decide
/-- F6: PIO without its command. -/
theorem test_F6 : [seen .pioRead State.reset, seen .pioRead { State.reset with fsm := .failed },
      seen (.pioWrite []) State.reset] =
    [some (some (.refused .noCompanionCommand), []), some (some (.refused .noCompanionCommand), []),
     some (some (.refused .noCompanionCommand), [])] := by decide

/-- G1: FFS. -/
theorem test_G1 : [0, 1, 2, 4, 0x10, 0x100, 0x8000, 0x00010000, 0x00780000, 0x00800000, 0xC0000000, 0x80000000, 0xFFFFFFFF,
      0x00FF8000].map ffs = [0, 1, 2, 3, 5, 9, 16, 17, 20, 24, 31, 32, 1, 16] := by decide
/-- G2: SELECT_WINDOW. -/
theorem test_G2 : [0x00780000, 0, 0x00FF8000, 0x00100000, 0x00500000, 0x00800000, 0x00FF8080, 0x80000000].map selectWindow =
    [0x00180000, 0, 0x00018000, 0x00100000, 0x00100000, 0x00800000, 0x00000080, 0x80000000] := by decide
/-- G3: the SWITCH argument; partition 8 is refused. -/
theorem test_G3 : [0, 1, 7].map switchArg = [0x03B34800, 0x03B34900, 0x03B34F00] ∧
    seen (.switchPart 8) (selected []) = some (some (.refused .badPartition), []) := by decide
/-- G4: no session. -/
theorem test_G4 : seen (.readBlock 0) State.reset = some (some (.refused .noSession), []) := by decide

/-- H2, H3: bases. -/
theorem test_H2_H3 : [0x11230002, 0xFFFFFF04, 0xFFFFFF00].map goodBase = [false, false, true] := by decide
/-- H4: DEVICE_RESET. -/
theorem test_H4 : next .deviceReset (selected []) = some { State.reset with result := some (.ok .unit) } := rfl
theorem test_reset_hook : next .resetHook State.reset =
    some { State.reset with trace := [.resetHook], result := some (.ok .unit) } := rfl

/-- P3: the end of a partition switch, and its two variants. -/
theorem test_P3 : [0x900, 0x980, 0x80000900].map (fun st =>
      let t := switchFinish { selected [] with seq := .p2 } 1 st
      (t.session.map Session.part, t.result)) =
    [(some (some 1), some (.ok (.warnings false))), (some none, some (.err (.switchError 0x980) .p2)),
     (some (some 1), some (.ok (.warnings true)))] := by decide
/-- P6: a block command that fails starts no transfer. -/
theorem test_P6 : seen (.readBlock 0x1000) (selected [0, 0, 0x200]) =
    some (some (.err (.cmdTimeout 0x200 17 0x1000) .io2),
      [.wr 0x11230050 1, .rd 0x1123003C 0, .wr 0x11230038 0x1000, .wr 0x11230034 0x02000891, .rd 0x11230010 0,
       .wr 0x11230010 0, .rd 0x1123000C 0x200, .wr 0x1123000C 0x200, .diag (.cmdFailed 17 0x1000 0x200), .resetHook]) := by
  decide
/-- P1: bring-up begins with the set_bits on CFG. -/
theorem test_P1_begins : (next .bringup (queued [0])).map (fun t => (t.seq, t.trace)) =
    some (.b1, [.rd 0x11230000 0, .wr 0x11230000 1, .delay 0]) := by decide
/-- P5: the last attempt that finds the card not ready. -/
theorem test_P5_ends : (opcondNext { State.reset with seq := .b5 } 0x40180000 100 .negotiate 0x00FF8000).result =
    some (.err .cardNotReady .b5) := by decide

/-! ## The hypotheses of the statements can be met

One theorem for each statement that has hypotheses, a part for each of its clauses, at the ends of the ranges where there
are ranges. -/

/-- A command that succeeds: busy once, one poll without an awaited bit, command-ready. -/
def okAnswers (words : List Word) : CmdAnswers := ⟨[3], 0, 0xFFFF, [0x1000], 0x1100, words⟩
/-- A command that fails with both error bits. -/
def badAnswers : CmdAnswers := ⟨[3], 0, 0xFFFF, [0x1000], 0x700, []⟩

theorem okAnswers_polled (ws : List Word) : (okAnswers ws).polled defaultConfig :=
  ⟨List.forall_mem_singleton.2 (by decide), show (0x1100 : Word) &&& cmdWaitMask defaultConfig ≠ 0 by decide⟩
theorem badAnswers_polled : badAnswers.polled defaultConfig :=
  ⟨List.forall_mem_singleton.2 (by decide), show (0x700 : Word) &&& cmdWaitMask defaultConfig ≠ 0 by decide⟩
theorem busy_spins (o : Word) : (∀ b ∈ ([3] : List Word), b &&& busyMask defaultConfig o ≠ 0) ∧
    (0 : Word) &&& busyMask defaultConfig o = 0 := by
  unfold busyMask
  split <;> exact ⟨List.forall_mem_singleton.2 (by decide), by decide⟩
theorem okAnswers_succeeds (o : Word) {k : Kind} {ws : List Word} (h : ws.length = kindWords k) :
    (okAnswers ws).succeeds defaultConfig o k :=
  ⟨⟨(busy_spins o).1, (busy_spins o).2, okAnswers_polled ws⟩,
    show (0x1100 : Word) &&& cmdWaitMask defaultConfig &&& cmdErrMask = 0 by decide, h⟩
theorem badAnswers_fails (o : Word) : badAnswers.fails defaultConfig o :=
  ⟨⟨(busy_spins o).1, (busy_spins o).2, badAnswers_polled⟩,
    show (0x700 : Word) &&& cmdWaitMask defaultConfig &&& cmdErrMask ≠ 0 by decide, rfl⟩

/-- A transfer whose completion shows at once, and one in which it shows in the third outer iteration. -/
def soon (bursts : List BurstAnswers) : PioAnswers := ⟨0xFFFFFFFF, ⟨0, 0x1000⟩, bursts, []⟩
def late (bursts : List BurstAnswers) : PioAnswers := ⟨0, ⟨0, 0⟩, bursts, [⟨0, 0x100⟩, ⟨0, 0x1000⟩]⟩

theorem soon_completes (b : List BurstAnswers) : (soon b).completes :=
  ⟨show (0x1000 : Word) &&& xferErrMask = 0 by decide, List.forall_mem_nil _,
    .inl ⟨show (0x1000 : Word) &&& intXferCompl ≠ 0 by decide, rfl⟩⟩
theorem late_completes (b : List BurstAnswers) : (late b).completes :=
  ⟨show (0 : Word) &&& xferErrMask = 0 by decide,
    List.forall_mem_cons.2 ⟨show (0x100 : Word) &&& xferErrMask = 0 by decide,
      List.forall_mem_singleton.2 (show (0x1000 : Word) &&& xferErrMask = 0 by decide)⟩,
    .inr ⟨show ¬(0 : Word) &&& intXferCompl ≠ 0 by decide, [⟨0, 0x100⟩], ⟨0, 0x1000⟩, rfl,
      List.forall_mem_singleton.2 (show ¬(0x100 : Word) &&& intXferCompl ≠ 0 by decide),
      show (0x1000 : Word) &&& intXferCompl ≠ 0 by decide⟩⟩

/-- A burst after one wait at the highest count that allows none, and a chunk likewise. -/
def burst : BurstAnswers := ⟨[(0x3F, 0x8000)], 0x40, List.replicate 16 0x44332211⟩
def chunk : BurstAnswers := ⟨[(0x01000000, 0x8000)], 0x00FFFFFF, []⟩

theorem burst_rx : burst.rx :=
  ⟨List.forall_mem_singleton.2 (by decide), by decide, List.length_replicate⟩
theorem chunk_tx : chunk.tx defaultConfig :=
  ⟨List.forall_mem_singleton.2 (by decide), by decide, rfl⟩
theorem soon_reads : (soon (List.replicate 8 burst)).readsBlock :=
  ⟨soon_completes _, rfl, fun _ h => List.eq_of_mem_replicate h ▸ burst_rx⟩
theorem late_reads : (late (List.replicate 8 burst)).readsBlock :=
  ⟨late_completes _, rfl, fun _ h => List.eq_of_mem_replicate h ▸ burst_rx⟩
theorem soon_writes : (soon (List.replicate 4 chunk)).writesBlock defaultConfig :=
  ⟨soon_completes _, rfl, fun _ h => List.eq_of_mem_replicate h ▸ chunk_tx⟩
theorem late_writes : (late (List.replicate 4 chunk)).writesBlock defaultConfig :=
  ⟨late_completes _, rfl, fun _ h => List.eq_of_mem_replicate h ▸ chunk_tx⟩

/-- The reset state is ready and free with any answers queued. -/
theorem queued_free (env : List Word) : (queued env).free := ⟨⟨rfl, rfl, rfl⟩, rfl⟩
theorem default_usual : defaultConfig.usual := ⟨rfl, rfl, rfl⟩

theorem witness_DecodeOfEncodeIsIdentity :
    (Instr.generic 63 0xFFFFFFFF 0x7D).wellFormed = true ∧ (Instr.selectCard 1 0x7F).wellFormed = true ∧
      Instr.await.wellFormed = true := by decide

theorem witness_DecodedCommandIsWellFormed :
    ∃ bytes i, decode ⟨.command, bytes⟩ = .ok i := ⟨_, _, test_decode_generic⟩

theorem witness_CommandRowsAreDisjoint :
    ∃ r ∈ commandRows, r.name ≠ .generic ∧ (0x02000181 : Word) &&& r.mask = r.pattern :=
  ⟨⟨0xFFFFFFFF, 0x02000181, .sendOpCond⟩, by decide, by decide, by decide⟩

theorem witness_UndecodableRequestFaults :
    (0x05 : Byte) ∉ ([0x01, 0x02, 0x03, 0x04, 0x10, 0x11, 0x20, 0x21, 0x22, 0x30, 0x31, 0x40, 0x41, 0x42, 0x43, 0x44, 0x45,
      0x46, 0x50, 0x51, 0x52] : List Byte) ∧
    ∃ (s : State) (r : Request) (rs : List Request) (why : Reject), s.task = none ∧ s.requests = r :: rs ∧
      decode r = .error why :=
  ⟨by decide, { State.reset with requests := [operation 0x05 []] }, _, [], _, rfl, rfl, test_decode_bad_tag⟩

theorem witness_StepRunsTheDecodedRequest :
    ∃ (s : State) (r : Request) (rs : List Request) (i : Instr), s.task = none ∧ s.requests = r :: rs ∧ decode r = .ok i :=
  ⟨{ State.reset with requests := [operation 0x40 []] }, _, [], _, rfl, rfl, test_decode_bringup⟩

theorem witness_StepGoesOnOrWaits :
    (reading 512 [0x40]).task ≠ none ∧ (reading 512 [0x40]).env ≠ [] ∧ (reading 512 []).env = [] ∧
      State.reset.task = none ∧ State.reset.requests = [] := by decide

theorem witness_AnswersMayArriveInParts :
    (reading 512 [0x3F, 0]).task ≠ none ∧ (reading 512 [0x3F, 0]).env = [0x3F] ++ [0] ∧
      (∃ u, step { reading 512 [0x3F, 0] with env := [0x3F] } = .next u ∧ u.task ≠ none) ∧
      (∃ u, exec .pioRead (decoded [0]) = .next u ∧ u.task ≠ none) ∧
      ∃ u, exec (.regRead 0x50) (queued []) = .next u ∧ u.task ≠ none :=
  ⟨by decide, rfl, ⟨_, rfl, nofun⟩, ⟨_, rfl, nofun⟩, _, rfl, nofun⟩

theorem witness_RegReadReturnsTheAnswer : (queued [7]).ready ∧ inMap 0x50 = true ∧ (queued [7]).env = 7 :: [] :=
  ⟨(queued_free _).1, by decide, rfl⟩
theorem witness_RegWriteEmitsOneWrite : (queued []).ready ∧ inMap 0xFC = true := ⟨(queued_free _).1, by decide⟩
theorem witness_SetAndClearBitsReadThenWrite :
    (queued [0x10]).ready ∧ inMap 0 = true ∧ (queued [0x10]).env = 0x10 :: [] := ⟨(queued_free _).1, by decide, rfl⟩
theorem witness_RegisterMapIsEnforced :
    (∀ reg ∈ ([0x00, 0x20, 0x2C, 0x50, 0x54, 0x8C, 0x90, 0x9C, 0xA0, 0xAC, 0xB0, 0xFC] : List Word), inMap reg = true) ∧
    (queued []).ready ∧ ∀ reg ∈ ([0x02, 0x21, 0xFE, 0x100, 0xFFFFFFFC] : List Word), inMap reg = false := by
  simp only [List.forall_mem_cons, List.not_mem_nil, false_imp_iff, implies_true, and_true]
  exact ⟨by decide, (queued_free _).1, by decide⟩

theorem witness_ClassifySpecialOpcodes :
    (queued []).ready ∧ (queued []).cfg.flags = defaultFlagLayout ∧ (0x7F : Word).toNat < 128 ∧
      (0x7F : Word) &&& 0x60 = 0x60 ∧ (0x5F : Word) &&& 0x60 ≠ 0x60 := ⟨(queued_free _).1, rfl, by decide⟩
theorem witness_ClassifyFromFlags :
    (queued []).ready ∧ (queued []).cfg.flags = defaultFlagLayout ∧ (0x7F : Word).toNat < 128 ∧ (63 : Word).toNat ≤ 63 ∧
      (63 : Word) ∉ ([1, 3, 7, 39, 40, 41] : List Word) := ⟨(queued_free _).1, rfl, by decide, by decide, by decide⟩
theorem witness_BadOperandsAreRefused :
    defaultConfig.flags = defaultFlagLayout ∧ 63 < (64 : Word).toNat ∧ (127 : Word).toNat < 128 ∧ (63 : Word).toNat ≤ 63 ∧
      128 ≤ (128 : Word).toNat := ⟨rfl, by decide⟩
theorem witness_CodecRefusalsChangeNothing :
    (submitted status []).ready ∧ classify (submitted status []).cfg 18 0 0x05 = .error .sequencing ∧ (queued []).ready ∧
      (queued []).outstanding = false ∧ classify (queued []).cfg 64 0 0 = .error .badOpcode ∧
      classify (queued []).cfg 17 0 0x80 = .error .badFlags ∧ classify (queued []).cfg 17 0 0x05 = .error .sequencing ∧
      (Instr.readSingleBlock 0 0x05).command = some (17, 0, 0x05) :=
  ⟨⟨rfl, rfl, rfl⟩, by decide, (queued_free _).1, rfl, by decide, by decide, by decide, rfl⟩
theorem witness_EncodeBuildsTheWord :
    (queued []).ready ∧ (queued []).cfg.usual ∧
      ∀ x ∈ ([(17, 0x35, .kR1), (24, 0x35, .kR1), (8, 0x35, .kR1), (6, 0x1D, .kR1B), (12, 0x1D, .kR1B), (63, 0x07, .kR2)] :
        List (Word × Word × Kind)), classify (queued []).cfg x.1 0 x.2.1 = .ok x.2.2 ∧ x.1 ≠ 18 ∧ x.1 ≠ 25 :=
  ⟨(queued_free _).1, default_usual, by decide⟩
theorem witness_CommandWordFields :
    defaultConfig.wellFormed = true ∧ defaultConfig.flags = defaultFlagLayout ∧
      ∀ x ∈ ([(17, 0x35, .kR1), (24, 0x35, .kR1), (8, 0x35, .kR1), (12, 0x1D, .kR1B), (63, 0x07, .kR2)] :
        List (Word × Word × Kind)), classify defaultConfig x.1 0 x.2.1 = .ok x.2.2 ∧
          ∃ raw, encodeCommand defaultConfig x.1 0 x.2.2 x.2.1 = some raw :=
  ⟨by decide, rfl, by
    simp only [List.forall_mem_cons, List.not_mem_nil, false_imp_iff, implies_true, and_true]
    exact ⟨⟨rfl, _, rfl⟩, ⟨rfl, _, rfl⟩, ⟨rfl, _, rfl⟩, ⟨rfl, _, rfl⟩, ⟨rfl, _, rfl⟩⟩⟩
theorem witness_EncodeRefusesAnotherKind :
    (queued []).ready ∧ classify (queued []).cfg 18 0 0x35 = .ok .kR1 ∧ Kind.kR2 ≠ .kR1 :=
  ⟨(queued_free _).1, by decide, by decide⟩
theorem witness_MultiBlockIsFatal :
    (queued []).free ∧ (queued []).cfg.usual ∧ classify (queued []).cfg 18 0 0x35 = .ok .kR1 ∧
      classify (queued []).cfg 25 0 0x35 = .ok .kR1 ∧ (Instr.readMultipleBlock 0 0x35).command = some (18, 0, 0x35) ∧
      (Instr.writeMultipleBlock 0 0x35).command = some (25, 0, 0x35) :=
  ⟨queued_free _, default_usual, by decide, by decide, rfl, rfl⟩
theorem witness_WellFormedCommandsHaveWords :
    defaultConfig.usual ∧ (Instr.generic 63 0 0).wellFormed = true ∧ (Instr.generic 63 0 0).command = some (63, 0, 0) :=
  ⟨default_usual, by decide, by decide⟩
theorem witness_HaltedRefusesAllButConstruct :
    (let s : State := { State.reset with halted := true }
     s.task = none ∧ s.seq = .s0 ∧ s.halted = true) ∧
    (∃ t, State.reset.halted = false ∧ step (State.reset.withFetchWord 8 0x12) = .next t ∧ t.halted = true) ∧
    (∃ t, goodBase 0xFFFFFF00 = true ∧ exec (.construct 0xFFFFFF00) { State.reset with halted := true } = .next t) :=
  ⟨⟨rfl, rfl, rfl⟩, ⟨_, rfl, test_fetch_multi_block, rfl⟩, ⟨_, by decide, rfl⟩⟩

theorem witness_SubmitWritesArgumentThenCommand :
    (queued [3, 2, 9]).free ∧ (queued [3, 2, 9]).cfg.pollLimit = none ∧ classify defaultConfig 17 0 0x35 = .ok .kR1 ∧
      encodeCommand defaultConfig 17 0 .kR1 0x35 = some 0x02000891 ∧
      (∀ b ∈ ([3] : List Word), b &&& defaultConfig.stsSdcBusy ≠ 0) ∧ (2 : Word) &&& defaultConfig.stsSdcBusy = 0 ∧
      (∀ b ∈ ([3] : List Word), b &&& defaultConfig.stsCmdBusy ≠ 0) ∧ (1 : Word) &&& defaultConfig.stsCmdBusy = 0 ∧
      classify defaultConfig 13 0 0x15 = .ok .kR1 ∧ encodeCommand defaultConfig 13 0 .kR1 0x15 = some 0x0200008D ∧
      (queued [3, 2, 9]).env = [3] ++ 2 :: [9] :=
  ⟨queued_free _, rfl, by decide, by decide, List.forall_mem_singleton.2 (by decide), by decide,
    List.forall_mem_singleton.2 (by decide), by decide, by decide, by decide, rfl⟩
/-- The reset state with POLL_LIMIT 1. -/
def limited (env : List Word) : State := { queued env with cfg := { defaultConfig with pollLimit := some 1 } }
/-- The same while a read is waited on. -/
def spinning (w : Wait) (k : Caller) (v : Word) : State := { limited [v, 7] with task := some ⟨w, k⟩ }
theorem witness_SpinsEndAtTheLimit :
    (queued [3, 3]).free ∧ (queued [3, 3]).cfg.pollLimit = none ∧ (limited [3, 0]).free ∧
      (limited [3, 0]).cfg.pollLimit = some (0 + 1) ∧ classify (limited []).cfg 13 0 0x15 = .ok .kR1 ∧
      encodeCommand (limited []).cfg 13 0 .kR1 0x15 = some 0x0200008D ∧
      (∀ b ∈ ([3, 3] : List Word), b &&& defaultConfig.stsCmdBusy ≠ 0) ∧ (limited [3, 0]).env = [3] ++ [0] :=
  ⟨queued_free _, rfl, ⟨⟨rfl, rfl, rfl⟩, rfl⟩, rfl, by decide, by decide,
    List.forall_mem_cons.2 ⟨by decide, List.forall_mem_singleton.2 (by decide)⟩, rfl⟩
theorem witness_SpinsEndAtTheLimit_steps :
    (spinning (.poll status 0) (.sendCid 0) 0x1000).cfg.pollLimit = some 1 ∧
      (spinning (.poll status 0) (.sendCid 0) 0x1000).env = 0x1000 :: [7] ∧
      (spinning (.poll status 0) (.sendCid 0) 0x1000).task = some ⟨.poll status 0, .sendCid 0⟩ ∧
      (0x1000 : Word) &&& cmdWaitMask (limited []).cfg = 0 ∧
      (spinning (.busy status 0x0200008D 0) (.status 1 0) 2).task = some ⟨.busy status 0x0200008D 0, .status 1 0⟩ ∧
      (2 : Word) &&& (if status.opcode = 13 then (limited []).cfg.stsCmdBusy else (limited []).cfg.stsSdcBusy) ≠ 0 ∧
      (spinning (.pioRecheck ⟨.tx, 0, 0⟩) .pio 0x8000).task = some ⟨.pioRecheck ⟨.tx, 0, 0⟩, .pio⟩ ∧
      (0x8000 : Word) &&& 0x4000 = 0 ∧
      (spinning (.pioStatus ⟨.rx, 0, 0⟩) .readBlock 0x100).task = some ⟨.pioStatus ⟨.rx, 0, 0⟩, .readBlock⟩ ∧
      (0x100 : Word) &&& 0xD000 = 0 ∧ (limited []).rem = 0 ∧ (limited []).done = false ∧
      (spinning (.resp 0x40 [] []) (.status 1 0) 0xE00).task = some ⟨.resp 0x40 [] [], .status 1 0⟩ ∧
      (0xE00 : Word) >>> 9 &&& 0xF = 7 ∧ 1 ≤ 0 + 1 :=
  ⟨rfl, rfl, rfl, by decide, rfl, by decide, rfl, by decide, rfl, by decide, rfl, rfl, rfl, by decide, by decide⟩
/-- The reset state in which SEND_STATUS waits on SDC_STS. -/
def waiting (env : List Word) : State :=
  { queued env with fsm := .submitting, task := some ⟨.busy status 0x0200008D 0, .cmd⟩ }
theorem waiting_inv (env : List Word) : Inv (waiting env) where
  cfg := show defaultConfig.wellFormed = true by decide
  base := show goodBase 0x11230000 = true by decide
  buf := List.length_replicate
  rem := Nat.zero_le _
  rca := nofun
  opcode := nofun
  inflight := fun _ => rfl
  between := nofun
  halted := nofun
  running := by rintro _ ⟨⟩; exact ⟨rfl, rfl, rfl, by decide, by decide, .inr rfl⟩
  regOp := by rintro _ ⟨⟩; exact nofun
theorem waiting_not_regOp (env : List Word) : ¬(waiting env).inRegOp := by
  rintro (⟨_, ⟨⟩, h⟩ | ⟨h, _⟩) <;> exact nomatch h
/-- The reset state in which the host asks for SUBMIT of SEND_STATUS. -/
def asking (env : List Word) : State := { queued env with requests := [operation 0x20 [13, 1, 0x15]] }
theorem asking_inv (env : List Word) : Inv (asking env) where
  cfg := show defaultConfig.wellFormed = true by decide
  base := show goodBase 0x11230000 = true by decide
  buf := List.length_replicate
  rem := Nat.zero_le _
  rca := nofun
  opcode := nofun
  inflight := fun _ => rfl
  between := fun _ => ⟨rfl, nofun, nofun⟩
  halted := nofun
  running := nofun
  regOp := nofun
theorem asking_not_regOp (env : List Word) : ¬(asking env).inRegOp := by
  rintro (⟨_, h, _⟩ | ⟨_, _, _, _, _, ⟨⟩, h⟩)
  · exact nomatch h
  · rw [test_decode_submit] at h
    obtain h | h | h | h := h <;> exact nomatch h
theorem witness_NoCommandWithoutAnIdleRead :
    (Inv (waiting [1]) ∧ ¬(waiting [1]).inRegOp ∧ ∃ t, step (waiting [1]) = .next t ∧
      t.trace = (waiting [1]).trace ++
        ([.rd 0x1123003C 1, .wr 0x11230038 0x00010000] ++ .wr ((waiting [1]).base + 0x34) 0x0200008D :: [])) ∧
    (Inv (asking [1]) ∧ ¬(asking [1]).inRegOp ∧ ∃ t, step (asking [1]) = .next t ∧
      t.trace = (asking [1]).trace ++
        ([.rd 0x1123003C 1, .wr 0x11230038 1] ++ .wr ((asking [1]).base + 0x34) 0x0200008D :: [])) ∧
    (Inv (asking []) ∧ ¬(asking []).inRegOp ∧ ∃ t, step (asking []) = .next t ∧
      t.task = some ⟨.busy ⟨13, 1, 0x15, .kR1⟩ 0x0200008D 0, .submit⟩) :=
  ⟨⟨waiting_inv _, waiting_not_regOp _, _, rfl, by decide⟩, ⟨asking_inv _, asking_not_regOp _, _, rfl, by decide⟩,
    asking_inv _, asking_not_regOp _, _, rfl, rfl⟩

theorem witness_AwaitSucceeds :
    let a := okAnswers [0x900]
    let s := submitted status (answersOf (awaitIo a defaultConfig ++ respIo .kR1 a.words) ++ [7])
    s.ready ∧ s.cfg.pollLimit = none ∧ s.fsm = .submitting ∧ s.inflight = some status ∧ a.polled s.cfg ∧
      a.matched s.cfg &&& 0x600 = 0 ∧ a.words.length = kindWords status.kind :=
  ⟨⟨rfl, rfl, rfl⟩, rfl, rfl, rfl, okAnswers_polled _, by decide, rfl⟩
theorem witness_AwaitFails :
    let s := submitted status (answersOf (awaitIo badAnswers defaultConfig) ++ [7])
    s.ready ∧ s.cfg.pollLimit = none ∧ s.fsm = .submitting ∧ s.inflight = some status ∧ badAnswers.polled s.cfg ∧
      badAnswers.matched s.cfg &&& 0x600 ≠ 0 :=
  ⟨⟨rfl, rfl, rfl⟩, rfl, rfl, rfl, badAnswers_polled, by decide⟩
theorem witness_AwaitNeedsASubmittedCommand :
    ((queued []).ready ∧ (queued []).fsm ≠ .submitting) ∧
      (submitted status [7]).ready ∧ (submitted status [7]).fsm = .submitting ∧
      (submitted status [7]).inflight = some status ∧ (submitted status [7]).env = [7] :=
  ⟨⟨(queued_free _).1, by decide⟩, ⟨rfl, rfl, rfl⟩, rfl, rfl, rfl⟩

theorem witness_CommandsComplete :
    let a := okAnswers [0x900]
    let s := queued (answersOf (cmdIo a defaultConfig 0x00010000 0x0200008D .kR1) ++ [7])
    (Instr.sendStatus 0x00010000 0x15).command = some (13, 0x00010000, 0x15) ∧ s.free ∧ s.cfg.pollLimit = none ∧
      classify s.cfg 13 0x00010000 0x15 = .ok .kR1 ∧ encodeCommand s.cfg 13 0x00010000 .kR1 0x15 = some 0x0200008D ∧
      a.succeeds s.cfg 13 .kR1 :=
  ⟨rfl, queued_free _, rfl, rfl, rfl, okAnswers_succeeds 13 rfl⟩
theorem witness_CommandsReportFailure :
    let s := queued (answersOf (submitIo badAnswers 0 0x02000095 ++ awaitIo badAnswers defaultConfig) ++ [7])
    (Instr.sendTuningBlockHs200 0 0x35).command = some (21, 0, 0x35) ∧ s.free ∧ s.cfg.pollLimit = none ∧
      classify s.cfg 21 0 0x35 = .ok .kR1 ∧ encodeCommand s.cfg 21 0 .kR1 0x35 = some 0x02000095 ∧
      badAnswers.fails s.cfg 21 ∧ (21 : Word) ∈ s.cfg.tuningOpcodes :=
  ⟨rfl, queued_free _, rfl, rfl, rfl, badAnswers_fails 21, by decide⟩
theorem witness_CmdIsSubmitThenAwait :
    (∃ t u, (queued [0, 0, 0x100, 5]).ready ∧ exec (.submit 13 0 0x15) (queued [0, 0, 0x100, 5]) = .next t ∧
      t.task = none ∧ t.result = some (.ok .unit) ∧ exec .await t = .next u ∧ u.task = none) ∧
    (∃ t, (submitted status []).ready ∧ exec (.submit 13 0 0x15) (submitted status []) = .next t ∧ t.task = none ∧
      t.result ≠ some (.ok .unit)) :=
  ⟨⟨_, _, (queued_free _).1, rfl, rfl, rfl, rfl, rfl⟩, ⟨_, ⟨rfl, rfl, rfl⟩, rfl, rfl, by decide⟩⟩
theorem witness_OneCommandOutstanding :
    (submitted status []).ready ∧ (submitted status []).fsm = .submitting ∧
      ({ State.reset with fsm := .awaitingResponse } : State).ready ∧ (Instr.appCmd 0 0x15).command.isSome :=
  ⟨⟨rfl, rfl, rfl⟩, rfl, ⟨rfl, rfl, rfl⟩, rfl⟩

/-- The state in which PIO_READ waits on its first outer status read. -/
def polling (env : List Word) : State :=
  { decoded env with task := some ⟨.pioStatus ⟨.rx, 0, 0⟩, .pio⟩, rem := 512 }
theorem polling_inv (env : List Word) : Inv (polling env) where
  cfg := show defaultConfig.wellFormed = true by decide
  base := show goodBase 0x11230000 = true by decide
  buf := List.length_replicate
  rem := Nat.le_refl _
  rca := nofun
  opcode := nofun
  inflight := fun _ => rfl
  between := nofun
  halted := nofun
  running := by rintro _ ⟨⟩; exact ⟨rfl, rfl, rfl, show 512 % 64 = 0 by decide⟩
  regOp := by rintro _ ⟨⟩; exact nofun
theorem witness_PioNeedsItsCommand :
    (queued []).ready ∧ (queued []).fsm ≠ .decoded ∧ (∃ t, exec .pioRead (decoded [0, 0]) = .next t) ∧
      Inv (polling [0x4000]) ∧ (polling [0x4000]).task = some ⟨.pioStatus ⟨.rx, 0, 0⟩, .pio⟩ ∧
      ∃ t, step (polling [0x4000]) = .next t :=
  ⟨(queued_free _).1, by decide, ⟨_, rfl⟩, polling_inv _, rfl, _, rfl⟩
theorem witness_PioReadReturnsTheBlock :
    let a := late (List.replicate 8 burst)
    let s := decoded (answersOf (pioReadIo defaultConfig a) ++ [7])
    s.ready ∧ s.fsm = .decoded ∧ s.buf.length = 512 ∧ s.cfg.pollLimit = none ∧ a.readsBlock :=
  ⟨⟨rfl, rfl, rfl⟩, rfl, List.length_replicate, rfl, late_reads⟩
theorem witness_PioWritePushesTheBlock :
    let a := late (List.replicate 4 chunk)
    let s := decoded (answersOf (pioWriteIo defaultConfig a (List.replicate 512 0xEF)) ++ [7])
    s.ready ∧ s.fsm = .decoded ∧ (List.replicate 512 (0xEF : Byte)).length = 512 ∧ s.cfg.pollLimit = none ∧
      a.writesBlock s.cfg :=
  ⟨⟨rfl, rfl, rfl⟩, rfl, List.length_replicate, rfl, late_writes⟩
theorem witness_ReadBurstFollowsTheCount :
    (∃ k, (reading 512 (0xFF :: List.replicate 16 1)).task = some ⟨.pioFifo ⟨.rx, 0, 0⟩, k⟩) ∧
      min 64 512 ≤ ((0xFF : Word) &&& 0xFF).toNat ∧ 64 < (reading 512 (0xFF :: List.replicate 16 1)).rem ∧
      (reading 512 (0xFF :: List.replicate 16 1)).buf.length = 512 ∧
      (List.replicate 16 (1 : Word)).length = min 64 512 / 4 ∧
      (∃ k, (reading 4 [4, 1]).task = some ⟨.pioFifo ⟨.rx, 0, 0⟩, k⟩) ∧ (reading 4 [4, 1]).rem % 4 = 0 ∧
      min 64 4 ≤ ((4 : Word) &&& 0xFF).toNat ∧ ([1] : List Word).length = min 64 4 / 4 ∧ (reading 4 [4, 1]).env = 4 :: [1] :=
  ⟨⟨_, rfl⟩, by decide, by decide, List.length_replicate, by decide, ⟨_, rfl⟩, rfl, by decide, by decide, rfl⟩
theorem witness_ReadWithoutDataRechecksInt :
    (∃ k, (reading 512 [0x3F, 0x8000]).task = some ⟨.pioFifo ⟨.rx, 0, 0⟩, k⟩) ∧ 0 < (reading 512 [0x3F, 0x8000]).rem ∧
      ((0x3F : Word) &&& 0xFF).toNat < min 64 512 ∧ (reading 512 [0x3F, 0x8000]).env = [0x3F, 0x8000] ∧
      (0x8000 : Word) &&& 0x4000 = 0 ∧ (reading 512 []).cfg.pollLimit = none ∧ (0xC000 : Word) &&& 0x4000 ≠ 0 :=
  ⟨⟨_, rfl⟩, by decide, by decide, rfl, by decide, rfl, by decide⟩
theorem witness_WriteChunkFollowsAnEmptyFifo :
    (∃ k, (writing [0]).task = some ⟨.pioFifo ⟨.tx, 0, 0⟩, k⟩) ∧ 0 < (writing [0]).rem ∧ (writing [0]).rem % 4 = 0 ∧
      (writing [0]).rem ≤ 512 ∧ (0x00FFFFFF : Word) >>> (writing []).cfg.txcntLsb &&& 0xFF = 0 ∧
      (0x01000000 : Word) >>> (writing []).cfg.txcntLsb &&& 0xFF ≠ 0 ∧ (0x8000 : Word) &&& 0x4000 = 0 ∧
      (writing []).cfg.pollLimit = none ∧ (0xC000 : Word) &&& 0x4000 ≠ 0 :=
  ⟨⟨_, rfl⟩, by decide, by decide, by decide, by decide, by decide, by decide, rfl, by decide⟩
theorem witness_PioEndsOnlyAfterTheWholeBlock :
    ∃ (s t : State) (v : Value), exec .pioRead s = .next t ∧ t.result = some (.ok v) := by
  let s := decoded (answersOf (pioReadIo defaultConfig (soon (List.replicate 8 burst))) ++ [])
  have h := drive_pio_read (s := s.begin) (k := .pio) rfl List.length_replicate soon_reads []
  exact ⟨s, _, .block (pioReadBlock (soon (List.replicate 8 burst))),
    (exec_eq_hostOp (by simp) s).trans ((hostOp_ready rfl _).trans (congrArg _ h)), rfl⟩
theorem witness_PioEndsOnlyAfterTheWholeBlock_write :
    ∃ (s t : State) (d : List Byte) (v : Value), exec (.pioWrite d) s = .next t ∧ t.result = some (.ok v) := by
  let d : List Byte := List.replicate 512 0xEF
  let s := decoded (answersOf (pioWriteIo defaultConfig (soon (List.replicate 4 chunk)) d) ++ [])
  have h := drive_pio_write (s := s.begin.setBuf d) (k := .pio) rfl soon_writes []
  exact ⟨s, _, d, .unit, (exec_eq_hostOp (by simp) s).trans ((hostOp_ready rfl _).trans (congrArg _ h)), rfl⟩
theorem witness_DataErrorEndsTheTransfer :
    (∃ k p, (polling [0xC000, 7]).task = some ⟨.pioStatus p, k⟩) ∧ (polling [0xC000, 7]).env = 0xC000 :: [7] ∧
      (0xC000 : Word) &&& 0xC000 ≠ 0 ∧ (polling [0x1000]).env = 0x1000 :: [] ∧ (0x1000 : Word) &&& 0xC000 = 0 ∧
      0 < (polling [0x1000]).rem ∧ (polling [0x1000]).cfg.pioAck = false :=
  ⟨⟨_, _, rfl⟩, rfl, by decide, rfl, by decide, by decide, rfl⟩

/-- A response that shows the card not ready, and one that shows it ready. -/
theorem not_ready : (okAnswers [0x00FF8000]).notReady ∧ ¬(okAnswers [0x80FF8000]).notReady := by
  unfold CmdAnswers.notReady okAnswers word0
  decide
theorem replicate_not_ready (n : Nat) : ∀ x ∈ List.replicate n (okAnswers [0x00FF8000]),
    x.succeeds defaultConfig 1 .kR3 ∧ x.notReady := by
  intro x h
  rw [List.eq_of_mem_replicate h]
  exact ⟨okAnswers_succeeds 1 rfl, not_ready.1⟩
theorem witness_OpcondLoopNegotiates :
    (queued []).free ∧ (queued []).cfg.usual ∧ (okAnswers [0x80FF8000]).succeeds defaultConfig 1 .kR3 ∧
      ¬(okAnswers [0x80FF8000]).notReady ∧ (okAnswers [0x00FF8000]).notReady ∧ badAnswers.fails defaultConfig 1 ∧
      ∀ n ∈ [0, 99], (∀ x ∈ List.replicate n (okAnswers [0x00FF8000]), x.succeeds defaultConfig 1 .kR3 ∧ x.notReady) ∧
        (List.replicate n (okAnswers [0x00FF8000])).length < 100 :=
  ⟨queued_free _, default_usual, okAnswers_succeeds 1 rfl, not_ready.2, not_ready.1, badAnswers_fails 1,
    fun n hn => ⟨replicate_not_ready n, by
      simp only [List.mem_cons, List.not_mem_nil, or_false] at hn
      rw [List.length_replicate]
      omega⟩⟩
theorem witness_FfsFindsTheLowestSetBit :
    (queued []).ready ∧ (0x80000000 : Word) ≠ 0 ∧ (0x80000000 : Word).getLsbD 31 = true :=
  ⟨(queued_free _).1, by decide, by decide⟩
theorem witness_SelectWindowTakesTheLowestField :
    (queued []).ready ∧ (0x80000000 : Word).getLsbD 31 = true ∧ ∀ j < 31, (0x80000000 : Word).getLsbD j = false :=
  ⟨(queued_free _).1, by decide, by decide⟩

/-- A bring-up that finds the card ready in the last attempt of the budget. -/
def bringupAnswers (n : Nat) : BringupAnswers :=
  ⟨0, 1, okAnswers [], okAnswers [0x00FF8000], List.replicate n (okAnswers [0x00FF8000]), okAnswers [0x80FF8000],
    okAnswers [0x11111111, 0x22222222, 0x33333333, 0x44444444], okAnswers [0x500], okAnswers [0x700]⟩
theorem witness_BringupBuildsTheSessionOfAReadyCard :
    let a := bringupAnswers 99
    let s := queued (answersOf (bringupIo defaultConfig 0x00780000 a) ++ [7])
    s.free ∧ s.cfg.usual ∧ a.succeeds s.cfg ∧ s.ocrSupported = 0x00780000 :=
  ⟨queued_free _, default_usual,
    ⟨okAnswers_succeeds 0 rfl, okAnswers_succeeds 1 rfl, replicate_not_ready 99, by simp [bringupAnswers],
      okAnswers_succeeds 1 rfl, not_ready.2, okAnswers_succeeds 2 rfl, okAnswers_succeeds 3 rfl, okAnswers_succeeds 7 rfl⟩,
    rfl⟩
theorem witness_BringupBuildsTheSessionOfAReadyCard_never_ready :
    let a := { bringupAnswers 99 with ready := okAnswers [0x00FF8000] }
    let s := queued (answersOf (negotiationIo defaultConfig 0x00780000 a) ++ [7])
    s.free ∧ s.cfg.usual ∧ a.neverReady s.cfg ∧ s.ocrSupported = 0x00780000 :=
  ⟨queued_free _, default_usual,
    ⟨okAnswers_succeeds 0 rfl, okAnswers_succeeds 1 rfl, replicate_not_ready 99, List.length_replicate,
      okAnswers_succeeds 1 rfl, not_ready.1⟩,
    rfl⟩
/-- The reset state in which a command of a partition switch polls INT. -/
def switching (env : List Word) : State :=
  { selected env with
    fsm := .awaitingResponse, inflight := some status, seq := .p2, task := some ⟨.poll status 0, .status 1 0⟩ }
theorem witness_CommandFailureEndsTheOperation :
    (switching [0x200, 7]).task = some ⟨.poll status 0, .status 1 0⟩ ∧ (switching [0x200, 7]).env = 0x200 :: [7] ∧
      (0x200 : Word) &&& cmdWaitMask defaultConfig &&& 0x600 ≠ 0 := ⟨rfl, rfl, by decide⟩
/-- A partition switch whose last status word is `st`. -/
def switchAnswers (st : Word) : SwitchAnswers := ⟨okAnswers [0x800], [okAnswers [0xE00]], okAnswers [st]⟩
theorem switchAnswers_succeeds {st : Word} (h : cardState st ≠ 7) : (switchAnswers st).succeeds defaultConfig := by
  refine ⟨okAnswers_succeeds 6 rfl, ?_, okAnswers_succeeds 13 rfl, h⟩
  simp only [switchAnswers, List.forall_mem_cons, List.not_mem_nil, false_imp_iff, implies_true, and_true]
  exact ⟨okAnswers_succeeds 13 rfl, by decide⟩
theorem witness_SwitchPartSetsThePartition :
    (selected []).free ∧ (selected []).cfg.usual ∧ (selected []).session = some session ∧ (7 : Word).toNat ≤ 7 ∧
      (switchAnswers 0x80000900).succeeds defaultConfig ∧ (0x80000900 : Word) &&& defaultConfig.r1SwitchError = 0 ∧
      (switchAnswers 0x980).succeeds defaultConfig ∧ (0x980 : Word) &&& defaultConfig.r1SwitchError ≠ 0 :=
  ⟨⟨⟨rfl, rfl, rfl⟩, rfl⟩, default_usual, rfl, by decide, switchAnswers_succeeds (by decide), by decide,
    switchAnswers_succeeds (by decide), by decide⟩
theorem witness_SessionOperationsNeedASession :
    (queued []).free ∧ (queued []).session = none ∧ (selected []).free ∧ (selected []).session ≠ none ∧
      7 < (8 : Word).toNat := ⟨queued_free _, rfl, ⟨⟨rfl, rfl, rfl⟩, rfl⟩, by decide, by decide⟩
theorem witness_ReadBlockReturnsTheBlock :
    let a := late (List.replicate 8 burst)
    let s := selected (answersOf (blockIo defaultConfig 17 0x1000 (okAnswers [0x900]) ++ pioReadIo defaultConfig a) ++ [7])
    s.free ∧ s.cfg.usual ∧ s.session ≠ none ∧ s.buf.length = 512 ∧ (okAnswers [0x900]).succeeds s.cfg 17 .kR1 ∧
      a.readsBlock :=
  ⟨⟨⟨rfl, rfl, rfl⟩, rfl⟩, default_usual, nofun, List.length_replicate, okAnswers_succeeds 17 rfl, late_reads⟩
theorem witness_WriteBlockSendsTheBlock :
    let a := soon (List.replicate 4 chunk)
    let d : List Byte := List.replicate 512 0xEF
    let s := selected (answersOf (blockIo defaultConfig 24 0x1000 (okAnswers [0x900]) ++ pioWriteIo defaultConfig a d))
    s.free ∧ s.cfg.usual ∧ s.session ≠ none ∧ d.length = 512 ∧ (okAnswers [0x900]).succeeds s.cfg 24 .kR1 ∧
      a.writesBlock s.cfg :=
  ⟨⟨⟨rfl, rfl, rfl⟩, rfl⟩, default_usual, nofun, List.length_replicate, okAnswers_succeeds 24 rfl, soon_writes⟩

theorem witness_ConstructSetsTheEngineState :
    (0xFFFFFF00 : Word).toNat % 4 = 0 ∧ (0xFFFFFF00 : Word).toNat + 0xFC ≤ 0xFFFFFFFF ∧
      0xFFFFFFFF < (0xFFFFFF04 : Word).toNat + 0xFC ∧ (0x11230002 : Word).toNat % 4 ≠ 0 ∧ State.reset.task = none ∧
      State.reset.seq = .s0 := by decide
theorem witness_ResetHookAndDeviceReset :
    (submitted status []).task = none ∧ (submitted status []).halted = false ∧ (submitted status []).seq = .s0 :=
  ⟨rfl, rfl, rfl⟩
theorem witness_StepKeepsTheInvariant : Inv (waiting [1, 0]) ∧ ∃ t, step (waiting [1, 0]) = .next t :=
  ⟨waiting_inv _, _, rfl⟩
theorem witness_AccessesStayInTheMap :
    Inv (waiting [1, 0]) ∧ ¬(waiting [1, 0]).inRegOp ∧ ∃ t, step (waiting [1, 0]) = .next t ∧ t.trace.length = 5 :=
  ⟨waiting_inv _, waiting_not_regOp _, _, rfl, rfl⟩
theorem witness_BaseAndParametersAreKept :
    (∃ t, exec (.ffs 0) State.reset = .next t) ∧ (waiting [1]).task ≠ none ∧ ∃ t, step (waiting [1]) = .next t :=
  ⟨⟨_, rfl⟩, nofun, _, rfl⟩
theorem witness_SessionIsKept :
    (∃ t, exec (.readBlock 0) (selected [0]) = .next t) ∧
      (waiting [1]).task = some ⟨.busy status 0x0200008D 0, .cmd⟩ ∧ Caller.cmd.writesSession = false ∧
      (∃ t, step (waiting [1]) = .next t) ∧ (∃ t, exec (.switchPart 7) (selected [0]) = .next t) ∧
      (switching [0x200, 7]).task = some ⟨.poll status 0, .status 1 0⟩ ∧ ∃ t, step (switching [0x200, 7]) = .next t :=
  ⟨⟨_, rfl⟩, rfl, rfl, ⟨_, rfl⟩, ⟨_, rfl⟩, rfl, _, rfl⟩
theorem witness_BlockBufferIsKept :
    (∃ t, exec (.sendStatus 0 0x15) (queued [0, 0]) = .next t) ∧ Inv (waiting [1]) ∧
      (waiting [1]).task = some ⟨.busy status 0x0200008D 0, .cmd⟩ ∧ (∀ dir, Caller.cmd.transfers dir = false) ∧
      ∃ t, step (waiting [1]) = .next t := ⟨⟨_, rfl⟩, waiting_inv _, rfl, by intro d; cases d <;> rfl, _, rfl⟩
theorem witness_CommandStateIsKept :
    (∃ t, exec (.pioWrite (List.replicate 512 0)) (decoded [0]) = .next t) ∧ Inv (polling [0x4000]) ∧
      (polling [0x4000]).task = some ⟨.pioStatus ⟨.rx, 0, 0⟩, .pio⟩ ∧ ∃ t, step (polling [0x4000]) = .next t :=
  ⟨⟨_, rfl⟩, polling_inv _, rfl, _, rfl⟩

end Sys2Proof.Tests
end

section
/-! SUPPORT. The frame of the steps that go on with a running operation and of CONSTRUCT, and from it that BASE, EXT_BLKCNT,
OCR_SUPPORTED and the parameters are kept (10_state.md R121, R123, R131; 00_scope.md R110). -/

namespace Sys2Proof.Machine

/-- A step with an operation running goes on with it. -/
theorem step_running {s : State} {t0 : Task} (h : s.task = some t0) : step s = .next (stepTask t0 s) := by
  simp only [step, h]

/-- Going on with the queued answers is a run from `s`; with none queued, a free value is spent first (log entry 5). -/
theorem stepTask_extends (t0 : Task) (s : State) :
    s.Extends (stepTask t0 s) ∨ s.spendFree.Extends (stepTask t0 s) := by
  unfold stepTask
  split
  · exact .inr ((State.Extends.refl s.spendFree).answer t0 _)
  · exact .inl ((State.Extends.refl s).drive _)

/-- CONSTRUCT builds the engine's registers anew, not the parameters nor the host's queue, whether it accepts the base or
refuses it (00_scope.md R110, 10_state.md R155). -/
theorem construct_keeps_cfg_requests {s t : State} {b : Word} (h : exec (.construct b) s = .next t) :
    t.cfg = s.cfg ∧ t.requests = s.requests := by
  simp only [exec, execConstruct] at h
  split at h <;> (cases h; exact ⟨rfl, rfl⟩)

/-- Settles O57: every operation but CONSTRUCT, and every later step, is a run that extends its state. -/
theorem baseAndParametersAreKept : Obligations.BaseAndParametersAreKept := by
  refine ⟨fun s t i h => ?_, fun s t hrun h => ?_⟩
  · by_cases hi : ∃ b, i = .construct b
    · obtain ⟨b, rfl⟩ := hi
      obtain ⟨hcfg, hreq⟩ := construct_keeps_cfg_requests h
      exact ⟨hcfg, hreq, fun hb => absurd rfl (hb b)⟩
    · have e := exec_extends (not_exists.mp hi) h
      exact ⟨e.cfg, e.requests, fun _ => ⟨e.base, e.extBlkcnt, e.ocrSupported⟩⟩
  · obtain ⟨t0, ht0⟩ := Option.ne_none_iff_exists'.mp hrun
    rw [step_running ht0] at h
    cases h
    obtain e | e := stepTask_extends t0 s <;> exact ⟨e.cfg, e.base, e.extBlkcnt, e.ocrSupported⟩

end Sys2Proof.Machine
end

section
/-! SUPPORT. What an operation may touch, said once for every answer and every beginning: the registers it accesses, the
session, the block buffer. The frames of SESSION and of BUF and the bounds of the register accesses are read off it. -/

namespace Sys2Proof.Machine

/-- The 14 offsets MMCHE accesses of its own accord (20_memory.md R171). -/
def engineOffsets : List Word :=
  [0x00, 0x0C, 0x10, 0x14, 0x18, 0x1C, 0x34, 0x38, 0x3C, 0x40, 0x44, 0x48, 0x4C, 0x50]

/-- The response registers are among them. -/
theorem respRegs_subset (k : Kind) : respRegs k ⊆ engineOffsets := by
  cases k <;> simp [respRegs, engineOffsets, offSdcResp0, offSdcResp1, offSdcResp2, offSdcResp3]

/-- What an operation may touch: which register offsets, the partition of the session, the whole session, and the block
buffer with its counters. The offsets of R171 are open to every operation. -/
structure Rights where
  regs    : Word → Prop
  part    : Prop
  session : Prop
  block   : Prop
  engine  : ∀ off ∈ engineOffsets, regs off

/-- Whether an operation with these rights may wait on this read, for what it does with the answer. -/
def Rights.wait (r : Rights) : Wait → Prop
  | .regRead off | .setBits off _ | .clearBits off _ => r.regs off
  | .resp off more _ => ∀ o ∈ off :: more, r.regs o
  | .pioClear _ | .pioRearm _ | .pioStatus _ | .pioFifo _ | .pioDrain _ _ | .pioRecheck _ => r.block
  | .cfgEnable | .cfgMode | .busy _ _ _ | .awaitClear _ | .poll _ _ => True

/-- Whether an operation with these rights may go on as this caller when a command ends. -/
def Rights.caller (r : Rights) : Caller → Prop
  | .opcond _ _ .probe | .opcond _ _ .negotiate | .goIdle | .sendCid _ | .setRca _ _ | .selectCard _ _ => r.session
  | .switchCmd _ | .status _ _ => r.part
  | .readBlock | .writeBlock _ => r.block
  | .opcond _ _ .host | .submit | .await | .cmd | .pio | .regOp => True

/-- Whether these rights suffice for an instruction. -/
def Rights.instr (r : Rights) : Instr → Prop
  | .regRead reg | .regWrite reg _ | .regSetBits reg _ | .regClearBits reg _ => inMap reg = true → r.regs reg
  | .bringup | .deviceReset => r.session
  | .switchPart _ => r.part
  | .pioRead | .pioWrite _ | .readBlock _ | .writeBlockOp _ _ => r.block
  | _ => True

/-- The session but for its partition (10_state.md R130). -/
def Session.unparted (x : Session) : Session := { x with part := none }

/-- `t` differs from `s` within the rights `r`, and neither is halted without the other. -/
structure State.Stays (r : Rights) (s t : State) : Prop where
  base    : t.base = s.base
  halted  : t.halted = s.halted
  trace   : ∃ new, t.trace = s.trace ++ new ∧ ∀ e ∈ new, ∀ a, e.address = some a → r.regs (a - s.base)
  session : ¬r.session → ¬r.part → t.session = s.session
  part    : ¬r.session → t.session.map Session.unparted = s.session.map Session.unparted
  block   : ¬r.block → t.buf = s.buf ∧ t.rem = s.rem ∧ t.done = s.done

/-- What an operation can come to, from `s` and within the rights `r`: it waits on a read, it ends, or it is fatal. -/
inductive State.Comes (r : Rights) (s : State) : State → Prop where
  | waits {u : State} {w : Wait} {k : Caller} (h : s.Stays r u) (hw : r.wait w) (hk : r.caller k) :
    s.Comes r (u.waitFor w k)
  | ends {u : State} (h : s.Stays r u) (x : OpResult) : s.Comes r (u.endOp x)
  | dies {u : State} (h : s.Stays r u) (o : Word) : s.Comes r (u.fatal o)

variable {r : Rights} {s t u : State}

namespace State.Stays

theorem refl (r : Rights) (s : State) : s.Stays r s :=
  ⟨rfl, rfl, ⟨[], by simp, nofun⟩, fun _ _ => rfl, fun _ => rfl, fun _ => ⟨rfl, rfl, rfl⟩⟩

/-! Updates every operation may make. -/

theorem setSeq (h : s.Stays r t) (q : Seq) : s.Stays r (t.setSeq q) :=
  ⟨h.base, h.halted, h.trace, h.session, h.part, h.block⟩
theorem setFsm (h : s.Stays r t) (f : Fsm) : s.Stays r (t.setFsm f) :=
  ⟨h.base, h.halted, h.trace, h.session, h.part, h.block⟩
theorem setInflight (h : s.Stays r t) (c : Option Command) : s.Stays r (t.setInflight c) :=
  ⟨h.base, h.halted, h.trace, h.session, h.part, h.block⟩
theorem decodedWith (h : s.Stays r t) (ws : List Word) : s.Stays r (t.decodedWith ws) :=
  ⟨h.base, h.halted, h.trace, h.session, h.part, h.block⟩
theorem failedWith (h : s.Stays r t) (f : Word) : s.Stays r (t.failedWith f) :=
  ⟨h.base, h.halted, h.trace, h.session, h.part, h.block⟩
theorem waitFor (h : s.Stays r t) (w : Wait) (k : Caller) : s.Stays r (t.waitFor w k) :=
  ⟨h.base, h.halted, h.trace, h.session, h.part, h.block⟩
theorem setEnv (h : s.Stays r t) (vs : List Word) : s.Stays r (t.setEnv vs) :=
  ⟨h.base, h.halted, h.trace, h.session, h.part, h.block⟩
theorem begin (h : s.Stays r t) : s.Stays r t.begin :=
  ⟨h.base, h.halted, h.trace, h.session, h.part, h.block⟩
theorem spendFree (h : s.Stays r t) : s.Stays r t.spendFree :=
  ⟨h.base, h.halted, h.trace, h.session, h.part, h.block⟩

/-! Updates that need their right. -/

/-- An event: the offset it accesses, if any, must be open. -/
theorem emit (h : s.Stays r t) {e : Event} (he : ∀ a, e.address = some a → r.regs (a - s.base)) :
    s.Stays r (t.emit e) := by
  obtain ⟨new, hn, ha⟩ := h.trace
  refine ⟨h.base, h.halted, ⟨new ++ [e], by rw [State.emit_trace, hn, List.append_assoc], fun x hx => ?_⟩,
    h.session, h.part, h.block⟩
  rcases List.mem_append.1 hx with hx | hx
  · exact ha x hx
  · exact List.mem_singleton.1 hx ▸ he

/-- An event that accesses no register. -/
theorem note (h : s.Stays r t) {e : Event} (he : e.address = none) : s.Stays r (t.emit e) :=
  h.emit (by simp [he])

theorem regs_of_addr (h : s.Stays r t) {off : Word} (ho : r.regs off) (a : Word) (ha : some (t.addr off) = some a) :
    r.regs (a - s.base) := by
  obtain rfl := Option.some.inj ha
  rwa [State.addr, h.base, BitVec.add_comm, BitVec.add_sub_cancel]

theorem readReg (h : s.Stays r t) {off : Word} (ho : r.regs off) (v : Word) : s.Stays r (t.emit (.rd (t.addr off) v)) :=
  h.emit (h.regs_of_addr ho)

theorem writeReg (h : s.Stays r t) {off : Word} (ho : r.regs off) (v : Word) : s.Stays r (t.writeReg off v) :=
  h.emit (h.regs_of_addr ho)

theorem setPart (h : s.Stays r t) (hr : r.part) (p : Option (BitVec 3)) : s.Stays r (t.setPart p) := by
  refine ⟨h.base, h.halted, h.trace, fun _ hp => absurd hr hp, fun hs => Eq.trans ?_ (h.part hs), h.block⟩
  simp [Session.unparted, Function.comp_def]
  rfl

theorem setSession (h : s.Stays r t) (hr : r.session) (x : Option Session) : s.Stays r (t.setSession x) :=
  ⟨h.base, h.halted, h.trace, fun hs => absurd hr hs, fun hs => absurd hr hs, h.block⟩

theorem setBuf (h : s.Stays r t) (hr : r.block) (b : List Byte) : s.Stays r (t.setBuf b) :=
  ⟨h.base, h.halted, h.trace, h.session, h.part, fun hb => absurd hr hb⟩
theorem setRem (h : s.Stays r t) (hr : r.block) (n : Nat) : s.Stays r (t.setRem n) :=
  ⟨h.base, h.halted, h.trace, h.session, h.part, fun hb => absurd hr hb⟩
theorem setDone (h : s.Stays r t) (hr : r.block) (b : Bool) : s.Stays r (t.setDone b) :=
  ⟨h.base, h.halted, h.trace, h.session, h.part, fun hb => absurd hr hb⟩

/-! Shared parts of the operations. -/

/-- A write of a register of R171. -/
theorem writeEngine (h : s.Stays r t) {off : Word} (v : Word) (ho : off ∈ engineOffsets := by decide) :
    s.Stays r (t.writeReg off v) := h.writeReg (r.engine off ho) v

theorem sendCommand (h : s.Stays r t) (c : Command) (raw : Word) : s.Stays r (t.sendCommand c raw) :=
  ((h.writeEngine _).writeEngine _).setInflight _

theorem hookUnlessTuning (h : s.Stays r t) (o : Word) : s.Stays r (t.hookUnlessTuning o) := by
  unfold State.hookUnlessTuning
  split
  · exact h
  · exact h.note rfl

theorem warn (h : s.Stays r t) (st : Word) : s.Stays r (t.warn st) := by
  unfold State.warn
  split
  · exact h.note rfl
  · exact h

theorem ackTransfer (h : s.Stays r t) (v : Word) : s.Stays r (t.ackTransfer v) := by
  unfold State.ackTransfer
  split
  · exact h.writeEngine _
  · exact h

theorem storeWord (h : s.Stays r t) (hb : r.block) (w : Word) : s.Stays r (t.storeWord w) := (h.setBuf hb _).setRem hb _

theorem pioPush (hb : r.block) (n : Nat) : ∀ {t : State}, s.Stays r t → s.Stays r (pioPush n t) := by
  induction n with
  | zero => exact id
  | succ n ih => exact fun h => ih ((h.writeEngine _).setRem hb _)

/-! What each part of an operation comes to. -/

theorem raiseErr (h : s.Stays r t) (e : ErrKind) : s.Comes r (t.raiseErr e) := .ends h _
theorem refuse (h : s.Stays r t) (x : Reason) : s.Comes r (t.refuse x) := .ends h _

theorem stopWith (h : s.Stays r t) (x : OpResult) : s.Comes r (t.stopWith x) := by
  cases x with
  | fatal o => exact .dies h o
  | ok _ | err _ _ | refused _ => exact .ends h _

theorem launch (h : s.Stays r t) (o a f : Word) {k : Caller} (hk : r.caller k) : s.Comes r (launch t o a f k) := by
  unfold Machine.launch
  split
  · exact h.stopWith _
  · exact .waits (h.setFsm _) trivial hk

theorem opcondReturn (h : s.Stays r t) (w : Word) {a : Word} {i : Nat} {p : OpcondFor} (hk : r.caller (.opcond a i p)) :
    s.Comes r (opcondReturn t w p) := by
  cases p with
  | host => exact .ends h _
  | probe => exact (h.setSeq _).launch _ _ _ hk
  | negotiate => exact (h.setSeq _).launch _ _ _ hk

theorem opcondNext (h : s.Stays r t) {a : Word} {i : Nat} {p : OpcondFor} (hk : r.caller (.opcond a i p)) (w : Word) :
    s.Comes r (opcondNext t a i p w) := by
  unfold Machine.opcondNext
  split
  · exact h.opcondReturn _ hk
  · split
    · exact h.opcondReturn _ hk
    · split
      · exact (h.note rfl).launch _ _ _ (by cases p <;> exact hk)
      · exact h.raiseErr _

theorem switchFinish (h : s.Stays r t) (hr : r.part) (p st : Word) : s.Comes r (switchFinish t p st) := by
  unfold Machine.switchFinish
  split
  · exact (((h.warn st).note rfl).setPart hr _).raiseErr _
  · exact .ends ((h.warn st).setPart hr _) _

theorem commandDone (h : s.Stays r t) (ws : List Word) {k : Caller} (hk : r.caller k) :
    s.Comes r (commandDone t ws k) := by
  cases k with
  | opcond a i p => exact h.opcondNext hk _
  | goIdle | sendCid _ | switchCmd _ => exact (h.setSeq _).launch _ _ _ hk
  | setRca _ _ => exact h.launch _ _ _ hk
  | selectCard _ _ => exact .ends (h.setSession hk _) _
  | status p polls =>
    simp only [Machine.commandDone]
    split
    · split
      · exact h.launch _ _ _ hk
      · exact (h.setPart hk _).raiseErr _
    · exact h.switchFinish hk _ _
  | readBlock => exact .waits (h.setSeq _) hk hk
  | writeBlock d => exact .waits ((h.setSeq _).setBuf hk _) hk hk
  | submit | await | cmd | pio | regOp => exact .ends h _

theorem commandFailed (h : s.Stays r t) (e : ErrKind) {k : Caller} (hk : r.caller k) :
    s.Comes r (commandFailed t e k) := by
  cases k with
  | switchCmd _ | status _ _ => exact (h.setPart hk _).raiseErr _
  | _ => exact h.raiseErr _

theorem readResponse (h : s.Stays r t) {regs : List Word} (hr : ∀ o ∈ regs, r.regs o) (got : List Word) {k : Caller}
    (hk : r.caller k) : s.Comes r (readResponse t regs got k) := by
  cases regs with
  | nil => exact (h.decodedWith _).commandDone _ hk
  | cons off more => exact .waits h hr hk

theorem submitBusy (h : s.Stays r t) (c : Command) (raw : Word) (n : Nat) {k : Caller} (hk : r.caller k) (v : Word) :
    s.Comes r (submitBusy t c raw n k v) := by
  unfold Machine.submitBusy
  split
  · split
    · exact .ends (h.sendCommand _ _) _
    · exact .waits (h.sendCommand _ _) trivial hk
  · split
    · exact .waits h trivial hk
    · exact (h.setFsm _).commandFailed _ hk

theorem awaitFail (h : s.Stays r t) (c : Command) (m : Word) {k : Caller} (hk : r.caller k) :
    s.Comes r (awaitFail t c m k) :=
  (((h.failedWith _).note rfl).hookUnlessTuning _).commandFailed _ hk

theorem awaitPoll (h : s.Stays r t) (c : Command) (n : Nat) {k : Caller} (hk : r.caller k) (v : Word) :
    s.Comes r (awaitPoll t c n k v) := by
  unfold Machine.awaitPoll
  simp only
  split
  · split
    · exact .waits h trivial hk
    · exact ((h.setFsm _).setInflight _).commandFailed _ hk
  · split
    · exact (h.writeEngine _).awaitFail _ _ hk
    · exact (h.writeEngine _).readResponse (fun o ho => r.engine o (respRegs_subset _ ho)) _ hk

section Transfers

variable (hb : r.block) {k : Caller} (hk : r.caller k)
include hb hk

theorem pioHead (h : s.Stays r t) (p : PioPos) : s.Comes r (pioHead t p k) := by
  unfold Machine.pioHead
  split
  · exact .waits h hb hk
  · split
    · exact .ends h _
    · split
      · exact .waits h hb hk
      · exact h.raiseErr _

omit hb hk in
theorem pioFail (h : s.Stays r t) (v : Word) (c : Bool) : s.Comes r (pioFail t v c) :=
  ((h.note rfl).note rfl).raiseErr _

theorem pioBurst (h : s.Stays r t) (p : PioPos) (n : Nat) : s.Comes r (pioBurst t p k n) := by
  unfold Machine.pioBurst
  split
  · exact h.pioHead hb hk _
  · exact .waits h hb hk

theorem pioStatus (h : s.Stays r t) (p : PioPos) (v : Word) : s.Comes r (pioStatus t p k v) := by
  unfold Machine.pioStatus
  split
  · exact h.pioFail _ _
  · exact ((h.setDone hb _).ackTransfer _).pioHead hb hk _

theorem pioFifo (h : s.Stays r t) (p : PioPos) (v : Word) : s.Comes r (pioFifo t p k v) := by
  unfold Machine.pioFifo
  split
  · split
    · exact h.pioBurst hb hk _ _
    · split
      · exact h.pioBurst hb hk _ _
      · exact .waits h hb hk
  · split
    · exact (pioPush hb _ h).pioHead hb hk _
    · exact .waits h hb hk

theorem pioDrain (h : s.Stays r t) (p : PioPos) (left : Nat) (v : Word) : s.Comes r (pioDrain t p k left v) := by
  unfold Machine.pioDrain
  split
  · exact (h.storeWord hb _).pioHead hb hk _
  · exact .waits (h.storeWord hb _) hb hk

theorem pioRecheck (h : s.Stays r t) (p : PioPos) (v : Word) : s.Comes r (pioRecheck t p k v) := by
  unfold Machine.pioRecheck
  split
  · exact h.pioFail _ _
  · split
    · exact .waits h hb hk
    · exact h.raiseErr _

end Transfers

/-- Every answer, to a wait and a caller the rights allow. -/
theorem resume (h : s.Stays r t) {w : Wait} {k : Caller} (hw : r.wait w) (hk : r.caller k) (v : Word) :
    s.Comes r (resume ⟨w, k⟩ v t) := by
  cases w with
  | regRead off => exact .ends h _
  | setBits off m | clearBits off m => exact .ends (h.writeReg hw _) _
  | cfgEnable => exact .waits ((h.writeEngine _).note rfl) trivial hk
  | cfgMode => exact (((h.writeEngine _).note rfl).setSeq _).launch _ _ _ hk
  | busy c raw n => exact h.submitBusy c raw n hk v
  | awaitClear c => exact .waits ((h.writeEngine _).setFsm _) trivial hk
  | poll c n => exact h.awaitPoll c n hk v
  | resp off more got => exact h.readResponse (fun o ho => hw o (List.mem_cons_of_mem _ ho)) _ hk
  | pioClear d => exact .waits (((h.writeEngine _).setRem hw _).setDone hw _) hw hk
  | pioRearm p => exact .waits (h.writeEngine _) hw hk
  | pioStatus p => exact h.pioStatus hw hk p v
  | pioFifo p => exact h.pioFifo hw hk p v
  | pioDrain p left => exact h.pioDrain hw hk p left v
  | pioRecheck p => exact h.pioRecheck hw hk p v

/-- The register a wait reads is open to an operation that may wait on it. -/
theorem regs_waitOff {w : Wait} (hw : r.wait w) : r.regs w.off := by
  cases w with
  | regRead _ | setBits _ _ | clearBits _ _ => exact hw
  | resp off more got => exact hw off List.mem_cons_self
  | _ => exact r.engine _ (by simp only [Wait.off]; decide)

theorem answer (h : s.Stays r t) {w : Wait} {k : Caller} (hw : r.wait w) (hk : r.caller k) (v : Word) :
    s.Comes r (answer ⟨w, k⟩ v t) := (h.readReg (regs_waitOff hw) v).resume hw hk v

/-- Every beginning but CONSTRUCT's, which has none. -/
theorem startOf (h : s.Stays r t) {i : Instr} (hc : ∀ b, i ≠ .construct b) (hi : r.instr i) :
    s.Comes r (startOf i t) := by
  cases i with
  | construct b => exact absurd rfl (hc b)
  | regRead _ | regSetBits _ _ | regClearBits _ _ =>
    simp only [Machine.startOf]
    split
    · exact .waits h (hi ‹_›) trivial
    · exact h.refuse _
  | regWrite reg v =>
    simp only [Machine.startOf]
    split
    · exact .ends (h.writeReg (hi ‹_›) _) _
    · exact h.refuse _
  | classify o a f =>
    simp only [Machine.startOf]
    split
    · exact .ends h _
    · exact h.refuse _
  | encode o a k f =>
    simp only [Machine.startOf]
    split
    · exact h.refuse _
    · split
      · split
        · exact .ends h _
        · exact .dies h _
      · exact h.refuse _
  | await =>
    simp only [Machine.startOf]
    split
    · exact .waits h trivial trivial
    · exact h.refuse _
  | pioRead =>
    simp only [Machine.startOf]
    split
    · exact .waits h hi trivial
    · exact h.refuse _
  | pioWrite d =>
    simp only [Machine.startOf]
    split
    · exact .waits (h.setBuf hi _) hi trivial
    · exact h.refuse _
  | bringup =>
    simp only [Machine.startOf]
    split
    · exact h.refuse _
    · exact .waits ((h.setSession hi _).setSeq _) trivial hi
  | ffs _ | selectWindow _ => exact .ends h _
  | switchPart p =>
    simp only [Machine.startOf]
    split
    · exact h.refuse _
    · split
      · exact h.refuse _
      · exact (h.setSeq _).launch _ _ _ hi
  | readBlock _ | writeBlockOp _ _ =>
    simp only [Machine.startOf]
    split
    · exact h.refuse _
    · exact (((h.setSeq _).writeEngine _).setSeq _).launch _ _ _ hi
  | resetHook => exact .ends (h.note rfl) _
  | deviceReset => exact .ends (h.setSession hi _) _
  | _ => exact h.launch _ _ _ trivial

end State.Stays

namespace State.Comes

theorem setEnv (h : s.Comes r t) (vs : List Word) : s.Comes r (t.setEnv vs) := by
  cases h with
  | waits h hw hk => exact .waits (h.setEnv vs) hw hk
  | ends h x => exact .ends (h.setEnv vs) x
  | dies h o => exact .dies (h.setEnv vs) o

/-- An operation that still runs goes on within its rights. -/
theorem answer (h : s.Comes r t) {x : Task} (ht : t.task = some x) (v : Word) : s.Comes r (answer x v t) := by
  cases h with
  | waits h hw hk =>
    obtain rfl := Option.some.inj ht
    exact (h.waitFor _ _).answer hw hk v
  | ends h x => cases ht
  | dies h o => cases ht

theorem drive (h : s.Comes r t) (vs : List Word) : s.Comes r (drive vs t) :=
  drive_keeps (P := fun t => s.Comes r t) (fun _ _ v h ht => h.answer ht v) (fun _ vs h => h.setEnv vs) vs t h

/-! What an operation comes to stays within its rights. -/

theorem trace (h : s.Comes r t) :
    ∃ new, t.trace = s.trace ++ new ∧ ∀ e ∈ new, ∀ a, e.address = some a → r.regs (a - s.base) := by
  cases h with | waits h _ _ | ends h _ | dies h _ => exact h.trace
theorem session (h : s.Comes r t) (hs : ¬r.session) (hp : ¬r.part) : t.session = s.session := by
  cases h with | waits h _ _ | ends h _ | dies h _ => exact h.session hs hp
theorem part (h : s.Comes r t) (hs : ¬r.session) :
    t.session.map Session.unparted = s.session.map Session.unparted := by
  cases h with | waits h _ _ | ends h _ | dies h _ => exact h.part hs
theorem block (h : s.Comes r t) (hb : ¬r.block) : t.buf = s.buf ∧ t.rem = s.rem ∧ t.done = s.done := by
  cases h with | waits h _ _ | ends h _ | dies h _ => exact h.block hb

/-- HALTED is set by a Fatal outcome only (10_state.md R134, 60_exceptions.md R408). -/
theorem fatal_of_halted (h : s.Comes r t) (hs : s.halted = false) (ht : t.halted = true) :
    ∃ o, t.result = some (.fatal o) := by
  cases h with
  | waits h hw hk => exact absurd (h.halted.symm.trans ht) (by simp [hs])
  | ends h x => exact absurd (h.halted.symm.trans ht) (by simp [hs])
  | dies h o => exact ⟨o, rfl⟩

end State.Comes

/-- A step that goes on with an operation comes to what the operation may. -/
theorem stepTask_comes {w : Wait} {k : Caller} (ht : s.task = some ⟨w, k⟩) (hw : r.wait w) (hk : r.caller k) :
    s.Comes r (stepTask ⟨w, k⟩ s) := by
  have waiting : s.Comes r s := by
    have h := State.Comes.waits (State.Stays.refl r s) hw hk
    rwa [show s.waitFor w k = s by rw [State.waitFor, ← ht]] at h
  unfold stepTask
  split
  · exact (State.Stays.refl r s).spendFree.answer hw hk _
  · exact waiting.drive _

/-- Every operation but CONSTRUCT comes to what it may. -/
theorem exec_comes {i : Instr} (hc : ∀ b, i ≠ .construct b) (hi : r.instr i) (h : exec i s = .next t) :
    s.Comes r t := by
  rw [exec_eq_hostOp hc] at h
  simp only [hostOp, Host.Outcome.next.injEq] at h
  subst h
  refine State.Comes.drive ?_ _
  split
  · exact (State.Stays.refl r s).begin.refuse _
  · exact (State.Stays.refl r s).begin.startOf hc hi

end Sys2Proof.Machine
end

section
/-! SUPPORT. The frames of SESSION and of BUF, who sets HALTED, and the bounds of every register access, read off what
an operation may touch (10_state.md R127 to R134; 20_memory.md R171, R177). -/

namespace Sys2Proof.Machine

/-! ## A step -/

/-- A step with no operation running waits for the host, or executes its next request (10_state.md R158). -/
theorem step_idle {s t : State} (ht : s.task = none) (h : step s = .next t) :
    t = s ∨ ∃ r rs i, s.requests = r :: rs ∧ decode r = .ok i ∧ exec i (s.setRequests rs) = .next t := by
  simp only [step, ht] at h
  split at h
  · exact .inl (Host.Outcome.next.inj h).symm
  · rename_i r rs hr
    split at h
    · cases h
    · exact .inr ⟨r, rs, _, hr, ‹_›, h⟩

/-- A base CONSTRUCT does not accept is refused (70_reset_and_hazards.md R440). -/
theorem exec_construct_bad {s : State} {b : Word} (hb : goodBase b = false) :
    exec (.construct b) s = .next (s.refuse .badBase) := by
  simp [exec, execConstruct, hb]

/-- CONSTRUCT clears HALTED and emits no event. -/
theorem exec_construct_good {s t : State} {b : Word} (hb : goodBase b = true) (h : exec (.construct b) s = .next t) :
    t.halted = false ∧ t.trace = s.trace := by
  simp only [exec, execConstruct, hb, if_true] at h
  cases h
  exact ⟨rfl, rfl⟩

/-! ## The rights of each family of operations -/

/-- Access to every register, with these rights on the partition, the session and the block buffer. -/
def Rights.touching (part session block : Prop) : Rights := ⟨fun _ => True, part, session, block, fun _ _ => trivial⟩

/-- With a right on the block buffer an operation may wait on any read. -/
theorem touching_wait {part session block : Prop} (hb : block) (w : Wait) :
    (Rights.touching part session block).wait w := by
  cases w <;> simp [Rights.wait, Rights.touching, hb]

/-- A caller whose operation writes SESSION needs the right on the partition, and the one on the whole session unless it
is a partition switch; one that transfers needs the block buffer. -/
theorem touching_caller {part session block : Prop} {k : Caller} (hp : k.writesSession = true → part)
    (hs : k.writesSession = true → session ∨ ∃ p n, k = .switchCmd p ∨ k = .status p n)
    (hb : (∃ dir, k.transfers dir = true) → block) : (Rights.touching part session block).caller k := by
  cases k with
  | opcond a i purpose => cases purpose <;> simp_all [Rights.caller, Rights.touching, Caller.writesSession]
  | goIdle | sendCid _ | setRca _ _ | selectCard _ _ => exact (hs rfl).elim id (by simp)
  | switchCmd _ | status _ _ => exact hp rfl
  | readBlock => exact hb ⟨.rx, rfl⟩
  | writeBlock _ => exact hb ⟨.tx, rfl⟩
  | submit | await | cmd | pio | regOp => exact True.intro

/-- SWITCH_PART needs the partition, BRINGUP and DEVICE_RESET the session, the transfers the block buffer. -/
theorem touching_instr {part session block : Prop} {i : Instr}
    (hp : ∀ p, i = .switchPart p → part) (hs : i = .bringup ∨ i = .deviceReset → session)
    (hb : (i = .pioRead ∨ (∃ d, i = .pioWrite d) ∨ (∃ a, i = .readBlock a) ∨ ∃ a d, i = .writeBlockOp a d) → block) :
    (Rights.touching part session block).instr i := by
  cases i with
  | regRead _ | regWrite _ _ | regSetBits _ _ | regClearBits _ _ => exact fun _ => True.intro
  | bringup => exact hs (.inl rfl)
  | deviceReset => exact hs (.inr rfl)
  | switchPart p => exact hp p rfl
  | pioRead => exact hb (.inl rfl)
  | pioWrite d => exact hb (.inr (.inl ⟨d, rfl⟩))
  | readBlock a => exact hb (.inr (.inr (.inl ⟨a, rfl⟩)))
  | writeBlockOp a d => exact hb (.inr (.inr (.inr ⟨a, d, rfl⟩)))
  | _ => exact True.intro

/-! ## HALTED -/

/-- Settles O23: a halted engine refuses every beginning; a live one is halted by a Fatal outcome only, since every
operation comes to a wait, an end or a Fatal one; CONSTRUCT clears HALTED. -/
theorem haltedRefusesAllButConstruct : Obligations.HaltedRefusesAllButConstruct := by
  refine ⟨fun s i ht hq hh hc => ?_, fun s t hs h hh => ?_, fun s t b hb h => (exec_construct_good hb h).1⟩
  · rw [exec_eq_hostOp hc, hostOp_halted hh]
    exact congrArg _ (ended_eq ht hq _)
  · cases ht : s.task with
    | some x =>
      rw [step_running ht] at h
      cases h
      exact (stepTask_comes (r := .touching True True True) ht (touching_wait trivial _)
        (touching_caller (fun _ => trivial) (fun _ => .inl trivial) fun _ => trivial)).fatal_of_halted hs hh
    | none =>
      obtain rfl | ⟨r, rs, i, -, -, h⟩ := step_idle ht h
      · exact absurd hh (by simp [hs])
      · by_cases hc : ∃ b, i = .construct b
        · obtain ⟨b, rfl⟩ := hc
          cases hb : goodBase b with
          | true => exact absurd hh (by simp [(exec_construct_good hb h).1])
          | false =>
            rw [exec_construct_bad hb] at h
            cases h
            exact absurd hh (by simp [State.refuse, hs])
        · exact (exec_comes (r := .touching True True True) (not_exists.1 hc)
            (touching_instr (fun _ _ => trivial) (fun _ => trivial) fun _ => trivial) h).fatal_of_halted hs hh

/-! ## SESSION and BUF -/

/-- Settles O58: only the operations with a right on the session or its partition change it. -/
theorem sessionIsKept : Obligations.SessionIsKept := by
  refine ⟨fun s t i h h1 h2 h3 h4 => ?_, fun s t t0 ht hk h => ?_, fun s t p h => ?_, fun s t w k ht hk h => ?_⟩
  · refine (exec_comes (r := .touching False False True) h3 (touching_instr ?_ ?_ fun _ => trivial) h).session id id
    · exact h2
    · exact fun h => h.elim h1 h4
  · rw [step_running ht] at h
    cases h
    exact (stepTask_comes (r := .touching False False True) ht (touching_wait trivial _)
      (touching_caller (by simp [hk]) (by simp [hk]) fun _ => trivial)).session id id
  · exact (exec_comes (r := .touching True False True) (by simp)
      (touching_instr (fun _ _ => trivial) (by simp) fun _ => trivial) h).part id
  · rw [step_running ht] at h
    cases h
    exact (stepTask_comes (r := .touching True False True) ht (touching_wait trivial _)
      (touching_caller (fun _ => trivial) (fun _ => .inr hk) fun _ => trivial)).part id

/-- A wait that fits the state is allowed where the registers of a register operation, the response registers and, for a
transfer, the block buffer are. -/
theorem wait_of_fits {r : Rights} {s : State} {w : Wait} {k : Caller} (hw : w.fits s k)
    (hreg : k = .regOp → ∀ off, inMap off = true → r.regs off) (hblk : ∀ dir, k.transfers dir = true → r.block) :
    r.wait w := by
  cases w with
  | regRead _ | setBits _ _ | clearBits _ _ => exact hreg hw.2 _ hw.1
  | resp off more got =>
    obtain ⟨-, -, -, hs⟩ := hw
    exact fun o ho => r.engine o (respRegs_subset .kR2 (hs.subset ho))
  | pioClear dir => exact hblk _ hw.2
  | pioRearm p | pioStatus p | pioFifo p | pioRecheck p | pioDrain p _ => exact hblk _ hw.2.1
  | cfgEnable | cfgMode | busy _ _ _ | awaitClear _ | poll _ _ => exact True.intro

/-- Settles O59: only the operations with a right on the block buffer change it. -/
theorem blockBufferIsKept : Obligations.BlockBufferIsKept := by
  refine ⟨fun s t i h h1 h2 h3 h4 h5 => ?_, fun s t t0 hi ht hk h => ?_⟩
  · refine (exec_comes (r := .touching True True False) h5
      (touching_instr (fun _ _ => trivial) (fun _ => trivial) ?_) h).block id
    rintro (h | ⟨d, h⟩ | ⟨a, h⟩ | ⟨a, d, h⟩)
    exacts [h1 h, h2 d h, h3 a h, h4 a d h]
  · obtain ⟨-, hw⟩ := hi.running t0 ht
    rw [step_running ht] at h
    cases h
    refine (stepTask_comes (r := .touching True True False) ht
      (wait_of_fits hw (fun _ _ _ => trivial) fun dir hd => absurd hd (by simp [hk dir]))
      (touching_caller (fun _ => trivial) (fun _ => .inl trivial) (by simp [hk]))).block id

/-! ## The registers accessed -/

theorem inMap_of_engineOffsets : ∀ off ∈ engineOffsets, inMap off = true := by
  simp [engineOffsets, inMap]

/-- Every right within the map; outside a register operation, at the offsets of R171 only. -/
def Rights.mapped (regOp : Prop) : Rights where
  regs off := inMap off = true ∧ (¬regOp → off ∈ engineOffsets)
  part := True
  session := True
  block := True
  engine off h := ⟨inMap_of_engineOffsets off h, fun _ => h⟩

/-- A register of the map at a good base is aligned and does not wrap (20_memory.md R177). -/
theorem mapped_address {base a : Word} (hb : goodBase base = true) (ha : inMap (a - base) = true) :
    a.toNat % 4 = 0 ∧ base.toNat ≤ a.toNat ∧ a.toNat ≤ base.toNat + 0xFC := by
  simp only [goodBase, inMap, Bool.and_eq_true, beq_iff_eq, decide_eq_true_eq, BitVec.toNat_sub] at hb ha
  have := a.isLt
  have := base.isLt
  omega

/-- Every instruction has the rights of the map, where those of a register operation take in all its cells. -/
theorem mapped_instr {regOp : Prop} {i : Instr}
    (h : (∃ reg x, i = .regRead reg ∨ i = .regWrite reg x ∨ i = .regSetBits reg x ∨ i = .regClearBits reg x) → regOp) :
    (Rights.mapped regOp).instr i := by
  cases i with
  | regRead reg => exact fun hm => ⟨hm, fun hn => absurd (h ⟨reg, 0, .inl rfl⟩) hn⟩
  | regWrite reg v => exact fun hm => ⟨hm, fun hn => absurd (h ⟨reg, v, .inr (.inl rfl)⟩) hn⟩
  | regSetBits reg m => exact fun hm => ⟨hm, fun hn => absurd (h ⟨reg, m, .inr (.inr (.inl rfl))⟩) hn⟩
  | regClearBits reg m => exact fun hm => ⟨hm, fun hn => absurd (h ⟨reg, m, .inr (.inr (.inr rfl))⟩) hn⟩
  | _ => exact True.intro

theorem mapped_caller (regOp : Prop) (k : Caller) : (Rights.mapped regOp).caller k := by
  cases k with
  | opcond a i purpose => cases purpose <;> exact True.intro
  | _ => exact True.intro

/-- A step emits nothing, or is a run of an operation whose rights are those of the map. -/
theorem step_within_map {s t : State} (hi : Inv s) (h : step s = .next t) :
    t.trace = s.trace ∨ ∃ new, t.trace = s.trace ++ new ∧
      ∀ e ∈ new, ∀ a, e.address = some a → (Rights.mapped s.inRegOp).regs (a - s.base) := by
  cases ht : s.task with
  | some x =>
    obtain ⟨-, hw⟩ := hi.running x ht
    rw [step_running ht] at h
    cases h
    exact .inr (stepTask_comes (r := .mapped s.inRegOp) ht
      (wait_of_fits hw (fun hk off hm => ⟨hm, fun hn => absurd (.inl ⟨x, ht, hk⟩) hn⟩) fun _ _ => trivial)
      (mapped_caller _ _)).trace
  | none =>
    obtain rfl | ⟨r, rs, i, hr, hd, h⟩ := step_idle ht h
    · exact .inl rfl
    by_cases hc : ∃ b, i = .construct b
    · obtain ⟨b, rfl⟩ := hc
      cases hb : goodBase b with
      | true => exact .inl (exec_construct_good hb h).2
      | false =>
        rw [exec_construct_bad hb] at h
        cases h
        exact .inl rfl
    · refine .inr (exec_comes (not_exists.1 hc) (mapped_instr ?_) h).trace
      rintro ⟨reg, x, hi⟩
      refine .inr ⟨ht, r, rs, reg, x, hr, ?_⟩
      obtain rfl | rfl | rfl | rfl := hi <;> simp [hd]

/-- Settles O56: the offset of every access is one the operation may access, and a good base keeps the address in
range. -/
theorem accessesStayInTheMap : Obligations.AccessesStayInTheMap := by
  intro s t hi h
  obtain h | ⟨new, hn, ha⟩ := step_within_map hi h
  · exact ⟨[], by simp [h], nofun⟩
  · refine ⟨new, hn, fun e he a hea => ?_⟩
    obtain ⟨hm, hr⟩ := ha e he a hea
    obtain ⟨h4, hlo, hhi⟩ := mapped_address hi.base hm
    exact ⟨h4, hlo, hhi, hm, hr⟩

end Sys2Proof.Machine
end

section
/-! SUPPORT. Every step keeps the invariant (10_state.md R124 to R134, 42_command_response_engine.md R300 to R304,
43_pio_transfer.md R333). Inside an operation a state is sound; an operation that ends or waits in a sound state, its
wait and its caller fitting it, leaves the invariant. -/

namespace Sys2Proof.Machine

/-! ## Command words (30_encoding.md R202) -/

/-- A command that has a kind has an opcode in 0..63. -/
theorem opcode_le_of_classify {cfg : Config} {o a f : Word} {k : Kind} (h : classify cfg o a f = .ok k) :
    o.toNat ≤ 63 := by
  by_contra ho
  simp [classify, operandRefusal, Nat.lt_of_not_le ho] at h

/-- A mask apart from one that covers bits 5:0 has none of them. -/
theorem low_clear_of_apart {m cover : Word} (h : m &&& cover = 0) (hc : cover &&& 0x3F = 0x3F) : m &&& 0x3F = 0 := by
  rw [← hc, ← BitVec.and_assoc, h]
  exact BitVec.zero_and

/-- The patch bits and the block-length field of allowed parameters have none of bits 5:0 (92_eei_decisions.md D2). -/
theorem patches_low_clear {cfg : Config} (h : cfg.wellFormed = true) :
    cfg.cmdDataPresent &&& 0x3F = 0 ∧ cfg.cmdWrite &&& 0x3F = 0 ∧ cfg.cmdStop &&& 0x3F = 0 ∧
      cfg.cmdBlklenMask &&& 0x3F = 0 := by
  simp only [Config.wellFormed, Bool.and_eq_true, beq_iff_eq] at h
  obtain ⟨⟨⟨⟨⟨⟨⟨⟨⟨⟨-, hpatch⟩, hblk⟩, -⟩, -⟩, -⟩, -⟩, -⟩, -⟩, -⟩, -⟩ := h
  have blk : cfg.cmdBlklenMask &&& 0x3F = 0 := by
    rw [show (0x3F : Word) = 0x0200FFFF &&& 0x3F by decide, ← BitVec.and_assoc, hblk]
    decide
  have cover : (0x3FF ||| cfg.cmdBlklenMask) &&& 0x3F = 0x3F := by
    rw [BitVec.and_or_distrib_right, blk]
    decide
  rw [BitVec.and_or_distrib_right, BitVec.and_or_distrib_right] at hpatch
  obtain ⟨hdw, hs⟩ := BitVec.or_eq_zero_iff.1 hpatch
  obtain ⟨hd, hw⟩ := BitVec.or_eq_zero_iff.1 hdw
  exact ⟨low_clear_of_apart hd cover, low_clear_of_apart hw cover, low_clear_of_apart hs cover, blk⟩

/-- Bits 5:0 of a word survive a patch that has none of them. -/
theorem low_or {x m : Word} (h : m &&& 0x3F = 0) : (x ||| m) &&& 0x3F = x &&& 0x3F := by
  rw [BitVec.and_or_distrib_right, h]
  exact BitVec.or_zero

theorem low_and_not {x m : Word} (h : m &&& 0x3F = 0) : x &&& ~~~m &&& 0x3F = x &&& 0x3F := by
  have hn : ~~~m &&& 0x3F = 0x3F := by
    calc ~~~m &&& 0x3F = m &&& 0x3F ||| ~~~m &&& 0x3F := by rw [h]; exact BitVec.zero_or.symm
      _ = 0x3F := by rw [← BitVec.and_or_distrib_right, BitVec.or_not_self, BitVec.allOnes_and]
  rw [BitVec.and_assoc, hn]

/-- The OPC field of a word the codec builds is the opcode. -/
theorem rawWord_low {cfg : Config} (hc : cfg.wellFormed = true) {o : Word} (ho : o.toNat ≤ 63) (k : Kind) (f : Word) :
    rawWord cfg o k f &&& 0x3F = o := by
  obtain ⟨hd, hw, hs, hb⟩ := patches_low_clear hc
  have hcode : ∀ c : BitVec 3, c.setWidth 32 <<< 7 &&& (0x3F : Word) = 0 := by decide
  have hopc : o &&& 0x3F = o := by
    apply BitVec.eq_of_toNat_eq
    rw [BitVec.toNat_and]
    exact (Nat.and_two_pow_sub_one_eq_mod _ 6).trans (Nat.mod_eq_of_lt (by omega))
  have unpatched : (o ||| (rspCode cfg.rspCode k).setWidth 32 <<< 7 ||| BitVec.ofNat 32 blksz <<< 16) &&& 0x3F = o := by
    rw [low_or (by decide), low_or (hcode _), hopc]
  unfold rawWord patchWord
  split
  · rw [low_or hd, unpatched]
  · split
    · rw [low_or hw, low_or hd, unpatched]
    · split
      · rw [low_or hd, unpatched]
      · split
        · rw [low_and_not hb, low_or hs, unpatched]
        · exact unpatched

theorem encodeCommand_low {cfg : Config} (hc : cfg.wellFormed = true) {o a f : Word} {k : Kind} {raw : Word}
    (ho : o.toNat ≤ 63) (h : encodeCommand cfg o a k f = some raw) : raw &&& 0x3F = o := by
  unfold encodeCommand at h
  split at h
  · cases h
  · cases h
    exact rawWord_low hc ho k f

/-- SUBMIT goes on only if it is not halted, no command is outstanding, and the word carries the opcode. -/
theorem submitCheck_ok {s : State} {o a f : Word} {c : Command} {raw : Word} (hc : s.cfg.wellFormed = true)
    (h : submitCheck s o a f = .ok (c, raw)) :
    s.halted = false ∧ s.outstanding = false ∧ c.opcode.toNat ≤ 63 ∧ raw &&& 0x3F = c.opcode := by
  unfold submitCheck at h
  split at h
  · cases h
  · split at h
    · cases h
    · split at h
      · cases h
      · split at h
        · cases h
        · cases h
          have ho := opcode_le_of_classify ‹_›
          exact ⟨by simpa using ‹¬s.halted = true›, by simpa using ‹¬s.outstanding = true›, ho,
            encodeCommand_low hc ho ‹_›⟩

/-! ## Sound states -/

/-- What holds inside an operation too: the part of the invariant that is about no position. -/
structure State.Sound (s : State) : Prop where
  cfg      : s.cfg.wellFormed = true
  base     : goodBase s.base = true
  buf      : s.buf.length = blksz
  rem      : s.rem ≤ blksz
  rca      : ∀ x, s.session = some x → x.rca = 1
  opcode   : ∀ c, s.inflight = some c → c.opcode.toNat ≤ 63
  inflight : s.outstanding = false → s.inflight = none

/-- AWAIT is not polling, and a submitted command is in flight: where an operation may end. -/
def State.Settled (s : State) : Prop := s.fsm ≠ .awaitingResponse ∧ (s.fsm = .submitting → s.inflight ≠ none)

theorem Inv.sound {s : State} (h : Inv s) : s.Sound := ⟨h.cfg, h.base, h.buf, h.rem, h.rca, h.opcode, h.inflight⟩

/-- Where no command is outstanding an operation may end. -/
theorem State.settled_of_idle {s : State} (h : s.outstanding = false) : s.Settled := by
  cases hf : s.fsm <;> simp_all [State.Settled, State.outstanding]

theorem State.settled_of_decoded {s : State} (h : s.fsm = .decoded) : s.Settled :=
  State.settled_of_idle (by simp [State.outstanding, h])

/-- What SWITCH_PART, READ_BLOCK and WRITE_BLOCK are not refused without (44_card_session.md R370). -/
theorem session_of_sessionRefusal {s : State} (h : sessionRefusal s = none) : s.session ≠ none := by
  unfold sessionRefusal at h
  split at h
  · cases h
  · split at h
    · cases h
    · simpa using ‹¬s.session.isNone = true›

variable {s : State}

namespace State.Sound

/-! Updates a sound state may make. -/

theorem emit (h : s.Sound) (e : Event) : (s.emit e).Sound := ⟨h.cfg, h.base, h.buf, h.rem, h.rca, h.opcode, h.inflight⟩
theorem script (h : s.Sound) (io : List Io) : (s.says io).Sound :=
  ⟨h.cfg, h.base, h.buf, h.rem, h.rca, h.opcode, h.inflight⟩
theorem setSeq (h : s.Sound) (q : Seq) : (s.setSeq q).Sound :=
  ⟨h.cfg, h.base, h.buf, h.rem, h.rca, h.opcode, h.inflight⟩
theorem halt (h : s.Sound) : s.halt.Sound := ⟨h.cfg, h.base, h.buf, h.rem, h.rca, h.opcode, h.inflight⟩
theorem begin (h : s.Sound) : s.begin.Sound := ⟨h.cfg, h.base, h.buf, h.rem, h.rca, h.opcode, h.inflight⟩
theorem setDone (h : s.Sound) (b : Bool) : (s.setDone b).Sound :=
  ⟨h.cfg, h.base, h.buf, h.rem, h.rca, h.opcode, h.inflight⟩
theorem setRem (h : s.Sound) {n : Nat} (hn : n ≤ blksz) : (s.setRem n).Sound :=
  ⟨h.cfg, h.base, h.buf, hn, h.rca, h.opcode, h.inflight⟩
theorem setBuf (h : s.Sound) {b : List Byte} (hb : b.length = blksz) : (s.setBuf b).Sound :=
  ⟨h.cfg, h.base, hb, h.rem, h.rca, h.opcode, h.inflight⟩
theorem dropSession (h : s.Sound) : (s.setSession none).Sound :=
  ⟨h.cfg, h.base, h.buf, h.rem, nofun, h.opcode, h.inflight⟩
theorem setSession (h : s.Sound) {x : Session} (hx : x.rca = 1) : (s.setSession (some x)).Sound :=
  ⟨h.cfg, h.base, h.buf, h.rem, fun _ hy => Option.some.inj hy ▸ hx, h.opcode, h.inflight⟩
theorem setPart (h : s.Sound) (p : Option (BitVec 3)) : (s.setPart p).Sound := by
  refine ⟨h.cfg, h.base, h.buf, h.rem, fun x hx => ?_, h.opcode, h.inflight⟩
  obtain ⟨y, hy, rfl⟩ := Option.map_eq_some_iff.1 hx
  exact h.rca y hy
theorem decodedWith (h : s.Sound) (ws : List Word) : (s.decodedWith ws).Sound :=
  ⟨h.cfg, h.base, h.buf, h.rem, h.rca, nofun, fun _ => rfl⟩
theorem failedWith (h : s.Sound) (f : Word) : (s.failedWith f).Sound :=
  ⟨h.cfg, h.base, h.buf, h.rem, h.rca, nofun, fun _ => rfl⟩
theorem setFsm (h : s.Sound) {f : Fsm} (hi : s.inflight = none) : (s.setFsm f).Sound :=
  ⟨h.cfg, h.base, h.buf, h.rem, h.rca, h.opcode, fun _ => hi⟩
theorem setFsm_awaiting (h : s.Sound) : (s.setFsm .awaitingResponse).Sound :=
  ⟨h.cfg, h.base, h.buf, h.rem, h.rca, h.opcode, nofun⟩
theorem giveUp (h : s.Sound) : ((s.setFsm .failed).setInflight none).Sound :=
  ⟨h.cfg, h.base, h.buf, h.rem, h.rca, nofun, fun _ => rfl⟩
theorem sendCommand (h : s.Sound) (hf : s.fsm = .submitting) {c : Command} (hc : c.opcode.toNat ≤ 63) (raw : Word) :
    (s.sendCommand c raw).Sound := by
  refine ⟨h.cfg, h.base, h.buf, h.rem, h.rca, fun _ hd => Option.some.inj hd ▸ hc, fun ho => ?_⟩
  exact absurd ho (by simp [State.outstanding, State.sendCommand, hf])

theorem hookUnlessTuning (h : s.Sound) (o : Word) : (s.hookUnlessTuning o).Sound := by
  unfold State.hookUnlessTuning
  split
  · exact h
  · exact h.emit _
theorem latchDone (h : s.Sound) (v : Word) : (s.latchDone v).Sound := h.setDone _
theorem warn (h : s.Sound) (st : Word) : (s.warn st).Sound := by
  unfold State.warn
  split
  · exact h.emit _
  · exact h

/-! Where an operation stops. -/

theorem endOp (h : s.Sound) (hs : s.Settled) (r : OpResult) : Inv (s.endOp r) :=
  ⟨h.cfg, h.base, h.buf, h.rem, h.rca, h.opcode, h.inflight, fun _ => ⟨rfl, hs.1, hs.2⟩, fun _ => rfl,
    fun _ ht => (Option.some_ne_none _ ht.symm).elim, fun _ ht => (Option.some_ne_none _ ht.symm).elim⟩

theorem raiseErr (h : s.Sound) (hs : s.Settled) (e : ErrKind) : Inv (s.raiseErr e) := h.endOp hs _
theorem refuse (h : s.Sound) (hs : s.Settled) (r : Reason) : Inv (s.refuse r) := h.endOp hs _
theorem fatal (h : s.Sound) (hs : s.Settled) (o : Word) : Inv (s.fatal o) := h.halt.endOp hs _

theorem stopWith (h : s.Sound) (hs : s.Settled) (r : OpResult) : Inv (s.stopWith r) := by
  cases r with
  | fatal o => exact h.fatal hs o
  | ok _ | err _ _ | refused _ => exact h.endOp hs _

theorem waitFor (h : s.Sound) (live : s.halted = false) {w : Wait} {k : Caller} (hk : k.fits s) (hw : w.fits s k)
    (hs : k = .regOp → s.Settled) : Inv (s.waitFor w k) where
  cfg := h.cfg
  base := h.base
  buf := h.buf
  rem := h.rem
  rca := h.rca
  opcode := h.opcode
  inflight := h.inflight
  between := nofun
  halted hh := absurd hh (by simp [live])
  running t ht := by
    obtain rfl := Option.some.inj ht
    exact ⟨hk, hw⟩
  regOp t ht hr := by
    obtain rfl := Option.some.inj ht
    exact hs hr

/-! What each part of an operation leaves. -/

/-- SUBMIT for a caller that fits, and that takes the outcome of a command. -/
theorem launch (h : s.Sound) (hs : s.Settled) (o a f : Word) {k : Caller} (hk : k.fits s)
    (ha : k = .submit ∨ k.awaits = true) : Inv (launch s o a f k) := by
  have hreg : k ≠ .regOp := by rintro rfl; simp [Caller.awaits] at ha
  unfold Machine.launch
  split
  · exact h.stopWith hs _
  · rename_i c raw hc
    obtain ⟨live, idle, ho, hraw⟩ := submitCheck_ok h.cfg hc
    have hi := h.inflight idle
    exact (h.setFsm (f := .submitting) hi).waitFor live hk ⟨rfl, hi, ho, hraw, ha⟩ fun hr => absurd hr hreg

/-- A failed command ends the operation it belongs to. -/
theorem commandFailed (h : s.Sound) (hs : s.Settled) (e : ErrKind) (k : Caller) : Inv (commandFailed s e k) := by
  cases k with
  | switchCmd _ | status _ _ => exact (h.setPart none).raiseErr hs _
  | _ => exact h.raiseErr hs _

/-- A block is a whole number of bursts and of chunks (43_pio_transfer.md R342). -/
theorem blksz_mod_burst (d : Dir) : blksz % d.burst = 0 := by cases d <;> decide

section AfterACommand

variable (h : s.Sound) (hf : s.fsm = .decoded)
include h hf

theorem opcondReturn {a : Word} {i : Nat} {p : OpcondFor} (hk : (Caller.opcond a i p).fits s) (w : Word) :
    Inv (opcondReturn s w p) := by
  have hs := State.settled_of_decoded hf
  obtain ⟨-, -, hk⟩ := hk
  cases p with
  | host => exact h.endOp hs _
  | probe => exact (h.setSeq .b5).launch hs _ _ _ ⟨by decide, by decide, rfl, hk.2⟩ (.inr rfl)
  | negotiate => exact (h.setSeq .b6).launch hs _ _ _ ⟨rfl, hk.2⟩ (.inr rfl)

theorem opcondNext {a : Word} {i : Nat} {p : OpcondFor} (hk : (Caller.opcond a i p).fits s) (w : Word) :
    Inv (opcondNext s a i p w) := by
  have hs := State.settled_of_decoded hf
  unfold Machine.opcondNext
  split
  · exact h.opcondReturn hf hk w
  · split
    · exact h.opcondReturn hf hk w
    · split
      · exact (h.emit (.delay opcondDelay)).launch hs _ _ _
          ⟨Nat.le_add_left 1 i, ‹i < opcondAttempts›, hk.2.2⟩ (.inr rfl)
      · exact h.raiseErr hs _

theorem switchFinish (p st : Word) : Inv (switchFinish s p st) := by
  have hs : (s.warn st).Settled := State.settled_of_decoded (by rw [State.warn_eq]; exact hf)
  unfold Machine.switchFinish
  split
  · exact (((h.warn st).emit _).setPart none).raiseErr hs _
  · exact ((h.warn st).setPart _).endOp hs _

/-- A command has succeeded: what its operation goes on with fits. -/
theorem commandDone (live : s.halted = false) (ws : List Word) {k : Caller} (hk : k.fits s) :
    Inv (commandDone s ws k) := by
  have hs := State.settled_of_decoded hf
  cases k with
  | opcond a i p => exact h.opcondNext hf hk _
  | goIdle => exact (h.setSeq .b3).launch hs _ _ _ ⟨Nat.le_refl 1, by decide, rfl, hk.2⟩ (.inr rfl)
  | sendCid ocr => exact (h.setSeq .b7).launch hs _ _ _ ⟨rfl, hk.2⟩ (.inr rfl)
  | setRca ocr cid => exact h.launch hs _ _ _ hk (.inr rfl)
  | selectCard ocr cid => exact (h.setSession rfl).endOp hs _
  | switchCmd p => exact (h.setSeq .p2).launch hs _ _ _ ⟨rfl, hk.2⟩ (.inr rfl)
  | status p polls =>
    simp only [Machine.commandDone]
    split
    · split
      · exact h.launch hs _ _ _ hk (.inr rfl)
      · exact (h.setPart none).raiseErr hs _
    · exact h.switchFinish hf _ _
  | readBlock => exact (h.setSeq .io3).waitFor live ⟨.inr rfl, hk.2⟩ ⟨hf, rfl⟩ nofun
  | writeBlock data =>
    obtain ⟨-, hx, hd⟩ := hk
    exact ((h.setSeq .io3).setBuf hd).waitFor live ⟨.inr rfl, hx, hd⟩ ⟨hf, rfl⟩ nofun
  | submit | await | cmd | pio | regOp => exact h.endOp hs _

end AfterACommand

section Answers

variable (h : s.Sound) (live : s.halted = false) {k : Caller} (hk : k.fits s)
include h live hk

theorem submitBusy {c : Command} {raw : Word} {n : Nat} (hw : (Wait.busy c raw n).fits s k) (v : Word) :
    Inv (submitBusy s c raw n k v) := by
  obtain ⟨hf, hi, ho, hraw, ha⟩ := hw
  have hreg : k ≠ .regOp := by rintro rfl; simp [Caller.awaits] at ha
  unfold Machine.submitBusy
  split
  · split
    · exact (h.sendCommand hf ho raw).endOp ⟨by simp [State.sendCommand, hf], nofun⟩ _
    · exact (h.sendCommand hf ho raw).waitFor live hk ⟨hf, rfl, ha.resolve_left ‹_›⟩ fun hr => absurd hr hreg
  · split
    · exact h.waitFor live hk ⟨hf, hi, ho, hraw, ha⟩ fun hr => absurd hr hreg
    · exact (h.setFsm (f := .failed) hi).commandFailed ⟨nofun, nofun⟩ _ _

/-- The response reads left are the last of those of K_R2, the longest response. -/
theorem readResponse (hf : s.fsm = .awaitingResponse) (hi : s.inflight ≠ none) (ha : k.awaits = true)
    {regs : List Word} (hr : regs <:+ respRegs .kR2) (got : List Word) : Inv (readResponse s regs got k) := by
  cases regs with
  | nil => exact (h.decodedWith got).commandDone rfl live _ hk
  | cons off more => exact h.waitFor live hk ⟨hf, hi, ha, hr⟩ (by rintro rfl; cases ha)

theorem awaitPoll {c : Command} {n : Nat} (hw : (Wait.poll c n).fits s k) (v : Word) :
    Inv (awaitPoll s c n k v) := by
  obtain ⟨hf, hi, ha⟩ := hw
  have hregs : respRegs c.kind <:+ respRegs .kR2 := by cases c.kind <;> decide
  unfold Machine.awaitPoll
  simp only
  split
  · split
    · exact h.waitFor live hk ⟨hf, hi, ha⟩ (by rintro rfl; cases ha)
    · exact h.giveUp.commandFailed ⟨nofun, nofun⟩ _ _
  · split
    · exact (((h.emit _).failedWith _).emit _ |>.hookUnlessTuning c.opcode).commandFailed
        (State.settled_of_idle (by rw [State.hookUnlessTuning_eq]; rfl)) _ _
    · exact (h.emit _).readResponse live hk hf (by simp [hi]) ha hregs _

end Answers

section Transfers

variable (h : s.Sound) (live : s.halted = false) {k : Caller} (hk : k.fits s) (hf : s.fsm = .decoded)
include h live hk hf

theorem pioHead {p : PioPos} (ht : k.transfers p.dir = true) (hm : s.rem % p.dir.burst = 0) :
    Inv (pioHead s p k) := by
  have hs := State.settled_of_decoded hf
  unfold Machine.pioHead
  split
  · exact h.waitFor live hk ⟨hf, ht, hm, ‹_›⟩ fun _ => hs
  · split
    · exact h.endOp hs _
    · split
      · exact h.waitFor live hk ⟨hf, ht, hm⟩ fun _ => hs
      · exact h.raiseErr hs _

omit live hk in
theorem pioFail (v : Word) (c : Bool) : Inv (pioFail s v c) :=
  ((h.emit _).emit _).raiseErr (State.settled_of_decoded hf) _

theorem pioStatus {p : PioPos} (ht : k.transfers p.dir = true) (hm : s.rem % p.dir.burst = 0) (v : Word) :
    Inv (pioStatus s p k v) := by
  unfold Machine.pioStatus
  split
  · exact h.pioFail hf _ _
  · rw [State.ackTransfer_eq]
    exact ((h.latchDone v).script _).pioHead live hk hf ht hm

/-- A burst is 16 reads, of 64 bytes or more that are left (43_pio_transfer.md R333); a chunk is 32 writes, of 128 or more
(R339). -/
theorem pioFifo {p : PioPos} (ht : k.transfers p.dir = true) (hm : s.rem % p.dir.burst = 0)
    (hr : 0 < s.rem) (v : Word) : Inv (pioFifo s p k v) := by
  have hs := State.settled_of_decoded hf
  have recheck : Inv (s.waitFor (.pioRecheck p) k) := h.waitFor live hk ⟨hf, ht, hm, hr⟩ fun _ => hs
  obtain ⟨dir, outer, inner⟩ := p
  unfold Machine.pioFifo
  cases dir with
  | rx =>
    replace hm : s.rem % 64 = 0 := hm
    have h64 : fifoThreshold = 64 := rfl
    dsimp only
    split
    · exact h.waitFor live hk ⟨hf, ht, rfl, by decide, by decide, by omega, by omega⟩ fun _ => hs
    · split
      · omega
      · exact recheck
  | tx =>
    replace hm : s.rem % 128 = 0 := hm
    dsimp only
    split
    · have h32 : min fifoSize s.rem / 4 = 32 := by unfold fifoSize; omega
      have := h.rem
      rw [h32, pioPush_eq 32 h.rem (by omega)]
      exact ((h.script _).setRem (by omega)).pioHead live hk hf ht (show (s.rem - 128) % 128 = 0 by omega)
    · exact recheck

theorem pioDrain {p : PioPos} {left : Nat} (hw : (Wait.pioDrain p left).fits s k) (v : Word) :
    Inv (pioDrain s p k left v) := by
  obtain ⟨-, ht, hd, h1, h16, hl, hm⟩ := hw
  have hst : (s.storeWord v).Sound :=
    (h.setBuf ((length_setWordAt _ _ _).trans h.buf)).setRem (Nat.le_trans (Nat.sub_le _ _) h.rem)
  have hrem : (s.storeWord v).rem = s.rem - 4 := rfl
  unfold Machine.pioDrain
  split
  · refine hst.pioHead live hk hf ht ?_
    rw [hd, hrem]
    show (s.rem - 4) % 64 = 0
    omega
  · exact hst.waitFor live hk ⟨hf, ht, hd, by omega, by omega, by omega, by omega⟩
      fun _ => State.settled_of_decoded hf

theorem pioRecheck {p : PioPos} (hw : (Wait.pioRecheck p).fits s k) (v : Word) :
    Inv (pioRecheck s p k v) := by
  have hs := State.settled_of_decoded hf
  unfold Machine.pioRecheck
  split
  · exact h.pioFail hf _ _
  · split
    · exact h.waitFor live hk hw fun _ => hs
    · exact h.raiseErr hs _

end Transfers

/-- Every answer to a wait that fits. -/
theorem resume (h : s.Sound) (live : s.halted = false) {w : Wait} {k : Caller} (hk : k.fits s) (hw : w.fits s k)
    (hs : k = .regOp → s.Settled) (v : Word) : Inv (resume ⟨w, k⟩ v s) := by
  cases w with
  | regRead off => exact h.endOp (hs hw.2) _
  | setBits off m | clearBits off m => exact (h.emit _).endOp (hs hw.2) _
  | cfgEnable => exact ((h.emit _).emit _).waitFor live hk hw hs
  | cfgMode =>
    obtain ⟨rfl, -, idle⟩ := hw
    exact (((h.emit _).emit _).setSeq .b2).launch (State.settled_of_idle idle) _ _ _ ⟨.inr rfl, hk.2⟩ (.inr rfl)
  | busy c raw n => exact h.submitBusy live hk hw v
  | awaitClear c =>
    obtain ⟨-, hi, ha⟩ := hw
    exact (h.emit _).setFsm_awaiting.waitFor live hk ⟨rfl, hi, ha⟩ (by rintro rfl; cases ha)
  | poll c n => exact h.awaitPoll live hk hw v
  | resp off more got =>
    obtain ⟨hf, hi, ha, hr⟩ := hw
    exact h.readResponse live hk hf hi ha ((List.suffix_cons off more).trans hr) _
  | pioClear dir =>
    obtain ⟨hf, ht⟩ := hw
    exact (((h.emit _).setRem (Nat.le_refl _)).setDone false).waitFor live hk ⟨hf, ht, blksz_mod_burst dir⟩
      fun _ => State.settled_of_decoded hf
  | pioRearm p => exact (h.emit _).waitFor live hk hw fun _ => State.settled_of_decoded hw.1
  | pioStatus p =>
    obtain ⟨hf, ht, hm⟩ := hw
    exact h.pioStatus live hk hf ht hm v
  | pioFifo p =>
    obtain ⟨hf, ht, hm, hr⟩ := hw
    exact h.pioFifo live hk hf ht hm hr v
  | pioDrain p left => exact h.pioDrain live hk hw.1 hw v
  | pioRecheck p => exact h.pioRecheck live hk hw.1 hw v

/-- Every beginning but CONSTRUCT's, of a decoded instruction between operations. -/
theorem startOf (h : s.Sound) (hs : s.Settled) (live : s.halted = false) (hq : s.seq = .s0) {i : Instr}
    (hc : ∀ b, i ≠ .construct b) (hb : i.blockLength) : Inv (startOf i s) := by
  cases i with
  | construct b => exact absurd rfl (hc b)
  | regRead _ | regSetBits _ _ | regClearBits _ _ =>
    simp only [Machine.startOf]
    split
    · exact h.waitFor live hq ⟨‹_›, rfl⟩ fun _ => hs
    · exact h.refuse hs _
  | regWrite reg v =>
    simp only [Machine.startOf]
    split
    · exact (h.emit _).endOp hs _
    · exact h.refuse hs _
  | classify o a f =>
    simp only [Machine.startOf]
    split
    · exact h.endOp hs _
    · exact h.refuse hs _
  | encode o a k f =>
    simp only [Machine.startOf]
    split
    · exact h.refuse hs _
    · split
      · split
        · exact h.endOp hs _
        · exact h.fatal hs _
      · exact h.refuse hs _
  | submit o a f => exact h.launch hs _ _ _ hq (.inl rfl)
  | await =>
    simp only [Machine.startOf]
    split
    · rename_i c hf hi
      exact h.waitFor live hq ⟨hf, hi, rfl⟩ nofun
    · exact h.refuse hs _
  | pioRead =>
    simp only [Machine.startOf]
    split
    · exact h.waitFor live hq ⟨‹_›, rfl⟩ nofun
    · exact h.refuse hs _
  | pioWrite d =>
    simp only [Machine.startOf]
    split
    · exact (h.setBuf hb).waitFor live hq ⟨‹s.fsm = .decoded›, rfl⟩ nofun
    · exact h.refuse hs _
  | bringup =>
    simp only [Machine.startOf]
    split
    · exact h.refuse hs _
    · exact (h.dropSession.setSeq .b1).waitFor live ⟨.inl rfl, rfl⟩
        ⟨rfl, rfl, by simpa using ‹¬s.outstanding = true›⟩ nofun
  | opcondLoop a => exact h.launch hs _ _ _ ⟨Nat.le_refl 1, by decide, hq⟩ (.inr rfl)
  | ffs _ | selectWindow _ => exact h.endOp hs _
  | switchPart p =>
    simp only [Machine.startOf]
    split
    · exact h.refuse hs _
    · split
      · exact h.refuse hs _
      · exact (h.setSeq .p1).launch hs _ _ _ ⟨rfl, session_of_sessionRefusal ‹_›, Nat.le_of_not_lt ‹_›⟩ (.inr rfl)
  | readBlock a =>
    simp only [Machine.startOf]
    split
    · exact h.refuse hs _
    · exact (((h.setSeq .io1).emit _).setSeq .io2).launch hs _ _ _ ⟨.inl rfl, session_of_sessionRefusal ‹_›⟩ (.inr rfl)
  | writeBlockOp a d =>
    simp only [Machine.startOf]
    split
    · exact h.refuse hs _
    · exact (((h.setSeq .io1).emit _).setSeq .io2).launch hs _ _ _ ⟨.inl rfl, session_of_sessionRefusal ‹_›, hb⟩
        (.inr rfl)
  | resetHook => exact (h.emit _).endOp hs _
  | deviceReset => exact h.dropSession.endOp hs _
  | _ => exact h.launch hs _ _ _ hq (.inr rfl)

end State.Sound

/-! ## Every step -/

/-- Construction leaves the invariant, whatever free values REM, DONE and BUF take (10_state.md R133, R155). -/
theorem Inv.constructed {t : State} (hc : t.cfg.wellFormed = true) (hb : goodBase t.base = true)
    (hbuf : t.buf.length = blksz) (hrem : t.rem ≤ blksz) (hi : t.inflight = none) (hf : t.fsm = .idle)
    (hq : t.seq = .s0) (hx : t.session = none) (ht : t.task = none) : Inv t where
  cfg := hc
  base := hb
  buf := hbuf
  rem := hrem
  rca := by simp [hx]
  opcode := by simp [hi]
  inflight _ := hi
  between _ := ⟨hq, by simp [hf], by simp [hf]⟩
  halted _ := ht
  running := by simp [ht]
  regOp := by simp [ht]

/-- An answer keeps the invariant. -/
theorem Inv.answer {t : Task} (h : Inv s) (ht : s.task = some t) (v : Word) : Inv (answer t v s) := by
  obtain ⟨w, k⟩ := t
  have live : s.halted = false := by
    cases hh : s.halted with
    | false => rfl
    | true => exact absurd ((h.halted hh).symm.trans ht) nofun
  obtain ⟨hk, hw⟩ := h.running _ ht
  exact (h.sound.emit _).resume live hk hw (h.regOp _ ht) v

theorem Inv.setEnv (h : Inv s) (vs : List Word) : Inv (s.setEnv vs) :=
  ⟨h.cfg, h.base, h.buf, h.rem, h.rca, h.opcode, h.inflight, h.between, h.halted, h.running, h.regOp⟩
theorem Inv.setRequests (h : Inv s) (rs : List Request) : Inv (s.setRequests rs) :=
  ⟨h.cfg, h.base, h.buf, h.rem, h.rca, h.opcode, h.inflight, h.between, h.halted, h.running, h.regOp⟩
theorem Inv.spendFree (h : Inv s) : Inv s.spendFree :=
  ⟨h.cfg, h.base, h.buf, h.rem, h.rca, h.opcode, h.inflight, h.between, h.halted, h.running, h.regOp⟩

theorem Inv.drive (h : Inv s) (vs : List Word) : Inv (drive vs s) :=
  drive_keeps (fun _ _ v h ht => h.answer ht v) (fun _ vs h => h.setEnv vs) vs s h

theorem Inv.stepTask {t : Task} (h : Inv s) (ht : s.task = some t) : Inv (stepTask t s) := by
  unfold Machine.stepTask
  split
  · exact h.spendFree.answer ht _
  · exact h.drive _

/-- A decoded instruction keeps the invariant. -/
theorem Inv.exec {t : State} {i : Instr} (h : Inv s) (ht : s.task = none) (hb : i.blockLength)
    (he : exec i s = .next t) : Inv t := by
  obtain ⟨hq, hs⟩ := h.between ht
  by_cases hc : ∃ b, i = .construct b
  · obtain ⟨b, rfl⟩ := hc
    simp only [Machine.exec, execConstruct] at he
    split at he
    · cases he
      exact .constructed h.cfg ‹_› (by simp) (Nat.le_of_lt_succ (Fin.isLt _)) rfl rfl rfl rfl rfl
    · cases he
      exact h.sound.refuse hs _
  · rw [exec_eq_hostOp (not_exists.1 hc)] at he
    simp only [hostOp, Host.Outcome.next.injEq] at he
    subst he
    refine Inv.drive ?_ _
    split
    · exact h.sound.begin.refuse hs _
    · exact h.sound.begin.startOf hs (by simpa using ‹¬s.halted = true›) hq (not_exists.1 hc) hb

/-- Settles O55: a step goes on with the running operation, waits, or executes a decoded request; each keeps the
invariant. -/
theorem stepKeepsTheInvariant : Obligations.StepKeepsTheInvariant := by
  intro s t h hst
  cases ht : s.task with
  | some x =>
    rw [step_running ht] at hst
    cases hst
    exact h.stepTask ht
  | none =>
    obtain rfl | ⟨r, rs, i, -, hd, he⟩ := step_idle ht hst
    · exact h
    · exact (h.setRequests rs).exec ht (decode_blockLength hd) he

/-- Settles O54: the reset state is a constructed one. -/
theorem invariantHoldsAtReset : Obligations.InvariantHoldsAtReset :=
  .constructed (by decide) (by decide) List.length_replicate (Nat.zero_le _) rfl rfl rfl rfl rfl

end Sys2Proof.Machine
end

section
/-! SUPPORT. Where a step comes from, what the register operations take, and what is refused while a command is
outstanding (10_state.md R136, R155, R158; 42_command_response_engine.md R301). -/

namespace Sys2Proof.Machine

/-- Settles O6: taking the request off the queue is the one update before `exec`. -/
theorem stepRunsTheDecodedRequest : Obligations.StepRunsTheDecodedRequest := by
  intro s r rs i ht hr hd
  simp only [step, ht, hr, hd]
  rfl

/-- With answers queued a running operation goes on with all of them. -/
theorem stepTask_queued {t : Task} {s : State} (h : s.env ≠ []) : stepTask t s = drive s.env s := by
  unfold stepTask
  split
  · contradiction
  · rfl

/-- With none queued it goes on with one free answer (log entry 5). -/
theorem stepTask_free {t : Task} {s : State} (h : s.env = []) :
    stepTask t s = answer t (Config.freeAnswer s.freeCount) s.spendFree := by
  unfold stepTask
  split
  · rfl
  · simp_all

/-- Settles O7: by the answers queued, and by whether an operation runs at all. -/
theorem stepGoesOnOrWaits : Obligations.StepGoesOnOrWaits := by
  refine ⟨fun s t ht he => ?_, fun s t ht he => ?_, fun s ht hr => ?_⟩
  · rw [step_running ht, stepTask_queued he]
  · rw [step_running ht, stepTask_free he]
    rfl
  · simp only [step, ht, hr]

/-- Settles O53: field by field, and the reset state is the construction with the default parameters. -/
theorem constructionLeavesTheEngineIdle : Obligations.ConstructionLeavesTheEngineIdle :=
  ⟨fun _ _ => ⟨rfl, rfl, rfl, rfl, rfl, rfl, rfl, rfl⟩, defaultConfig, resetBase, rfl⟩

/-- Settles O12: the registers named, the ranges and the gaps make up the cells of the map; a register operation outside
it ends at once. -/
theorem registerMapIsEnforced : Obligations.RegisterMapIsEnforced := by
  refine ⟨fun reg => ?_, fun s reg x hs hm => ?_⟩
  · rw [inMap_iff]
    simp only [List.mem_cons, List.not_mem_nil, or_false, ← BitVec.toNat_inj, BitVec.reduceToNat]
    omega
  · have refused {i : Instr} (hc : ∀ b, i ≠ .construct b) (hi : startOf i s.begin = s.begin.refuse .badRegister) :
        exec i s = .next { s with result := some (.refused .badRegister) } := by
      rw [exec_eq_hostOp hc]
      exact hostOp_ends hs hi
    refine ⟨refused nofun ?_, refused nofun ?_, refused nofun ?_, refused nofun ?_⟩ <;> simp [startOf, hm]

/-- SUBMIT is refused while a command is outstanding. -/
theorem launch_outstanding {s : State} (hh : s.halted = false) (ho : s.outstanding = true) (o a f : Word) (k : Caller) :
    launch s o a f k = s.refuse .commandOutstanding := by
  simp [launch, submitCheck, hh, ho, State.stopWith, State.refuse]

/-- Settles O33: each of these operations begins with SUBMIT's check or with the same check of its own. -/
theorem oneCommandOutstanding : Obligations.OneCommandOutstanding := by
  intro s i hs hf hi
  have ho : s.begin.outstanding = true := by
    obtain hf | hf := hf <;> simp [State.outstanding, hf]
  have sub (o a f : Word) (k : Caller) : launch s.begin o a f k = s.begin.refuse .commandOutstanding :=
    launch_outstanding (s := s.begin) hs.2.2 ho o a f k
  have own : sessionRefusal s.begin = some .commandOutstanding := by simp only [sessionRefusal, ho, if_true]
  have refused {i : Instr} (hc : ∀ b, i ≠ .construct b) (hi : startOf i s.begin = s.begin.refuse .commandOutstanding) :
      exec i s = .next { s with result := some (.refused .commandOutstanding) } := by
    rw [exec_eq_hostOp hc]
    exact hostOp_ends hs hi
  obtain hi | ⟨o, a, f, rfl | rfl⟩ | rfl | ⟨a, rfl⟩ | ⟨p, rfl⟩ | ⟨a, rfl⟩ | ⟨a, d, rfl⟩ := hi
  · obtain ⟨⟨o, a, f⟩, hi⟩ := Option.isSome_iff_exists.1 hi
    rw [exec_command hi]
    exact refused nofun (sub o a f .cmd)
  · exact refused nofun (sub o a f .submit)
  · exact refused nofun (sub o a f .cmd)
  · exact refused nofun (by simp only [startOf, ho, if_true])
  · exact refused nofun (sub _ _ _ _)
  · exact refused nofun (by simp only [startOf, own])
  · exact refused nofun (by simp only [startOf, own])
  · exact refused nofun (by simp only [startOf, own])

end Sys2Proof.Machine
end

section
/-! SUPPORT. The answers still queued are data of the run, not of the engine: no answer and no beginning reads or writes
them, so both commute with `setEnv`, and a run over `xs ++ ys` is a run over `xs` and then one over `ys`
(20_memory.md R182, R189). -/

namespace Sys2Proof.Machine

section

variable (s : State) (vs : List Word)

/-- What is queued passes through a case split. -/
theorem ite_setEnv {c : Prop} [Decidable c] (t u : State) :
    (if c then t else u).setEnv vs = if c then t.setEnv vs else u.setEnv vs := apply_ite (State.setEnv · vs) c t u

@[simp] theorem submitCheck_setEnv (o a f : Word) : submitCheck (s.setEnv vs) o a f = submitCheck s o a f := rfl

@[simp] theorem sessionRefusal_setEnv : sessionRefusal (s.setEnv vs) = sessionRefusal s := rfl

theorem stopWith_setEnv (r : OpResult) : (s.stopWith r).setEnv vs = (s.setEnv vs).stopWith r := by
  cases r <;> rfl

theorem launch_setEnv (o a f : Word) (k : Caller) : (launch s o a f k).setEnv vs = launch (s.setEnv vs) o a f k := by
  simp only [launch, submitCheck_setEnv]
  split
  · exact stopWith_setEnv _ _ _
  · rfl

theorem opcondReturn_setEnv (w : Word) (p : OpcondFor) :
    (opcondReturn s w p).setEnv vs = opcondReturn (s.setEnv vs) w p := by
  cases p with
  | host => rfl
  | probe | negotiate => exact launch_setEnv _ _ _ _ _ _

theorem opcondNext_setEnv (a : Word) (i : Nat) (p : OpcondFor) (w : Word) :
    (opcondNext s a i p w).setEnv vs = opcondNext (s.setEnv vs) a i p w := by
  simp only [opcondNext, opcondAttempt, ite_setEnv, opcondReturn_setEnv, launch_setEnv]
  rfl

theorem switchFinish_setEnv (p st : Word) : (switchFinish s p st).setEnv vs = switchFinish (s.setEnv vs) p st := by
  simp only [switchFinish, State.warn_eq, ite_setEnv]
  rfl

theorem commandDone_setEnv (ws : List Word) (k : Caller) :
    (commandDone s ws k).setEnv vs = commandDone (s.setEnv vs) ws k := by
  cases k with
  | opcond a i p => exact opcondNext_setEnv _ _ _ _ _ _
  | goIdle | sendCid | setRca | switchCmd => exact launch_setEnv _ _ _ _ _ _
  | status p polls =>
    simp only [commandDone, sendStatusPoll, ite_setEnv, launch_setEnv, switchFinish_setEnv]
    rfl
  | submit | await | cmd | selectCard | readBlock | writeBlock | pio | regOp => rfl

theorem commandFailed_setEnv (e : ErrKind) (k : Caller) :
    (commandFailed s e k).setEnv vs = commandFailed (s.setEnv vs) e k := by
  cases k <;> rfl

theorem readResponse_setEnv (regs got : List Word) (k : Caller) :
    (readResponse s regs got k).setEnv vs = readResponse (s.setEnv vs) regs got k := by
  cases regs with
  | nil => exact commandDone_setEnv _ _ _ _
  | cons => rfl

theorem pioHead_setEnv (p : PioPos) (k : Caller) : (pioHead s p k).setEnv vs = pioHead (s.setEnv vs) p k := by
  simp only [pioHead, ite_setEnv]
  rfl

theorem pioBurst_setEnv (p : PioPos) (k : Caller) (n : Nat) :
    (pioBurst s p k n).setEnv vs = pioBurst (s.setEnv vs) p k n := by
  simp only [pioBurst, ite_setEnv, pioHead_setEnv]
  rfl

theorem pioPush_setEnv (n : Nat) (s : State) : (pioPush n s).setEnv vs = pioPush n (s.setEnv vs) := by
  induction n generalizing s with
  | zero => rfl
  | succ n ih => exact ih _

/-- What MMCHE does with an answer does not depend on the answers behind it. -/
theorem resume_setEnv (t : Task) (v : Word) : (resume t v s).setEnv vs = resume t v (s.setEnv vs) := by
  obtain ⟨w, k⟩ := t
  cases w with
  | regRead | setBits | clearBits | cfgEnable | awaitClear | pioClear | pioRearm => rfl
  | cfgMode => exact launch_setEnv _ _ _ _ _ _
  | busy c raw n =>
    simp only [resume, submitBusy, ite_setEnv, commandFailed_setEnv]
    rfl
  | poll c n =>
    simp only [resume, awaitPoll, awaitFail, State.hookUnlessTuning_eq, ite_setEnv, commandFailed_setEnv,
      readResponse_setEnv]
    rfl
  | resp off more got => exact readResponse_setEnv _ _ _ _ _
  | pioStatus p =>
    simp only [resume, pioStatus, State.ackTransfer_eq, ite_setEnv, pioHead_setEnv]
    rfl
  | pioFifo p =>
    obtain ⟨d, o, i⟩ := p
    cases d with
    | rx =>
      simp only [resume, pioFifo, ite_setEnv, pioBurst_setEnv]
      rfl
    | tx =>
      simp only [resume, pioFifo, ite_setEnv, pioHead_setEnv, pioPush_setEnv]
      rfl
  | pioDrain p left =>
    simp only [resume, pioDrain, ite_setEnv, pioHead_setEnv]
    rfl
  | pioRecheck p =>
    simp only [resume, pioRecheck, ite_setEnv]
    rfl

theorem answer_setEnv (t : Task) (v : Word) : (answer t v s).setEnv vs = answer t v (s.setEnv vs) :=
  resume_setEnv _ _ _ _

/-- What an operation does before its first read does not depend on the answers queued. -/
theorem startOf_setEnv (i : Instr) : (startOf i s).setEnv vs = startOf i (s.setEnv vs) := by
  cases i with
  | regRead | regWrite | regSetBits | regClearBits | pioRead | pioWrite | bringup =>
    simp only [startOf, ite_setEnv]
    rfl
  | classify o a f =>
    simp only [startOf, State.setEnv_cfg]
    split <;> rfl
  | encode o a k f =>
    simp only [startOf, State.setEnv_cfg]
    split
    · rfl
    · split
      · split <;> rfl
      · rfl
  | await =>
    simp only [startOf, State.setEnv_fsm, State.setEnv_inflight]
    split <;> rfl
  | switchPart p =>
    simp only [startOf, sessionRefusal_setEnv]
    split
    · rfl
    · split
      · rfl
      · exact launch_setEnv _ _ _ _ _ _
  | readBlock | writeBlockOp =>
    simp only [startOf, sessionRefusal_setEnv]
    split
    · rfl
    · exact launch_setEnv _ _ _ _ _ _
  | construct | ffs | selectWindow | resetHook | deviceReset => rfl
  | _ => exact launch_setEnv _ _ _ _ _ _

/-- A run consumes the answers it is given, whatever is queued in its state. -/
theorem drive_setEnv (ws : List Word) : drive ws (s.setEnv vs) = drive ws s := by
  induction ws generalizing s with
  | nil => rfl
  | cons v ws ih =>
    cases ht : s.task with
    | none => rw [drive_ended ht, drive_ended (s := s.setEnv vs) ht, State.setEnv_setEnv]
    | some t => rw [drive_cons ht, drive_cons (s := s.setEnv vs) ht, ← answer_setEnv, ih]

/-- An operation that the answers `xs` do not end goes on with `ys` as if both had been there. -/
theorem drive_append (xs ys : List Word) (h : (drive xs s).task ≠ none) :
    drive (xs ++ ys) s = drive ys (drive xs s) := by
  induction xs generalizing s with
  | nil => exact (drive_setEnv s [] ys).symm
  | cons v xs ih =>
    cases ht : s.task with
    | none =>
      rw [drive_ended ht] at h
      exact absurd ht h
    | some t =>
      rw [drive_cons ht] at h ⊢
      rw [List.cons_append, drive_cons ht, ih _ h]

/-- A step that goes on with answers queued is the run over them, whatever was queued before. -/
theorem step_setEnv {ys : List Word} (hs : s.task ≠ none) (hy : ys ≠ []) :
    step (s.setEnv ys) = .next (drive ys s) := by
  obtain ⟨t, ht⟩ := Option.ne_none_iff_exists'.mp hs
  rw [step_running (s := s.setEnv ys) ht, stepTask_queued (by exact hy), State.setEnv_env, drive_setEnv]

/-- An operation that begins with the answers `ws` queued is the same run whatever was queued before. -/
theorem exec_setEnv {i : Instr} (hi : ∀ b, i ≠ .construct b) (ws : List Word) :
    exec i (s.setEnv ws) = .next (drive ws (if s.halted then s.begin.refuse .halted else startOf i s.begin)) := by
  rw [exec_eq_hostOp hi, ← drive_setEnv _ ws, ite_setEnv, startOf_setEnv]
  rfl

/-- CONSTRUCT leaves no operation running. -/
theorem exec_construct_ends {t : State} {b : Word} (h : exec (.construct b) s = .next t) : t.task = none := by
  simp only [exec, execConstruct] at h
  split at h <;> (cases h; rfl)

end

/-- Settles O8: a step that goes on and a step that begins are each one run over the answers queued, and a run that the
first part does not end is cut there. -/
theorem answersMayArriveInParts : Obligations.AnswersMayArriveInParts := by
  refine ⟨fun s u xs ys hs hx hy h hu => ?_, fun i s u xs ys hy h hu => ?_⟩
  · have run {ws : List Word} (hw : ws ≠ []) : step { s with env := ws } = .next (drive ws s) := step_setEnv s hs hw
    rw [run hx] at h
    cases h
    rw [run (List.append_ne_nil_of_left_ne_nil hx ys), drive_append s xs ys hu]
    exact (step_setEnv _ hu hy).symm
  · have hi : ∀ b, i ≠ .construct b := by
      rintro b rfl
      exact hu (exec_construct_ends _ h)
    have run (ws : List Word) : exec i { s with env := ws } = _ := exec_setEnv s hi ws
    rw [run] at h
    cases h
    rw [run, drive_append _ xs ys hu]
    exact (step_setEnv _ hu hy).symm

end Sys2Proof.Machine
end

section
/-! SUPPORT. What the codec refuses, and what the decoder makes of a command word and of a tag (30_encoding.md R201, R202,
R207, R217, R224). -/

namespace Sys2Proof

open Machine

/-! ## Refusals of the codec -/

theorem classify_of_operandRefusal {cfg : Config} {o a f : Word} {r : Reason} (h : operandRefusal cfg o f = some r) :
    classify cfg o a f = .error r := by
  simp only [classify, h]

/-- Under the default layout a bit above bit 6 is outside every mask (30_encoding.md R207). -/
theorem unlisted_flags_ne_zero {f : Word} (h : 128 ≤ f.toNat) : f &&& ~~~(fValidMask defaultFlagLayout) ≠ 0 := by
  intro h0
  have hsplit : f = f &&& 0x7F ||| f &&& ~~~0x7F := by
    rw [← BitVec.and_or_distrib_left, BitVec.or_not_self, BitVec.and_allOnes]
  have hf : f = f &&& 0x7F := by
    rw [show f &&& ~~~0x7F = 0 from h0] at hsplit
    exact hsplit.trans BitVec.or_zero
  have hle : (f &&& 0x7F).toNat ≤ 127 := by
    rw [BitVec.toNat_and]
    exact Nat.and_le_right
  rw [← hf] at hle
  omega

/-- Settles O15: the opcode is looked at before the flags (log entry 18). -/
theorem badOperandsAreRefused : Obligations.BadOperandsAreRefused := by
  intro cfg o a f hl
  have opcode (ho : 63 < o.toNat) : classify cfg o a f = .error .badOpcode :=
    classify_of_operandRefusal (by rw [operandRefusal, if_pos ho])
  refine ⟨fun ho _ => opcode ho, fun ho hf => classify_of_operandRefusal ?_, fun ho _ => .inl (opcode ho)⟩
  rw [operandRefusal, if_neg (Nat.not_lt.2 ho), hl, if_pos (unlisted_flags_ne_zero hf)]

/-- Settles O5: the decoder compares a tag with each one listed; a step decodes the request before it runs anything. -/
theorem undecodableRequestFaults : Obligations.UndecodableRequestFaults := by
  refine ⟨fun tag rest ht => ?_, fun s r rs why ht hr hd => ?_⟩
  · simp only [List.mem_cons, List.not_mem_nil, or_false, not_or] at ht
    simp only [decode, decodeHostOp, ht, if_false]
  · simp only [step, ht, hr, hd]

/-! ## Rows of the command table -/

/-- No two rows but GENERIC have patterns that agree where both masks look. -/
theorem commandRows_eq_of_agree : ∀ r ∈ commandRows, ∀ r' ∈ commandRows, r.name ≠ .generic → r'.name ≠ .generic →
    r.pattern &&& r'.mask = r'.pattern &&& r.mask → r = r' := by
  decide

/-- Settles O4: the two patterns are the word under the two masks, so they agree under both. -/
theorem commandRowsAreDisjoint : Obligations.CommandRowsAreDisjoint := by
  intro raw r r' hr hr' hn hn' h h'
  refine commandRows_eq_of_agree r hr r' hr' hn hn' ?_
  rw [← h, ← h', BitVec.and_assoc, BitVec.and_assoc, BitVec.and_comm r.mask]

/-- The row of a word stands in the table and the word matches it. -/
theorem rowOf_some {raw : Word} {n : RowName} (h : rowOf raw = some n) :
    ∃ r ∈ commandRows, r.name = n ∧ raw &&& r.mask = r.pattern := by
  obtain ⟨r, hr, hn⟩ := Option.map_eq_some_iff.1 h
  exact ⟨r, List.mem_of_find?_eq_some hr, hn, by simpa using List.find?_some hr⟩

/-- Every row but GENERIC fixes OPC, to an opcode with a rule of its own. -/
theorem commandRows_fix_opc : ∀ r ∈ commandRows, r.name ≠ .generic →
    r.mask &&& 0x3F = 0x3F ∧ r.pattern &&& 0x3F ∈ ruledOpcodes := by
  decide

/-- The opcode of the command a row stands for is the OPC of its pattern. -/
theorem commandRows_opcode : ∀ r ∈ commandRows, r.name ≠ .generic →
    (commandOfRow 0 0 0 r.name).command.map Prod.fst = some (r.pattern &&& 0x3F) := by
  decide

/-- No row but GENERIC takes its opcode from the word or from the operands. -/
theorem commandOfRow_opcode_const {n : RowName} (hn : n ≠ .generic) (raw arg flags : Word) :
    (commandOfRow raw arg flags n).command.map Prod.fst = (commandOfRow 0 0 0 n).command.map Prod.fst := by
  cases n
  case generic => exact absurd rfl hn
  all_goals rfl

/-- A word of a row but GENERIC has the OPC of the row's pattern. -/
theorem opc_of_match {raw : Word} {r : Row} (hr : r ∈ commandRows) (hn : r.name ≠ .generic)
    (h : raw &&& r.mask = r.pattern) : raw &&& 0x3F = r.pattern &&& 0x3F := by
  rw [← h, BitVec.and_assoc, (commandRows_fix_opc r hr hn).1]

/-- OPC, read as an opcode, is bits 5:0 (30_encoding.md R226). -/
theorem setWidth_rawOpc (raw : Word) : (rawOpc raw).setWidth 32 = raw &&& 0x3F := by
  apply BitVec.eq_of_toNat_eq
  rw [BitVec.toNat_and, rawOpc, BitVec.toNat_setWidth, BitVec.toNat_setWidth]
  exact (Nat.mod_eq_of_lt (by omega)).trans (Nat.and_two_pow_sub_one_eq_mod _ 6).symm

/-- The command a word's row stands for has the word's OPC as its opcode. -/
theorem commandOfRow_opcode {raw : Word} {n : RowName} (h : rowOf raw = some n) (arg flags : Word) :
    (commandOfRow raw arg flags n).command.map Prod.fst = some ((rawOpc raw).setWidth 32) := by
  by_cases hn : n = .generic
  · rw [hn]
    rfl
  · obtain ⟨r, hr, rfl, hm⟩ := rowOf_some h
    rw [commandOfRow_opcode_const hn, commandRows_opcode r hr hn, setWidth_rawOpc, opc_of_match hr hn hm]

/-- Settles O3: the decoder checks the instruction before it gives it, and the row of the word has the word's OPC as its
opcode. -/
theorem decodedCommandIsWellFormed : Obligations.DecodedCommandIsWellFormed := by
  intro bytes i h
  simp only [decode] at h
  split at h
  · rename_i raw rest hw
    obtain ⟨arg, flags, h⟩ := with2_ok h
    obtain ⟨n, hn, rfl, hwf, -⟩ := decodeCommand_ok h
    obtain ⟨⟨o, a, f⟩, hc, rfl⟩ := Option.map_eq_some_iff.1 (commandOfRow_opcode hn arg flags)
    exact ⟨hwf, raw, rest, _, a, f, hw, hc, by simp⟩
  · cases h

end Sys2Proof
end

section
/-! SUPPORT. Decoding undoes encoding (30_encoding.md R201, R217, R224): the operands of a host operation are taken back
word by word; a command word has the fields of its command, finds its command's row, and gives the operands back. -/

namespace Sys2Proof

open Machine

/-! ## Operand words of a host operation -/

theorem takeWord_words (a : Word) (ws : List Word) :
    takeWord ((a :: ws).flatMap bytesOfWord) = some (a, ws.flatMap bytesOfWord) := by
  rw [List.flatMap_cons, takeWord_bytesOfWord]

theorem with1_words (a : Word) (ws : List Word) (g : Word → Except Reject Instr) :
    with1 ((a :: ws).flatMap bytesOfWord) g = g a := by
  simp only [with1, takeWord_words]

theorem with2_words (a b : Word) (ws : List Word) (g : Word → Word → Except Reject Instr) :
    with2 ((a :: b :: ws).flatMap bytesOfWord) g = g a b := by
  simp only [with2, takeWord_words, with1_words]

theorem with3_words (a b c : Word) (ws : List Word) (g : Word → Word → Word → Except Reject Instr) :
    with3 ((a :: b :: c :: ws).flatMap bytesOfWord) g = g a b c := by
  simp only [with3, takeWord_words, with2_words]

theorem with4_words (a b c d : Word) (ws : List Word) (g : Word → Word → Word → Word → Except Reject Instr) :
    with4 ((a :: b :: c :: d :: ws).flatMap bytesOfWord) g = g a b c d := by
  simp only [with4, takeWord_words, with3_words]

theorem kindOfNumber_kindNumber (k : Kind) : kindOfNumber (kindNumber k) = some k := by
  cases k <;> rfl

theorem decode_hostOpRequest (tag : Byte) (ws : List Word) :
    decode (hostOpRequest tag ws) = decodeHostOp tag (ws.flatMap bytesOfWord) := rfl

/-- A host operation's request decodes to it. -/
theorem decode_encode_hostOp {i : Instr} (hc : i.command = none) (hw : i.wellFormed = true) :
    decode (encode i) = .ok i := by
  cases i with
  | pioWrite | writeBlockOp =>
    have hblock := takeBlock_self (eq_of_beq hw)
    simp [decode, encode, decodeHostOp, hblock]
  | encode o a k f =>
    simp only [encode, decode_hostOpRequest, decodeHostOp, BitVec.reduceEq, reduceIte, with4_words,
      kindOfNumber_kindNumber]
  | await | pioRead | bringup | resetHook | deviceReset => rfl
  | regRead | opcondLoop | ffs | selectWindow | switchPart | readBlock | construct | regWrite | regSetBits | regClearBits
  | classify | submit | cmd =>
    simp only [encode, decode_hostOpRequest, decodeHostOp, BitVec.reduceEq, reduceIte, with1_words, with2_words,
      with3_words]
  | _ => cases hc

/-! ## Fields of a command word (30_encoding.md R201, R203, R204) -/

theorem rawRsptyp_or (x y : Word) : rawRsptyp (x ||| y) = rawRsptyp x ||| rawRsptyp y := by
  rw [rawRsptyp, BitVec.ushiftRight_or_distrib, BitVec.setWidth_or]
  rfl

theorem rawRsptyp_and (x y : Word) : rawRsptyp (x &&& y) = rawRsptyp x &&& rawRsptyp y := by
  rw [rawRsptyp, BitVec.ushiftRight_and_distrib, BitVec.setWidth_and]
  rfl

theorem rawRsptyp_code : ∀ c : BitVec 3, rawRsptyp (c.setWidth 32 <<< 7) = c := by
  decide

theorem rawRsptyp_opcode {o : Word} (ho : o.toNat ≤ 63) : rawRsptyp o = 0 := by
  have : o >>> 7 = 0 := by
    apply BitVec.eq_of_toNat_eq
    rw [BitVec.toNat_ushiftRight, Nat.shiftRight_eq_div_pow]
    exact Nat.div_eq_of_lt (by omega)
  rw [rawRsptyp, this]
  rfl

/-- No patch touches RSPTYP. -/
theorem rawRsptyp_patchWord (o f raw : Word) : rawRsptyp (patchWord defaultConfig o f raw) = rawRsptyp raw := by
  have patch {x m : Word} (h : rawRsptyp m = 0) : rawRsptyp (x ||| m) = rawRsptyp x := by
    rw [rawRsptyp_or, h]
    exact BitVec.or_zero
  have clear {x : Word} : rawRsptyp (x &&& ~~~defaultConfig.cmdBlklenMask) = rawRsptyp x := by
    rw [rawRsptyp_and]
    exact BitVec.and_allOnes
  unfold patchWord
  split
  · exact patch rfl
  · split
    · exact (patch rfl).trans (patch rfl)
    · split
      · exact patch rfl
      · split
        · exact clear.trans (patch rfl)
        · rfl

theorem rawRsptyp_rawWord {o : Word} (ho : o.toNat ≤ 63) (k : Kind) (f : Word) :
    rawRsptyp (rawWord defaultConfig o k f) = rspCode defaultRspTable k := by
  rw [rawWord, rawRsptyp_patchWord, rawRsptyp_or, rawRsptyp_or, rawRsptyp_code, rawRsptyp_opcode ho]
  exact BitVec.or_zero.trans BitVec.zero_or

/-- The word reads of the flags only whether their class is ADTC (30_encoding.md R209). -/
theorem rawWord_adtc_cases (o : Word) (k : Kind) (f : Word) :
    (f &&& 0x60 = 0x20 ∧ rawWord defaultConfig o k f = rawWord defaultConfig o k 0x20) ∨
      (f &&& 0x60 ≠ 0x20 ∧ rawWord defaultConfig o k f = rawWord defaultConfig o k 0) := by
  have same {f' : Word} (h : f &&& 0x60 = 0x20 ↔ f' &&& 0x60 = 0x20) :
      rawWord defaultConfig o k f = rawWord defaultConfig o k f' := by
    have hclass : cmdClass defaultConfig.flags f = defaultConfig.flags.cmdAdtc ↔
        cmdClass defaultConfig.flags f' = defaultConfig.flags.cmdAdtc := h
    simp only [rawWord, patchWord, hclass]
  by_cases hf : f &&& 0x60 = 0x20
  · exact .inl ⟨hf, same (iff_of_true hf rfl)⟩
  · exact .inr ⟨hf, same (iff_of_false hf (by decide))⟩

/-- The data-present bit of the two rows that have it as a field is set exactly under the ADTC class. -/
theorem rawDtype_rawWord {o : Word} (ho : o = opSwitch ∨ o = opSendExtCsd) (k : Kind) (f : Word) :
    rawDtype (rawWord defaultConfig o k f) = (f &&& 0x60 == 0x20) := by
  obtain ⟨hf, hraw⟩ | ⟨hf, hraw⟩ := rawWord_adtc_cases o k f
  · rw [hraw, beq_iff_eq.2 hf]
    obtain rfl | rfl := ho <;> cases k <;> rfl
  · rw [hraw, beq_eq_false_iff_ne.2 hf]
    obtain rfl | rfl := ho <;> cases k <;> rfl

/-! ## What a command gives the decoder -/

theorem commandHasKind_iff {o a f : Word} : commandHasKind o a f = true ↔ ∃ k, classify defaultConfig o a f = .ok k := by
  unfold commandHasKind
  split <;> simp [*]

/-- A well-formed command has a kind. -/
theorem kind_of_wellFormed {i : Instr} {o a f : Word} (hw : i.wellFormed = true) (hc : i.command = some (o, a, f)) :
    ∃ k, classify defaultConfig o a f = .ok k := by
  rw [← commandHasKind_iff]
  cases i with
  | selectCard => cases hc; exact (Bool.and_eq_true_iff.1 hw).2
  | generic => cases hc; exact (Bool.and_eq_true_iff.1 hw).2
  | _ => cases hc <;> exact hw

/-- GENERIC is the row of the opcodes without a rule of their own (41_command_codec.md R274). -/
theorem unruled_of_generic {o : BitVec 6} {a f : Word} (hw : (Instr.generic o a f).wellFormed = true) :
    o.setWidth 32 ∉ ruledOpcodes := by
  simpa using (Bool.and_eq_true_iff.1 hw).1

theorem encode_of_command {i : Instr} {o a f : Word} (hc : i.command = some (o, a, f)) :
    encode i = encodeCommandRequest o a f := by
  cases i <;> cases hc <;> rfl

theorem decode_encodeCommandRequest (o a f : Word) :
    decode (encodeCommandRequest o a f) = decodeCommand (commandWord o a f) a f := by
  have h : bytesOfWord f = bytesOfWord f ++ [] := (List.append_nil _).symm
  rw [encodeCommandRequest, List.append_assoc, h]
  simp only [decode, takeWord_bytesOfWord, with2, with1]

theorem kindOf_of_classify {cfg : Config} {o a f : Word} {k : Kind} (h : classify cfg o a f = .ok k) :
    kindOf cfg o a f = some k := by
  unfold classify at h
  split at h
  · cases h
  · split at h
    · cases h; assumption
    · cases h

/-- The opcodes whose kind does not come from the response shape in the flags (41_command_codec.md R250). -/
def shapelessOpcodes : List Word :=
  [opSendOpCond, opSdAppOpCond, opSetRelativeAddr, opFastIo, opGoIrqState, opSelectCard]

/-- Flags of zero ask for no response, where the flags give the kind. -/
theorem kind_of_no_flags {o a : Word} {k : Kind} (ho : o ∉ shapelessOpcodes)
    (h : classify defaultConfig o a 0 = .ok k) : k = .kNone := by
  simp only [shapelessOpcodes, List.mem_cons, List.not_mem_nil, or_false, not_or] at ho
  have hk := kindOf_of_classify h
  simp only [kindOf, ho, if_false, or_self] at hk
  exact (Option.some.inj hk).symm

section

variable {o a f : Word} {k : Kind} (ho : o ∉ shapelessOpcodes) (h : classify defaultConfig o a f = .ok k)
include ho h

/-- The flags operand is given back: if it is zero, so are the flags the word implies. -/
theorem flagsOperand_rawWord : flagsOperand (rawWord defaultConfig o k f) f = f := by
  unfold flagsOperand
  split
  · subst f
    rw [rawRsptyp_rawWord (opcode_le_of_classify h), kind_of_no_flags ho h]
    rfl
  · rfl

theorem flagsOperandAdtc_rawWord (hd : o = opSwitch ∨ o = opSendExtCsd) :
    flagsOperandAdtc (rawWord defaultConfig o k f) f = f := by
  unfold flagsOperandAdtc
  split
  · subst f
    rw [rawRsptyp_rawWord (opcode_le_of_classify h), rawDtype_rawWord hd, kind_of_no_flags ho h]
    rfl
  · rfl

end

/-! ## The row a command's word finds -/

/-- The rows whose RSPTYP is free, GENERIC aside, with their opcodes. -/
def shapedRows : List (Word × RowName) :=
  [(opGoIdleState, .goIdleState), (opAllSendCid, .allSendCid), (opSwitch, .switchFunc), (opSendExtCsd, .sendExtCsd),
   (opStopTransmission, .stopTransmission), (opSendStatus, .sendStatus), (opSetBlocklen, .setBlocklen),
   (opReadSingleBlock, .readSingleBlock), (opSendTuningBlock, .sendTuningBlock),
   (opSendTuningBlockHs200, .sendTuningBlockHs200), (opWriteBlock, .writeBlock), (opAppCmd, .appCmd)]

/-- The row of a word is found from its opcode, its kind and whether its class is ADTC. -/
theorem rowOf_rawWord {o : Word} {k : Kind} {n : RowName}
    (h : rowOf (rawWord defaultConfig o k 0x20) = some n ∧ rowOf (rawWord defaultConfig o k 0) = some n) (f : Word) :
    rowOf (rawWord defaultConfig o k f) = some n := by
  obtain ⟨-, hraw⟩ | ⟨-, hraw⟩ := rawWord_adtc_cases o k f
  · rw [hraw]
    exact h.1
  · rw [hraw]
    exact h.2

theorem rowOf_rawWord_shaped {o : Word} {n : RowName} (h : (o, n) ∈ shapedRows) (k : Kind) (f : Word) :
    rowOf (rawWord defaultConfig o k f) = some n := by
  have table : ∀ p ∈ shapedRows, rowOf (rawWord defaultConfig p.1 k 0x20) = some p.2 ∧
      rowOf (rawWord defaultConfig p.1 k 0) = some p.2 := by
    cases k <;> decide
  exact rowOf_rawWord (table _ h) f

/-- A word of GENERIC's pattern whose opcode has no rule of its own finds no other row. -/
theorem rowOf_eq_generic {raw : Word} (hm : raw &&& 0xFFFFFC40 = 0x02000000) (ho : raw &&& 0x3F ∉ ruledOpcodes) :
    rowOf raw = some .generic := by
  have hsome : (rowOf raw).isSome := by
    rw [rowOf, Option.isSome_map, List.find?_isSome]
    exact ⟨⟨0xFFFFFC40, 0x02000000, .generic⟩, by decide, beq_iff_eq.2 hm⟩
  obtain ⟨n, hn⟩ := Option.isSome_iff_exists.1 hsome
  obtain ⟨r, hr, rfl, hr'⟩ := rowOf_some hn
  by_cases hg : r.name = .generic
  · rw [hn, hg]
  · rw [opc_of_match hr hg hr'] at ho
    exact absurd (commandRows_fix_opc r hr hg).2 ho

theorem opc_rawWord (o : BitVec 6) (k : Kind) (f : Word) :
    rawWord defaultConfig (o.setWidth 32) k f &&& 0x3F = o.setWidth 32 :=
  rawWord_low (by decide) (by rw [BitVec.toNat_setWidth]; omega) k f

theorem rawOpc_rawWord (o : BitVec 6) (k : Kind) (f : Word) :
    rawOpc (rawWord defaultConfig (o.setWidth 32) k f) = o := by
  have h := (setWidth_rawOpc _).trans (opc_rawWord o k f)
  simpa using congrArg (BitVec.setWidth 6) h

/-- An opcode without a rule of its own is not patched. -/
theorem patchWord_unruled {o : Word} (ho : o ∉ ruledOpcodes) (f raw : Word) :
    patchWord defaultConfig o f raw = raw := by
  simp only [ruledOpcodes, List.mem_cons, List.not_mem_nil, or_false, not_or] at ho
  simp only [patchWord, ho, if_false, or_self, false_and]

theorem rowOf_rawWord_generic {o : BitVec 6} (ho : o.setWidth 32 ∉ ruledOpcodes) (k : Kind) (f : Word) :
    rowOf (rawWord defaultConfig (o.setWidth 32) k f) = some .generic := by
  have hopc : ∀ o : BitVec 6, o.setWidth 32 &&& (0xFFFFFC40 : Word) = 0 := by decide
  have hcode : ∀ c : BitVec 3, c.setWidth 32 <<< 7 &&& (0xFFFFFC40 : Word) = 0 := by decide
  apply rowOf_eq_generic
  · rw [rawWord, patchWord_unruled ho, BitVec.and_or_distrib_right, BitVec.and_or_distrib_right, hopc, hcode]
    rfl
  · rwa [opc_rawWord]

/-- The word finds the row `n`, and that row gives the command back from the word and its operands. -/
def FindsRow (i : Instr) (raw arg flags : Word) (n : RowName) : Prop :=
  rowOf raw = some n ∧ commandOfRow raw arg flags n = i

/-- A row with a free RSPTYP whose flags operand may be omitted. -/
theorem findsRow_of_shape {o a f : Word} {k : Kind} {n : RowName} {mk : Word → Instr}
    (hk : classify defaultConfig o a f = .ok k) (hn : (o, n) ∈ shapedRows)
    (hrow : ∀ raw, commandOfRow raw a f n = mk (flagsOperand raw f)) :
    FindsRow (mk f) (rawWord defaultConfig o k f) a f n := by
  have apart : ∀ p ∈ shapedRows, p.1 ∉ shapelessOpcodes := by decide
  exact ⟨rowOf_rawWord_shaped hn k f, by rw [hrow, flagsOperand_rawWord (apart _ hn) hk]⟩

/-- A command with a word finds its row. -/
theorem exists_findsRow {i : Instr} {o a f : Word} {k : Kind} (hw : i.wellFormed = true)
    (hc : i.command = some (o, a, f)) (hk : classify defaultConfig o a f = .ok k)
    (hm : o ∉ defaultConfig.multiblockOpcodes) : ∃ n, FindsRow i (rawWord defaultConfig o k f) a f n := by
  have kind {k' : Kind} (h : kindOf defaultConfig o a f = some k') : k' = k :=
    Option.some.inj (h.symm.trans (kindOf_of_classify hk))
  cases i with
  | goIdleState => cases hc; exact ⟨.goIdleState, findsRow_of_shape hk (by decide) fun _ => rfl⟩
  | allSendCid => cases hc; exact ⟨.allSendCid, findsRow_of_shape hk (by decide) fun _ => rfl⟩
  | stopTransmission => cases hc; exact ⟨.stopTransmission, findsRow_of_shape hk (by decide) fun _ => rfl⟩
  | sendStatus => cases hc; exact ⟨.sendStatus, findsRow_of_shape hk (by decide) fun _ => rfl⟩
  | setBlocklen => cases hc; exact ⟨.setBlocklen, findsRow_of_shape hk (by decide) fun _ => rfl⟩
  | readSingleBlock => cases hc; exact ⟨.readSingleBlock, findsRow_of_shape hk (by decide) fun _ => rfl⟩
  | sendTuningBlock => cases hc; exact ⟨.sendTuningBlock, findsRow_of_shape hk (by decide) fun _ => rfl⟩
  | sendTuningBlockHs200 => cases hc; exact ⟨.sendTuningBlockHs200, findsRow_of_shape hk (by decide) fun _ => rfl⟩
  | writeBlock => cases hc; exact ⟨.writeBlock, findsRow_of_shape hk (by decide) fun _ => rfl⟩
  | appCmd => cases hc; exact ⟨.appCmd, findsRow_of_shape hk (by decide) fun _ => rfl⟩
  | switchFunc =>
    cases hc
    exact ⟨.switchFunc, rowOf_rawWord_shaped (by decide) k f,
      congrArg (Instr.switchFunc a) (flagsOperandAdtc_rawWord (by decide) hk (.inl rfl))⟩
  | sendExtCsd =>
    cases hc
    exact ⟨.sendExtCsd, rowOf_rawWord_shaped (by decide) k f,
      congrArg (Instr.sendExtCsd a) (flagsOperandAdtc_rawWord (by decide) hk (.inr rfl))⟩
  | sendOpCond => cases hc; cases kind rfl; exact ⟨.sendOpCond, rowOf_rawWord (by decide) f, rfl⟩
  | sdAppOpCond => cases hc; cases kind rfl; exact ⟨.sdAppOpCond, rowOf_rawWord (by decide) f, rfl⟩
  | fastIo => cases hc; cases kind rfl; exact ⟨.fastIo, rowOf_rawWord (by decide) f, rfl⟩
  | goIrqState => cases hc; cases kind rfl; exact ⟨.goIrqState, rowOf_rawWord (by decide) f, rfl⟩
  | setRelativeAddr =>
    cases hc
    by_cases hb : cmdClass defaultConfig.flags f = defaultConfig.flags.cmdBcr
    · cases kind (if_pos hb)
      exact ⟨.setRelativeAddr, rowOf_rawWord (by decide) f, rfl⟩
    · cases kind (if_neg hb)
      exact ⟨.setRelativeAddr, rowOf_rawWord (by decide) f, rfl⟩
  | selectCard =>
    cases hc
    have ha : a ≠ 0 := bne_iff_ne.1 (Bool.and_eq_true_iff.1 hw).1
    cases kind (if_neg ha)
    exact ⟨.selectCard, rowOf_rawWord (by decide) f, congrArg (Instr.selectCard · f) (if_neg ha)⟩
  | deselectCard => cases hc; cases kind rfl; exact ⟨.deselectCard, rowOf_rawWord (by decide) f, rfl⟩
  | generic o =>
    cases hc
    have ho := unruled_of_generic hw
    have ruled : shapelessOpcodes ⊆ ruledOpcodes := by decide
    have hshape : o.setWidth 32 ∉ shapelessOpcodes := fun h => ho (ruled h)
    refine ⟨.generic, rowOf_rawWord_generic ho k f, ?_⟩
    rw [commandOfRow, rawOpc_rawWord, flagsOperand_rawWord hshape hk]
  | readMultipleBlock => cases hc; exact absurd (by decide) hm
  | writeMultipleBlock => cases hc; exact absurd (by decide) hm
  | _ => cases hc

/-! ## Decoding undoes encoding -/

/-- The word of a command of one block or none is the codec's (41_command_codec.md R252). -/
theorem commandWord_eq_rawWord {o a f : Word} {k : Kind} (hk : classify defaultConfig o a f = .ok k)
    (hm : o ∉ defaultConfig.multiblockOpcodes) : commandWord o a f = rawWord defaultConfig o k f := by
  have he : encodeCommand defaultConfig o a k f = some (rawWord defaultConfig o k f) := by
    rw [encodeCommand, if_neg (by simpa using hm)]
  simp only [commandWord, hk, he]

/-- A well-formed command with a multi-block opcode is one of the two illegal rows (41_command_codec.md R266, R269). -/
theorem eq_illegal_of_multiblock {i : Instr} {o a f : Word} (hw : i.wellFormed = true) (hc : i.command = some (o, a, f))
    (hm : o ∈ defaultConfig.multiblockOpcodes) :
    i = .readMultipleBlock a f ∧ o = opReadMultipleBlock ∨ i = .writeMultipleBlock a f ∧ o = opWriteMultipleBlock := by
  cases i with
  | readMultipleBlock => cases hc; exact .inl ⟨rfl, rfl⟩
  | writeMultipleBlock => cases hc; exact .inr ⟨rfl, rfl⟩
  | generic o =>
    cases hc
    have ruled : defaultConfig.multiblockOpcodes ⊆ ruledOpcodes := by decide
    exact absurd (ruled hm) (unruled_of_generic hw)
  | _ => cases hc <;> exact absurd hm (by decide)

/-- The word's RSPTYP and DTYPE are those of the command it is the word of. -/
theorem fieldsAgree_rawWord {i : Instr} {o a f : Word} {k : Kind} (hc : i.command = some (o, a, f))
    (hk : classify defaultConfig o a f = .ok k) : fieldsAgree (rawWord defaultConfig o k f) i = true := by
  unfold fieldsAgree
  split
  · rfl
  · rfl
  · simp only [hc, hk, rawRsptyp_rawWord (opcode_le_of_classify hk), beq_self_eq_true, Bool.true_and]
    split
    · rw [rawDtype_rawWord ‹_›]
      exact beq_self_eq_true _
    · rfl

theorem decodeCommand_of_findsRow {i : Instr} {raw arg flags : Word} {n : RowName} (h : FindsRow i raw arg flags n)
    (hw : i.wellFormed = true) (hf : fieldsAgree raw i = true) : decodeCommand raw arg flags = .ok i := by
  obtain ⟨hn, rfl⟩ := h
  simp only [decodeCommand, hn, hw, hf, Bool.and_self, if_true]

/-- A well-formed command's word and operands decode to it. -/
theorem decodeCommand_commandWord {i : Instr} {o a f : Word} (hw : i.wellFormed = true)
    (hc : i.command = some (o, a, f)) : decodeCommand (commandWord o a f) a f = .ok i := by
  obtain ⟨k, hk⟩ := kind_of_wellFormed hw hc
  by_cases hm : o ∈ defaultConfig.multiblockOpcodes
  · have hword : commandWord o a f = o := by
      simp only [commandWord, hk, encodeCommand, List.contains_iff_mem.2 hm, if_true]
    rw [hword]
    obtain ⟨rfl, rfl⟩ | ⟨rfl, rfl⟩ := eq_illegal_of_multiblock hw hc hm
    · exact decodeCommand_of_findsRow (n := .readMultipleBlock) ⟨rfl, rfl⟩ hw rfl
    · exact decodeCommand_of_findsRow (n := .writeMultipleBlock) ⟨rfl, rfl⟩ hw rfl
  · rw [commandWord_eq_rawWord hk hm]
    obtain ⟨n, hn⟩ := exists_findsRow hw hc hk hm
    exact decodeCommand_of_findsRow hn hw (fieldsAgree_rawWord hc hk)

/-- Settles O2: a host operation's operands are taken back word by word; a command's word finds its row. -/
theorem decodeOfEncodeIsIdentity : Obligations.DecodeOfEncodeIsIdentity := by
  intro i hw
  cases hc : i.command with
  | none => exact decode_encode_hostOp hc hw
  | some c =>
    obtain ⟨o, a, f⟩ := c
    rw [encode_of_command hc, decode_encodeCommandRequest]
    exact decodeCommand_commandWord hw hc

end Sys2Proof
end

section
/-! SUPPORT. What the register operations do at a cell of the map (40_register_interface.md R240 to R243): one write and an
end, or one read, the write its answer calls for, and an end. -/

namespace Sys2Proof.Machine

/-- An operation that emits a script and ends consumes nothing of what is queued. -/
theorem exec_says_ends {s : State} {i : Instr} {io : List Io} {x : OpResult} (hc : ∀ b, i ≠ .construct b) (h : s.ready)
    (hi : startOf i s.begin = (s.begin.says io).endOp x) :
    exec i s = .next { s.ran io s.env with result := some x } := by
  obtain ⟨ht, hq, hh⟩ := h
  rw [exec_eq_hostOp hc, hostOp_ready hh, hi, drive_ended rfl]
  exact congrArg _ (ended_eq (s := s.ran io s.env) ht hq x)

/-- A register operation that waits on one read, and on its answer emits a script and ends, consumes that answer alone. -/
theorem exec_reads_says_ends {s : State} {i : Instr} {w : Wait} {v : Word} {rest : List Word} {io : List Io} {x : OpResult}
    (hc : ∀ b, i ≠ .construct b) (h : s.ready) (hv : s.env = v :: rest)
    (hi : startOf i s.begin = s.begin.waitFor w .regOp) (hx : ∀ u, resume ⟨w, .regOp⟩ v u = (u.says io).endOp x) :
    exec i s = .next { s.ran (.rd w.off v :: io) rest with result := some x } := by
  obtain ⟨ht, hq, hh⟩ := h
  rw [exec_eq_hostOp hc, hostOp_ready hh, hi, hv, drive_wait, hx, State.waitFor_says, State.says_says, State.waitFor_endOp,
    drive_ended rfl]
  exact congrArg _ (ended_eq (s := s.ran (.rd w.off v :: io) rest) ht hq x)

/-- Settles O9: the answer to the one read is the result. -/
theorem regReadReturnsTheAnswer : Obligations.RegReadReturnsTheAnswer := by
  intro s reg v rest hs hm hv
  exact exec_reads_says_ends (w := .regRead reg) (io := []) nofun hs hv (by simp only [startOf, hm, if_true])
    fun u => by rw [State.says_nil]; rfl

/-- Settles O10: the write is the whole script, and no answer is consumed. -/
theorem regWriteEmitsOneWrite : Obligations.RegWriteEmitsOneWrite := by
  intro s reg v hs hm
  exact exec_says_ends nofun hs (by simp only [startOf, hm, if_true, State.writeReg_eq])

/-- Settles O11: the answer to the one read decides the value written, never whether it is written. -/
theorem setAndClearBitsReadThenWrite : Obligations.SetAndClearBitsReadThenWrite := by
  intro s reg mask v rest hs hm hv
  constructor
  · exact exec_reads_says_ends (w := .setBits reg mask) nofun hs hv (by simp only [startOf, hm, if_true]) fun _ => rfl
  · exact exec_reads_says_ends (w := .clearBits reg mask) nofun hs hv (by simp only [startOf, hm, if_true]) fun _ => rfl

end Sys2Proof.Machine
end

section
/-! SUPPORT. What the engine knows of the last command is left alone by the reads of the register operations and of the PIO
transfers: such an operation waits on no other read and sends no command, so FSM, INFLIGHT, error_flag and the response
words stay (42_command_response_engine.md R300; 40_register_interface.md R244; 41_command_codec.md R253;
70_reset_and_hazards.md R441, R442). -/

namespace Sys2Proof

/-- The operations that send and await no command, but CONSTRUCT. -/
def Instr.commandless : Instr → Bool
  | .regRead _ | .regWrite _ _ | .regSetBits _ _ | .regClearBits _ _ | .classify _ _ _ | .encode _ _ _ _ | .pioRead
  | .pioWrite _ | .ffs _ | .selectWindow _ | .resetHook | .deviceReset => true
  | _ => false

end Sys2Proof

namespace Sys2Proof.Machine

/-- Whether a read belongs to a register operation or to a PIO transfer, neither of which has to do with a command. -/
def Wait.commandless : Wait → Bool
  | .regRead _ | .setBits _ _ | .clearBits _ _ | .pioClear _ | .pioRearm _ | .pioStatus _ | .pioFifo _ | .pioDrain _ _
  | .pioRecheck _ => true
  | .cfgEnable | .cfgMode | .busy _ _ _ | .awaitClear _ | .poll _ _ | .resp _ _ _ => false

/-- `t` knows of the last command what `s` knows (10_state.md R124, R125, R135; log entry 10). -/
def State.SameCommand (s t : State) : Prop :=
  t.fsm = s.fsm ∧ t.inflight = s.inflight ∧ t.errorFlag = s.errorFlag ∧ t.respWords = s.respWords

/-- `t` knows of the last command what `s` knows, and the operation that runs there, if any, leaves it so. -/
structure State.Spares (s t : State) : Prop where
  command : s.SameCommand t
  waits   : ∀ x, t.task = some x → x.wait.commandless = true

variable {s t : State}

namespace State.SameCommand

theorem refl (s : State) : s.SameCommand s := ⟨rfl, rfl, rfl, rfl⟩

theorem waitFor (h : s.SameCommand t) {w : Wait} (hw : w.commandless = true) (k : Caller) : s.Spares (t.waitFor w k) :=
  ⟨h, fun _ hx => Option.some.inj hx ▸ hw⟩

theorem endOp (h : s.SameCommand t) (x : OpResult) : s.Spares (t.endOp x) := ⟨h, nofun⟩

theorem ackTransfer (h : s.SameCommand t) (v : Word) : s.SameCommand (t.ackTransfer v) := by
  rw [State.ackTransfer_eq]
  exact h

theorem pioPush (n : Nat) : ∀ {t : State}, s.SameCommand t → s.SameCommand (pioPush n t) := by
  induction n with
  | zero => exact id
  | succ n ih => exact fun h => ih h

theorem pioHead (h : s.SameCommand t) (p : PioPos) (k : Caller) : s.Spares (pioHead t p k) := by
  unfold Machine.pioHead
  split
  · exact h.waitFor rfl k
  · split
    · exact h.endOp _
    · split
      · exact h.waitFor rfl k
      · exact h.endOp _

theorem pioBurst (h : s.SameCommand t) (p : PioPos) (k : Caller) (n : Nat) : s.Spares (pioBurst t p k n) := by
  unfold Machine.pioBurst
  split
  · exact h.pioHead _ k
  · exact h.waitFor rfl k

theorem pioFail (h : s.SameCommand t) (v : Word) (c : Bool) : s.Spares (pioFail t v c) := ⟨h, nofun⟩

theorem pioStatus (h : s.SameCommand t) (p : PioPos) (k : Caller) (v : Word) : s.Spares (pioStatus t p k v) := by
  unfold Machine.pioStatus
  split
  · exact h.pioFail _ _
  · exact (ackTransfer (t := t.latchDone v) h v).pioHead p k

theorem pioFifo (h : s.SameCommand t) (p : PioPos) (k : Caller) (v : Word) : s.Spares (pioFifo t p k v) := by
  unfold Machine.pioFifo
  split
  · split
    · exact h.pioBurst p k _
    · split
      · exact h.pioBurst p k _
      · exact h.waitFor rfl k
  · split
    · exact (pioPush _ h).pioHead _ k
    · exact h.waitFor rfl k

theorem pioDrain (h : s.SameCommand t) (p : PioPos) (k : Caller) (left : Nat) (v : Word) :
    s.Spares (pioDrain t p k left v) := by
  unfold Machine.pioDrain
  split
  · exact pioHead (t := t.storeWord v) h p k
  · exact waitFor (t := t.storeWord v) h rfl k

theorem pioRecheck (h : s.SameCommand t) (p : PioPos) (k : Caller) (v : Word) : s.Spares (pioRecheck t p k v) := by
  unfold Machine.pioRecheck
  split
  · exact h.pioFail _ _
  · split
    · exact h.waitFor rfl k
    · exact h.endOp _

/-- Every answer to such a read. -/
theorem resume (h : s.SameCommand t) {x : Task} (hx : x.wait.commandless = true) (v : Word) :
    s.Spares (resume x v t) := by
  obtain ⟨w, k⟩ := x
  cases w with
  | regRead _ | setBits _ _ | clearBits _ _ => exact ⟨h, nofun⟩
  | pioClear _ | pioRearm _ => exact ⟨h, fun _ hx => Option.some.inj hx ▸ rfl⟩
  | pioStatus p => exact h.pioStatus p k v
  | pioFifo p => exact h.pioFifo p k v
  | pioDrain p left => exact h.pioDrain p k left v
  | pioRecheck p => exact h.pioRecheck p k v
  | cfgEnable | cfgMode | busy _ _ _ | awaitClear _ | poll _ _ | resp _ _ _ => cases hx

theorem answer (h : s.SameCommand t) {x : Task} (hx : x.wait.commandless = true) (v : Word) :
    s.Spares (answer x v t) := resume (t := t.emit _) h hx v

/-- Every beginning of such an operation. -/
theorem startOf (h : s.SameCommand t) {i : Instr} (hi : i.commandless = true) : s.Spares (startOf i t) := by
  cases i with
  | regRead _ | regSetBits _ _ | regClearBits _ _ | pioRead =>
    simp only [Machine.startOf]
    split
    · exact h.waitFor rfl _
    · exact h.endOp _
  | regWrite _ _ =>
    simp only [Machine.startOf]
    split
    · exact endOp (t := t.writeReg _ _) h _
    · exact h.endOp _
  | pioWrite d =>
    simp only [Machine.startOf]
    split
    · exact waitFor (t := t.setBuf d) h rfl _
    · exact h.endOp _
  | classify _ _ _ =>
    simp only [Machine.startOf]
    split
    · exact h.endOp _
    · exact h.endOp _
  | encode _ _ _ _ =>
    simp only [Machine.startOf]
    split
    · exact h.endOp _
    · split
      · split
        · exact h.endOp _
        · exact endOp (t := t.halt) h _
      · exact h.endOp _
  | ffs _ | selectWindow _ => exact h.endOp _
  | resetHook => exact endOp (t := t.hook) h _
  | deviceReset => exact endOp (t := t.setSession none) h _
  | _ => cases hi

end State.SameCommand

namespace State.Spares

/-- A whole run. -/
theorem drive (h : s.Spares t) (vs : List Word) : s.Spares (drive vs t) :=
  drive_keeps (P := fun t => s.Spares t) (fun _ x v h ht => h.command.answer (h.waits x ht) v)
    (fun _ _ h => ⟨h.command, h.waits⟩) vs t h

end State.Spares

/-- Every operation that sends and awaits no command spares what is known of the last one, when it begins. -/
theorem exec_spares {i : Instr} (hi : i.commandless = true) (h : exec i s = .next t) : s.Spares t := by
  have hc : ∀ b, i ≠ .construct b := by
    rintro b rfl
    cases hi
  rw [exec_eq_hostOp hc] at h
  simp only [hostOp, Host.Outcome.next.injEq] at h
  subst h
  refine State.Spares.drive ?_ _
  split
  · exact State.SameCommand.endOp (t := s.begin) (.refl s) _
  · exact State.SameCommand.startOf (t := s.begin) (.refl s) hi

/-- So it does when it goes on. -/
theorem stepTask_spares {x : Task} (ht : s.task = some x) (hx : x.wait.commandless = true) : s.Spares (stepTask x s) := by
  unfold stepTask
  split
  · exact State.SameCommand.answer (t := s.spendFree) (.refl s) hx _
  · exact State.Spares.drive ⟨.refl s, fun y hy => Option.some.inj (ht.symm.trans hy) ▸ hx⟩ _

/-- A register operation and a PIO transfer of the host wait on no read of a command. -/
theorem commandless_of_fits {w : Wait} {k : Caller} (hk : k = .pio ∨ k = .regOp) (hw : w.fits s k) :
    w.commandless = true := by
  have ha : k.awaits = false := by obtain rfl | rfl := hk <;> rfl
  cases w with
  | regRead _ | setBits _ _ | clearBits _ _ | pioClear _ | pioRearm _ | pioStatus _ | pioFifo _ | pioDrain _ _
  | pioRecheck _ => rfl
  | cfgEnable | cfgMode =>
    obtain ⟨rfl, -⟩ := hw
    cases ha
  | busy c raw n =>
    obtain ⟨-, -, -, -, rfl | ht⟩ := hw
    · obtain hk | hk := hk <;> cases hk
    · cases ha.symm.trans ht
  | awaitClear _ | poll _ _ => cases ha.symm.trans hw.2.2
  | resp _ _ _ => cases ha.symm.trans hw.2.2.1

/-- Settles O60: the operations named begin without a command, and those that go on as `pio` or `regOp` wait on no read of
one. -/
theorem commandStateIsKept : Obligations.CommandStateIsKept := by
  refine ⟨fun s t i hi h => ?_, fun s t x hinv ht hk h => ?_⟩
  · refine (exec_spares (i := i) ?_ h).command
    obtain ⟨r, rfl⟩ | ⟨r, v, rfl | rfl | rfl⟩ | ⟨o, a, f, rfl⟩ | ⟨o, a, k, f, rfl⟩ | rfl | ⟨d, rfl⟩ | ⟨x, rfl | rfl⟩ |
      rfl | rfl := hi <;> rfl
  · obtain ⟨-, hw⟩ := hinv.running x ht
    rw [step_running ht] at h
    cases h
    exact (stepTask_spares ht (commandless_of_fits hk hw)).command

end Sys2Proof.Machine
end

section
/-! SUPPORT. The command words under any parameters the spec allows: the word as the formula and its patches, and as the
union of fields that do not meet (30_encoding.md R201, R204; 41_command_codec.md R252, R254; 92_eei_decisions.md D2). -/

namespace Sys2Proof.Machine

variable {cfg : Config} {o a f : Word} {k : Kind}

/-! ## The formula -/

/-- OPC and RSPTYP. -/
def opcRsptyp (cfg : Config) (o : Word) (k : Kind) : Word := o ||| (rspCode cfg.rspCode k).setWidth 32 <<< 7

/-- Under the default flag layout the word is the formula of 41_command_codec.md R252, its numbers written out. -/
theorem rawWord_formula (hl : cfg.flags = defaultFlagLayout) (o : Word) (k : Kind) (f : Word) :
    rawWord cfg o k f =
      let raw := opcRsptyp cfg o k ||| 0x02000000
      if o = 17 then raw ||| cfg.cmdDataPresent
      else if o = 24 then raw ||| cfg.cmdDataPresent ||| cfg.cmdWrite
      else if (o = 8 ∨ o = 6) ∧ f &&& 0x60 = 0x20 then raw ||| cfg.cmdDataPresent
      else if o = 12 then (raw ||| cfg.cmdStop) &&& ~~~cfg.cmdBlklenMask
      else raw := by
  rw [rawWord, patchWord, hl]
  rfl

/-! ## Masks that do not meet -/

/-- The bits of `m` under a condition. -/
def bitsIf (p : Prop) [Decidable p] (m : Word) : Word := if p then m else 0#32

theorem bitsIf_apart {p : Prop} [Decidable p] {m x : Word} (h : m &&& x = 0#32) : bitsIf p m &&& x = 0#32 := by
  unfold bitsIf
  split
  · exact h
  · exact BitVec.zero_and

theorem bitsIf_within {p : Prop} [Decidable p] {m x : Word} (h : m &&& x = m) : bitsIf p m &&& x = bitsIf p m := by
  unfold bitsIf
  split
  · exact h
  · exact BitVec.zero_and

theorem bitsIf_and_self_ne_zero {p : Prop} [Decidable p] {m : Word} (h : m ≠ 0) : bitsIf p m &&& m ≠ 0 ↔ p := by
  unfold bitsIf
  split
  · rename_i hp
    rw [BitVec.and_self]
    exact iff_of_true h hp
  · rename_i hp
    exact iff_of_false (not_not_intro BitVec.zero_and) hp

/-- A value below `2 ^ n` lies within the low `n` bits. -/
theorem within_of_lt {x : Word} {n : Nat} (hn : n ≤ 32) (hx : x.toNat < 2 ^ n) :
    x &&& BitVec.ofNat 32 (2 ^ n - 1) = x := by
  have hm : 2 ^ n - 1 < 2 ^ 32 :=
    (Nat.sub_one_lt (Nat.two_pow_pos n).ne').trans_le (Nat.pow_le_pow_right (by decide) hn)
  apply BitVec.eq_of_toNat_eq
  rw [BitVec.toNat_and, BitVec.toNat_ofNat, Nat.mod_eq_of_lt hm, Nat.and_two_pow_sub_one_eq_mod, Nat.mod_eq_of_lt hx]

/-- What lies within a mask does not meet what the mask does not meet. -/
theorem apart_of_within {x c m : Word} (hx : x &&& c = x) (hm : m &&& c = 0#32) : x &&& m = 0#32 := by
  rw [← hx, BitVec.and_assoc, BitVec.and_comm c, hm]
  exact BitVec.and_zero

theorem apart_comm {x y : Word} (h : x &&& y = 0#32) : y &&& x = 0#32 := (BitVec.and_comm y x).trans h

/-- Clearing a mask changes nothing that does not meet it. -/
theorem and_not_of_apart {x m : Word} (h : x &&& m = 0#32) : x &&& ~~~m = x := by
  calc x &&& ~~~m = x &&& m ||| x &&& ~~~m := by rw [h]; exact BitVec.zero_or.symm
    _ = x := by rw [← BitVec.and_or_distrib_left, BitVec.or_not_self, BitVec.and_allOnes]

/-- Clearing a mask clears what lies within it. -/
theorem and_not_of_within {x m : Word} (h : x &&& m = x) : x &&& ~~~m = 0#32 := by
  rw [← h, BitVec.and_assoc, BitVec.and_not_self]
  exact BitVec.and_zero

/-! ## The fields -/

/-- What 92_eei_decisions.md D2 asks of the patch bits and of the block-length field. -/
structure PatchesApart (cfg : Config) : Prop where
  data         : cfg.cmdDataPresent ≠ 0
  write        : cfg.cmdWrite ≠ 0
  stop         : cfg.cmdStop ≠ 0
  data_write   : cfg.cmdDataPresent &&& cfg.cmdWrite = 0
  data_stop    : cfg.cmdDataPresent &&& cfg.cmdStop = 0
  write_stop   : cfg.cmdWrite &&& cfg.cmdStop = 0
  data_low     : cfg.cmdDataPresent &&& 0x3FF = 0
  write_low    : cfg.cmdWrite &&& 0x3FF = 0
  stop_low     : cfg.cmdStop &&& 0x3FF = 0
  data_blklen  : cfg.cmdDataPresent &&& cfg.cmdBlklenMask = 0
  write_blklen : cfg.cmdWrite &&& cfg.cmdBlklenMask = 0
  stop_blklen  : cfg.cmdStop &&& cfg.cmdBlklenMask = 0
  blklen_low   : cfg.cmdBlklenMask &&& 0x3FF = 0
  blklen_bit   : 0x02000000 &&& cfg.cmdBlklenMask = 0x02000000

/-- Allowed parameters place them so. -/
theorem patchesApart_of_wellFormed (h : cfg.wellFormed = true) : PatchesApart cfg := by
  simp only [Config.wellFormed, singleBit, Bool.and_eq_true, beq_iff_eq, bne_iff_ne] at h
  obtain ⟨⟨⟨⟨⟨⟨⟨⟨⟨⟨⟨⟨⟨⟨⟨⟨data, -⟩, write, -⟩, stop, -⟩, data_write⟩, data_stop⟩, write_stop⟩, hpatch⟩, hblk⟩, -⟩, -⟩, -⟩,
    -⟩, -⟩, -⟩, -⟩, -⟩ := h
  simp only [BitVec.and_or_distrib_left, BitVec.and_or_distrib_right] at hpatch
  obtain ⟨hlow, hblklen⟩ := BitVec.or_eq_zero_iff.1 hpatch
  obtain ⟨hlow, stop_low⟩ := BitVec.or_eq_zero_iff.1 hlow
  obtain ⟨data_low, write_low⟩ := BitVec.or_eq_zero_iff.1 hlow
  obtain ⟨hblklen, stop_blklen⟩ := BitVec.or_eq_zero_iff.1 hblklen
  obtain ⟨data_blklen, write_blklen⟩ := BitVec.or_eq_zero_iff.1 hblklen
  refine { data, write, stop, data_write, data_stop, write_stop, data_low, write_low, stop_low, data_blklen,
           write_blklen, stop_blklen, blklen_low := ?_, blklen_bit := ?_ }
  · rw [show (0x3FF : Word) = 0x0200FFFF &&& 0x3FF by decide, ← BitVec.and_assoc, hblk]
    decide
  · rw [show (0x02000000 : Word) = 0x0200FFFF &&& 0x02000000 by decide, BitVec.and_comm, ← BitVec.and_assoc, hblk]
    decide

/-- OPC and RSPTYP lie within bits 9:0 (30_encoding.md R201). -/
theorem opcRsptyp_low (ho : o.toNat ≤ 63) (k : Kind) : opcRsptyp cfg o k &&& 0x3FF = opcRsptyp cfg o k := by
  have hcode : ∀ c : BitVec 3, c.setWidth 32 <<< 7 &&& (0x3FF : Word) = c.setWidth 32 <<< 7 := by decide
  have hopc : o &&& 0x3FF = o := within_of_lt (n := 10) (by decide) (by omega)
  rw [opcRsptyp, BitVec.and_or_distrib_right, hcode, hopc]

/-- The commands with the data-present bit (41_command_codec.md R254). -/
abbrev HasData (o f : Word) : Prop := o = 17 ∨ o = 24 ∨ ((o = 8 ∨ o = 6) ∧ f &&& 0x60 = 0x20)

/-- The union of the fields: OPC and RSPTYP, the block length but for STOP_TRANSMISSION, the patch bits. -/
def fieldsWord (cfg : Config) (o : Word) (k : Kind) (f : Word) : Word :=
  opcRsptyp cfg o k ||| bitsIf (o ≠ 12) 0x02000000 ||| bitsIf (HasData o f) cfg.cmdDataPresent |||
    bitsIf (o = 24) cfg.cmdWrite ||| bitsIf (o = 12) cfg.cmdStop

/-- The word is the union of its fields. -/
theorem rawWord_eq_fields (h : PatchesApart cfg) (hl : cfg.flags = defaultFlagLayout) (ho : o.toNat ≤ 63) (k : Kind)
    (f : Word) : rawWord cfg o k f = fieldsWord cfg o k f := by
  have hlow := apart_of_within (opcRsptyp_low (cfg := cfg) ho k) h.blklen_low
  rw [rawWord_formula hl, fieldsWord]
  generalize opcRsptyp cfg o k = x at hlow ⊢
  by_cases h12 : o = 12
  · subst h12
    simp only [bitsIf, HasData, BitVec.reduceEq, reduceIte, ne_eq, not_true_eq_false, or_self, false_and, BitVec.or_zero,
      BitVec.and_or_distrib_right, and_not_of_apart hlow, and_not_of_within h.blklen_bit, and_not_of_apart h.stop_blklen]
  · by_cases h17 : o = 17
    · subst h17
      simp only [bitsIf, HasData, BitVec.reduceEq, reduceIte, ne_eq, not_false_eq_true, true_or, BitVec.or_zero]
    · by_cases h24 : o = 24
      · subst h24
        simp only [bitsIf, HasData, BitVec.reduceEq, reduceIte, ne_eq, not_false_eq_true, true_or, or_true, BitVec.or_zero]
      · simp only [bitsIf, HasData, h12, h17, h24, if_false, ne_eq, not_false_eq_true, if_true, false_or, BitVec.or_zero]
        split
        · rfl
        · exact BitVec.or_zero.symm

/-- RSPTYP, read as a word, is bits 9:7 (30_encoding.md R217). -/
theorem setWidth_rawRsptyp (raw : Word) : (rawRsptyp raw).setWidth 32 = (raw >>> 7) &&& 7 := by
  apply BitVec.eq_of_toNat_eq
  rw [BitVec.toNat_and, rawRsptyp, BitVec.toNat_setWidth, BitVec.toNat_setWidth]
  exact (Nat.mod_eq_of_lt (by omega)).trans (Nat.and_two_pow_sub_one_eq_mod _ 3).symm

section Fields

variable (h : PatchesApart cfg) (ho : o.toNat ≤ 63) (k : Kind) (f : Word)
include h ho

theorem fieldsWord_data :
    fieldsWord cfg o k f &&& cfg.cmdDataPresent = bitsIf (HasData o f) cfg.cmdDataPresent &&& cfg.cmdDataPresent := by
  simp only [fieldsWord, BitVec.and_or_distrib_right, apart_of_within (opcRsptyp_low ho k) h.data_low,
    bitsIf_apart (apart_of_within h.blklen_bit h.data_blklen), bitsIf_apart (apart_comm h.data_write),
    bitsIf_apart (apart_comm h.data_stop), BitVec.or_zero, BitVec.zero_or]

theorem fieldsWord_write :
    fieldsWord cfg o k f &&& cfg.cmdWrite = bitsIf (o = 24) cfg.cmdWrite &&& cfg.cmdWrite := by
  simp only [fieldsWord, BitVec.and_or_distrib_right, apart_of_within (opcRsptyp_low ho k) h.write_low,
    bitsIf_apart (apart_of_within h.blklen_bit h.write_blklen), bitsIf_apart h.data_write,
    bitsIf_apart (apart_comm h.write_stop), BitVec.or_zero, BitVec.zero_or]

theorem fieldsWord_stop :
    fieldsWord cfg o k f &&& cfg.cmdStop = bitsIf (o = 12) cfg.cmdStop &&& cfg.cmdStop := by
  simp only [fieldsWord, BitVec.and_or_distrib_right, apart_of_within (opcRsptyp_low ho k) h.stop_low,
    bitsIf_apart (apart_of_within h.blklen_bit h.stop_blklen), bitsIf_apart h.data_stop, bitsIf_apart h.write_stop,
    BitVec.or_zero, BitVec.zero_or]

theorem fieldsWord_blklen :
    fieldsWord cfg o k f &&& cfg.cmdBlklenMask = bitsIf (o ≠ 12) 0x02000000 := by
  simp only [fieldsWord, BitVec.and_or_distrib_right, apart_of_within (opcRsptyp_low ho k) h.blklen_low,
    bitsIf_within h.blklen_bit, bitsIf_apart h.data_blklen, bitsIf_apart h.write_blklen, bitsIf_apart h.stop_blklen,
    BitVec.or_zero, BitVec.zero_or]

theorem fieldsWord_low : fieldsWord cfg o k f &&& 0x3FF = opcRsptyp cfg o k := by
  simp only [fieldsWord, BitVec.and_or_distrib_right, opcRsptyp_low ho, bitsIf_apart h.data_low,
    bitsIf_apart h.write_low, bitsIf_apart h.stop_low,
    bitsIf_apart (show (0x02000000 : Word) &&& 0x3FF = 0#32 by decide), BitVec.or_zero]

theorem fieldsWord_rsptyp : rawRsptyp (fieldsWord cfg o k f) = rspCode cfg.rspCode k := by
  calc rawRsptyp (fieldsWord cfg o k f) = rawRsptyp (fieldsWord cfg o k f &&& 0x3FF) := by
        rw [rawRsptyp_and]
        exact BitVec.and_allOnes.symm
    _ = rspCode cfg.rspCode k := by
        rw [fieldsWord_low h ho, opcRsptyp, rawRsptyp_or, rawRsptyp_code, rawRsptyp_opcode ho]
        exact BitVec.zero_or

end Fields

/-- Settles O18: a field of the word is what the union holds of that field, since no other part of it meets the field. -/
theorem commandWordFields : Obligations.CommandWordFields := by
  intro cfg o a f k raw hc hl hk he
  have h := patchesApart_of_wellFormed hc
  have ho := opcode_le_of_classify hk
  obtain rfl : fieldsWord cfg o k f = raw := by
    unfold encodeCommand at he
    split at he <;> cases he
    exact (rawWord_eq_fields h hl ho k f).symm
  refine ⟨encodeCommand_low hc ho he, ?_, ?_, ?_, ?_, ?_, ?_⟩
  · rw [← setWidth_rawRsptyp, fieldsWord_rsptyp h ho]
  · rw [fieldsWord_data h ho]
    exact bitsIf_and_self_ne_zero h.data
  · rw [fieldsWord_write h ho]
    exact bitsIf_and_self_ne_zero h.write
  · rw [fieldsWord_stop h ho]
    exact bitsIf_and_self_ne_zero h.stop
  · intro h12
    rw [fieldsWord_blklen h ho]
    exact if_neg (not_not_intro h12)
  · intro h12
    rw [fieldsWord_blklen h ho]
    exact if_pos h12

end Sys2Proof.Machine
end

section
/-! SUPPORT. The kinds CLASSIFY gives, and how CLASSIFY, ENCODE and the operations that send a command end when the codec
refuses or finds a multi-block opcode (41_command_codec.md R250 to R253, R266, R269, R276; 60_exceptions.md R407, R408). -/

namespace Sys2Proof.Machine

variable {s : State} {cfg : Config} {o a f : Word} {k : Kind}

/-! ## Operations that end at once -/

/-- An operation whose beginning is its end changes nothing but the outcome. -/
theorem exec_ends {i : Instr} {r : OpResult} (hc : ∀ b, i ≠ .construct b) (h : s.ready)
    (hi : startOf i s.begin = s.begin.endOp r) : exec i s = .next { s with result := some r } := by
  rw [exec_eq_hostOp hc]
  exact hostOp_ends h hi

/-- An operation that is fatal at its beginning sets HALTED beside the outcome (60_exceptions.md R408). -/
theorem exec_fatal {i : Instr} (hc : ∀ b, i ≠ .construct b) (h : s.ready) (hi : startOf i s.begin = s.begin.fatal o) :
    exec i s = .next { s with halted := true, result := some (.fatal o) } := by
  obtain ⟨ht, hq, hh⟩ := h
  rw [exec_eq_hostOp hc, hostOp_ready hh, hi, drive_ended rfl]
  exact congrArg _ (ended_eq (s := s.halt) ht hq _)

/-! ## Kinds -/

/-- The outcome of CLASSIFY of operands that pass the checks: the kind, or the refusal of a shape without one
(41_command_codec.md R251). -/
def kindOutcome : Option Kind → OpResult
  | some k => .ok (.kind k)
  | none => .refused .sequencing

/-- The checks pass an opcode up to 63 and flags up to bit 6 (30_encoding.md R202, R207). -/
theorem operandRefusal_none (hl : cfg.flags = defaultFlagLayout) (ho : o.toNat ≤ 63) (hf : f.toNat < 128) :
    operandRefusal cfg o f = none := by
  have hmask : fValidMask defaultFlagLayout = 0x7F := by decide
  have hvalid : f &&& ~~~0x7F = 0 := and_not_of_within (within_of_lt (n := 7) (by decide) hf)
  rw [operandRefusal, if_neg (Nat.not_lt.2 ho), hl, hmask, if_neg (not_not_intro hvalid)]

theorem classify_of_kindOf (hp : operandRefusal cfg o f = none) (hk : kindOf cfg o a f = some k) :
    classify cfg o a f = .ok k := by
  simp only [classify, hp, hk]

theorem classify_of_no_kind (hp : operandRefusal cfg o f = none) (hk : kindOf cfg o a f = none) :
    classify cfg o a f = .error .sequencing := by
  simp only [classify, hp, hk]

/-- SET_RELATIVE_ADDR goes by the class of its flags (41_command_codec.md R258). -/
theorem kindOf_setRelativeAddr (hl : cfg.flags = defaultFlagLayout) (a f : Word) :
    kindOf cfg 3 a f = some (if f &&& 0x60 = 0x60 then .kR6 else .kR1) := by
  rw [apply_ite some]
  unfold kindOf cmdClass
  rw [hl]
  rfl

/-- SELECT_CARD goes by its argument (41_command_codec.md R260). -/
theorem kindOf_selectCard (cfg : Config) (a f : Word) : kindOf cfg 7 a f = some (if a = 0 then .kNone else .kR1B) := by
  rw [apply_ite some]
  rfl

/-- An opcode without a kind of its own takes it from the flags (41_command_codec.md R251). -/
theorem kindOf_shaped (cfg : Config) (ho : o ∉ shapelessOpcodes) (a f : Word) :
    kindOf cfg o a f = kindFromFlags cfg.flags f := by
  simp only [shapelessOpcodes, List.mem_cons, List.not_mem_nil, or_false, not_or] at ho
  simp only [kindOf, ho, if_false, or_self]

/-- The flags-derived table under the default layout (30_encoding.md R207, R208). -/
theorem kindFromFlags_default (f : Word) :
    kindFromFlags defaultFlagLayout f =
      if f &&& 0x1F = 0x00 then some .kNone
      else if f &&& 0x1F = 0x15 then some .kR1
      else if f &&& 0x1F = 0x1D then some .kR1B
      else if f &&& 0x1F = 0x07 then some .kR2
      else if f &&& 0x1F = 0x01 then some .kR3
      else none := rfl

/-! ## The codec's operations -/

/-- CLASSIFY of a command that has a kind. -/
theorem exec_classify_ok (h : s.ready) (hk : classify s.cfg o a f = .ok k) :
    exec (.classify o a f) s = .next { s with result := some (.ok (.kind k)) } := by
  have hb : classify s.begin.cfg o a f = .ok k := hk
  exact exec_ends nofun h (by simp only [startOf, hb])

/-- SUBMIT of what the codec refuses. -/
theorem launch_codec_refused {r : Reason} (hh : s.halted = false) (ho : s.outstanding = false)
    (hk : classify s.cfg o a f = .error r) (c : Caller) : launch s o a f c = s.refuse r := by
  simp [launch, submitCheck, hh, ho, hk, State.stopWith, State.refuse]

/-- SUBMIT of a command without a word (41_command_codec.md R266, R269). -/
theorem launch_fatal (hh : s.halted = false) (ho : s.outstanding = false) (hk : classify s.cfg o a f = .ok k)
    (he : encodeCommand s.cfg o a k f = none) (c : Caller) : launch s o a f c = s.fatal o := by
  simp [launch, submitCheck, hh, ho, hk, he, State.stopWith]

/-- Settles O16: each of these operations asks the codec first, and ends with its refusal. -/
theorem codecRefusalsChangeNothing : Obligations.CodecRefusalsChangeNothing := by
  intro s o a f k i r hs hk hi
  have hb : classify s.begin.cfg o a f = .error r := hk
  have sub (ho : s.outstanding = false) (c : Caller) : launch s.begin o a f c = s.begin.refuse r :=
    launch_codec_refused (s := s.begin) hs.2.2 ho hk c
  obtain rfl | rfl | ⟨ho, rfl | rfl | hi⟩ := hi
  · exact exec_ends nofun hs (by simp only [startOf, hb]; rfl)
  · exact exec_ends nofun hs (by simp only [startOf, hb]; rfl)
  · exact exec_ends nofun hs (sub ho .submit)
  · exact exec_ends nofun hs (sub ho .cmd)
  · rw [exec_command hi]
    exact exec_ends nofun hs (sub ho .cmd)

/-- CLASSIFY of operands that pass the checks gives the kind, or refuses the shape. -/
theorem exec_classify (h : s.ready) (hp : operandRefusal s.cfg o f = none) (a : Word) :
    exec (.classify o a f) s = .next { s with result := some (kindOutcome (kindOf s.cfg o a f)) } := by
  cases hk : kindOf s.cfg o a f with
  | some k => exact exec_classify_ok h (classify_of_kindOf hp hk)
  | none => exact codecRefusalsChangeNothing s o a f .kNone _ _ h (classify_of_no_kind hp hk) (.inl rfl)

/-- Settles O13: each special-cased opcode has a branch of its own, which does not read the response shape. -/
theorem classifySpecialOpcodes : Obligations.ClassifySpecialOpcodes := by
  intro s o a f hs hl hf answers
  have special {k : Kind} (ho : o.toNat ≤ 63) (hk : kindOf s.cfg o a f = some k) : answers k :=
    exec_classify_ok hs (classify_of_kindOf (operandRefusal_none hl ho hf) hk)
  refine ⟨?_, ?_, ?_, ?_, ?_⟩
  · rintro (rfl | rfl)
    · exact special (by decide) rfl
    · exact special (by decide) rfl
  · rintro rfl
    exact special (by decide) (kindOf_setRelativeAddr hl a f)
  · rintro rfl
    exact special (by decide) rfl
  · rintro rfl
    exact special (by decide) rfl
  · rintro rfl
    exact special (by decide) (kindOf_selectCard s.cfg a f)

/-- Settles O14: no branch of its own is left, so the table of the response shapes decides. -/
theorem classifyFromFlags : Obligations.ClassifyFromFlags := by
  intro s o a f hs hl hf ho hn
  have apart : shapelessOpcodes ⊆ ([1, 3, 7, 39, 40, 41] : List Word) := by decide
  rw [exec_classify hs (operandRefusal_none hl ho hf), kindOf_shaped s.cfg (fun h => hn (apart h)), hl,
    kindFromFlags_default]
  simp only [apply_ite kindOutcome]
  rfl

/-- Settles O17: the kind is the one CLASSIFY gives, so ENCODE ends with the word, which is that of the formula. -/
theorem encodeBuildsTheWord : Obligations.EncodeBuildsTheWord := by
  intro s o a f k hs hu hk h18 h25
  have hb : classify s.begin.cfg o a f = .ok k := hk
  have he : encodeCommand s.begin.cfg o a k f = some (rawWord s.cfg o k f) := encode_usual hu h18 h25 a f k
  have word : exec (.encode o a k f) s = .next { s with result := some (.ok (.word (rawWord s.cfg o k f))) } :=
    exec_ends nofun hs (by simp only [startOf, hb, he, if_true])
  rw [word, rawWord_formula hu.1]
  rfl

/-- Settles O20: ENCODE compares the kind with that of CLASSIFY before it builds a word or is fatal. -/
theorem encodeRefusesAnotherKind : Obligations.EncodeRefusesAnotherKind := by
  intro s o a f k k' hs hk hne
  have hb : classify s.begin.cfg o a f = .ok k' := hk
  exact exec_ends nofun hs (by simp only [startOf, hb, if_neg hne.symm]; rfl)

/-- The multi-block opcodes have no word (41_command_codec.md R266, R269). -/
theorem encode_multiblock (h : cfg.usual) (ho : o = 18 ∨ o = 25) (a f : Word) (k : Kind) :
    encodeCommand cfg o a k f = none := by
  obtain ⟨-, hm, -⟩ := h
  rw [encodeCommand, hm]
  obtain rfl | rfl := ho <;> rfl

/-- Settles O21: there is a kind and no word, so whatever builds the word is fatal; CLASSIFY builds none. -/
theorem multiBlockIsFatal : Obligations.MultiBlockIsFatal := by
  intro s o a f k ⟨hs, hout⟩ hu ho hk
  have hb : classify s.begin.cfg o a f = .ok k := hk
  have he : encodeCommand s.begin.cfg o a k f = none := encode_multiblock hu ho a f k
  have sub (c : Caller) : launch s.begin o a f c = s.begin.fatal o := launch_fatal (s := s.begin) hs.2.2 hout hb he c
  refine ⟨fun i hi => ?_, exec_classify_ok hs hk⟩
  obtain rfl | rfl | rfl | hi := hi
  · exact exec_fatal nofun hs (by simp only [startOf, hb, he, if_true])
  · exact exec_fatal nofun hs (sub .submit)
  · exact exec_fatal nofun hs (sub .cmd)
  · rw [exec_command hi]
    exact exec_fatal nofun hs (sub .cmd)

/-! ## Words of the commands -/

/-- Settles O22: a well-formed row has a kind, which no parameter beside the flag layout enters, and only a multi-block
opcode has no word. -/
theorem wellFormedCommandsHaveWords : Obligations.WellFormedCommandsHaveWords := by
  intro cfg i o a f hu hw hc h18 h25
  obtain ⟨k, hk⟩ := kind_of_wellFormed hw hc
  exact ⟨k, _, (classify_flags hu.1 o a f).trans hk, encode_usual hu h18 h25 a f k⟩

/-- Settles O19: the codec computes each word of the list. -/
theorem commandWordsOfTheSpec : Obligations.CommandWordsOfTheSpec := by
  unfold Obligations.CommandWordsOfTheSpec
  decide

/-- Settles O1: the decoder computes each instruction. -/
theorem sampleWordsDecode : Obligations.SampleWordsDecode :=
  ⟨rfl, rfl, rfl, rfl, rfl, rfl, rfl⟩

end Sys2Proof.Machine
end

section
/-! SUPPORT. SDC_CMD is written right after its argument and a read of SDC_STS that showed its busy bit clear, and
nowhere else (42_command_response_engine.md R302, R303; 20_memory.md R183): SUBMIT's busy-wait is the one read whose answer
leads to such a write, but for the reads of the host's register operations, which no other operation issues. -/

namespace Sys2Proof.Machine

/-! ## Guarded events -/

/-- Each write of SDC_CMD in these events stands right after a write of SDC_ARG, and that one right after a read of
SDC_STS that showed the bit of the opcode clear. -/
def CommandsGuarded (base : Word) (cfg : Config) (new : List Event) : Prop :=
  ∀ (pre post : List Event) (w : Word), new = pre ++ .wr (base + offSdcCmd) w :: post →
    ∃ before v a, pre = before ++ [.rd (base + offSdcSts) v, .wr (base + offSdcArg) a] ∧
      v &&& busyMask cfg (w &&& 0x3F) = 0

namespace CommandsGuarded

variable {base : Word} {cfg : Config} {xs ys : List Event}

/-- Events without a write of SDC_CMD. -/
theorem of_no_write (h : ∀ e ∈ xs, e.writes (base + offSdcCmd) = false) : CommandsGuarded base cfg xs := by
  rintro pre post w rfl
  have hw := h (.wr (base + offSdcCmd) w) (by simp)
  simp [Event.writes] at hw

/-- What guards a write stands in the same part as the write. -/
theorem append (hx : CommandsGuarded base cfg xs) (hy : CommandsGuarded base cfg ys) :
    CommandsGuarded base cfg (xs ++ ys) := by
  intro pre post w e
  obtain ⟨mid, rfl, hmid⟩ | ⟨mid, hmid, hpost⟩ := List.append_eq_append_iff.1 e
  · obtain ⟨before, v, a, rfl, hv⟩ := hy mid post w hmid
    exact ⟨xs ++ before, v, a, (List.append_assoc ..).symm, hv⟩
  · cases mid with
    | nil =>
      obtain ⟨before, v, a, hb, -⟩ := hy [] post w hpost.symm
      simp at hb
    | cons e mid =>
      obtain ⟨rfl, -⟩ := List.cons.inj hpost
      exact hx pre mid w hmid

/-- The end of SUBMIT's busy-wait: the read that showed the bit clear, the argument, the command. -/
theorem command {v raw : Word} (hv : v &&& busyMask cfg (raw &&& 0x3F) = 0) (a : Word) :
    CommandsGuarded base cfg
      [.rd (base + offSdcSts) v, .wr (base + offSdcArg) a, .wr (base + offSdcCmd) raw] := by
  intro pre post w e
  have harg : base + offSdcArg ≠ base + offSdcCmd := fun h => absurd ((BitVec.add_right_inj base).1 h) (by decide)
  match pre with
  | [] => simp at e
  | [_] => simp [harg] at e
  | [_, _] =>
    simp only [List.cons_append, List.nil_append, List.cons.injEq, Event.wr.injEq] at e
    obtain ⟨rfl, rfl, ⟨-, rfl⟩, -⟩ := e
    exact ⟨[], v, a, rfl, hv⟩
  | _ :: _ :: _ :: _ => simp at e

end CommandsGuarded

/-! ## Guarded states -/

/-- `t` has the parameters and the base of `s`, and the writes of SDC_CMD since `s` are guarded. -/
def State.Guards (s t : State) : Prop :=
  t.base = s.base ∧ t.cfg = s.cfg ∧ ∃ new, t.trace = s.trace ++ new ∧ CommandsGuarded s.base s.cfg new

/-- Whether the answer to a read is written to whatever register the host named. -/
def Wait.writesHostRegister : Wait → Bool
  | .setBits _ _ | .clearBits _ _ => true
  | .regRead _ | .cfgEnable | .cfgMode | .busy _ _ _ | .awaitClear _ | .poll _ _ | .resp _ _ _ | .pioClear _
  | .pioRearm _ | .pioStatus _ | .pioFifo _ | .pioDrain _ _ | .pioRecheck _ => false

/-- So it is up to `t`, and the answer `t` waits for, if any, is written to no register of the host's. -/
structure State.GoesGuarded (s t : State) : Prop where
  guards : s.Guards t
  waits  : ∀ x, t.task = some x → x.wait.writesHostRegister = false

variable {s t : State}

namespace State.Guards

theorem refl (s : State) : s.Guards s := ⟨rfl, rfl, [], by simp, .of_no_write nofun⟩

theorem script (h : s.Guards t) {io : List Io} (hio : CommandsGuarded s.base s.cfg (io.map (Io.event s.base))) :
    s.Guards (t.says io) := by
  obtain ⟨hb, hc, new, hn, hg⟩ := h
  exact ⟨hb, hc, new ++ io.map (Io.event s.base), by simp [State.says, hn, hb], hg.append hio⟩

/-- An event that is no write. -/
theorem note (h : s.Guards t) {e : Event} (he : ∀ a, e.writes a = false) : s.Guards (t.emit e) := by
  obtain ⟨hb, hc, new, hn, hg⟩ := h
  exact ⟨hb, hc, new ++ [e], by simp [hn], hg.append (.of_no_write (by simp [he]))⟩

/-- A write of another register. -/
theorem writeReg (h : s.Guards t) {off : Word} (v : Word) (ho : off ≠ offSdcCmd := by decide) :
    s.Guards (t.writeReg off v) := by
  have hoff : s.base + off ≠ s.base + offSdcCmd := fun e => ho ((BitVec.add_right_inj s.base).1 e)
  exact h.script (io := [.wr off v]) (.of_no_write (by simpa [Io.event, Event.writes] using hoff))

theorem setSeq (h : s.Guards t) (q : Seq) : s.Guards (t.setSeq q) := h

theorem waitFor (h : s.Guards t) {w : Wait} (hw : w.writesHostRegister = false) (k : Caller) :
    s.GoesGuarded (t.waitFor w k) :=
  ⟨h, fun _ hx => Option.some.inj hx ▸ hw⟩

theorem endOp (h : s.Guards t) (x : OpResult) : s.GoesGuarded (t.endOp x) := ⟨h, nofun⟩

theorem stopWith (h : s.Guards t) (x : OpResult) : s.GoesGuarded (t.stopWith x) := by
  cases x with
  | fatal o => exact endOp (t := t.halt) h _
  | ok _ | err _ _ | refused _ => exact h.endOp _

theorem launch (h : s.Guards t) (o a f : Word) (k : Caller) : s.GoesGuarded (launch t o a f k) := by
  unfold Machine.launch
  split
  · exact h.stopWith _
  · exact waitFor (t := t.setFsm .submitting) h rfl k

theorem hookUnlessTuning (h : s.Guards t) (o : Word) : s.Guards (t.hookUnlessTuning o) := by
  unfold State.hookUnlessTuning
  split
  · exact h
  · exact h.note fun _ => rfl

theorem warn (h : s.Guards t) (st : Word) : s.Guards (t.warn st) := by
  unfold State.warn
  split
  · exact h.note fun _ => rfl
  · exact h

theorem ackTransfer (h : s.Guards t) (v : Word) : s.Guards (t.ackTransfer v) := by
  unfold State.ackTransfer
  split
  · exact h.writeReg _
  · exact h

theorem pioPush (n : Nat) : ∀ {t : State}, s.Guards t → s.Guards (pioPush n t) := by
  induction n with
  | zero => exact id
  | succ n ih => exact fun h => ih (h.writeReg (off := offTxdata) _)

/-! When a command ends. -/

theorem opcondReturn (h : s.Guards t) (w : Word) (p : OpcondFor) : s.GoesGuarded (opcondReturn t w p) := by
  cases p with
  | host => exact h.endOp _
  | probe | negotiate => exact (h.setSeq _).launch _ _ _ _

theorem opcondNext (h : s.Guards t) (a : Word) (i : Nat) (p : OpcondFor) (w : Word) :
    s.GoesGuarded (opcondNext t a i p w) := by
  unfold Machine.opcondNext
  split
  · exact h.opcondReturn _ _
  · split
    · exact h.opcondReturn _ _
    · split
      · exact (h.note fun _ => rfl).launch _ _ _ _
      · exact h.endOp _

theorem switchFinish (h : s.Guards t) (p st : Word) : s.GoesGuarded (switchFinish t p st) := by
  unfold Machine.switchFinish
  split
  · exact endOp (t := State.setPart _ none) ((h.warn st).note fun _ => rfl) _
  · exact endOp (t := State.setPart _ _) (h.warn st) _

theorem commandDone (h : s.Guards t) (ws : List Word) (k : Caller) : s.GoesGuarded (commandDone t ws k) := by
  cases k with
  | opcond a i p => exact h.opcondNext _ _ _ _
  | goIdle | sendCid _ | switchCmd _ => exact (h.setSeq _).launch _ _ _ _
  | setRca _ _ => exact h.launch _ _ _ _
  | selectCard ocr cid => exact endOp (t := t.setSession (some ⟨rca, cid, none, t.ocrSupported, ocr⟩)) h _
  | status p polls =>
    simp only [Machine.commandDone]
    split
    · split
      · exact h.launch _ _ _ _
      · exact endOp (t := t.setPart none) h _
    · exact h.switchFinish _ _
  | readBlock => exact (h.setSeq .io3).waitFor rfl _
  | writeBlock d => exact waitFor (t := (t.setSeq .io3).setBuf d) h rfl _
  | submit | await | cmd | pio | regOp => exact h.endOp _

theorem commandFailed (h : s.Guards t) (e : ErrKind) (k : Caller) : s.GoesGuarded (commandFailed t e k) := by
  cases k with
  | switchCmd _ | status _ _ => exact endOp (t := t.setPart none) h _
  | _ => exact h.endOp _

theorem readResponse (h : s.Guards t) (regs got : List Word) (k : Caller) :
    s.GoesGuarded (readResponse t regs got k) := by
  cases regs with
  | nil => exact commandDone (t := t.decodedWith got) h got k
  | cons off more => exact h.waitFor rfl k

theorem awaitPoll (h : s.Guards t) (c : Command) (n : Nat) (k : Caller) (v : Word) :
    s.GoesGuarded (awaitPoll t c n k v) := by
  unfold Machine.awaitPoll
  simp only
  split
  · split
    · exact h.waitFor rfl k
    · exact commandFailed (t := (t.setFsm .failed).setInflight none) h _ k
  · split
    · exact ((note (t := (t.writeReg offInt _).failedWith _) (h.writeReg _) fun _ => rfl).hookUnlessTuning
        c.opcode).commandFailed _ k
    · exact (h.writeReg (off := offInt) _).readResponse _ _ k

/-! Transfers. -/

theorem pioHead (h : s.Guards t) (p : PioPos) (k : Caller) : s.GoesGuarded (pioHead t p k) := by
  unfold Machine.pioHead
  split
  · exact h.waitFor rfl k
  · split
    · exact h.endOp _
    · split
      · exact h.waitFor rfl k
      · exact h.endOp _

theorem pioFail (h : s.Guards t) (v : Word) (c : Bool) : s.GoesGuarded (pioFail t v c) :=
  ((h.note fun _ => rfl).note fun _ => rfl).endOp _

theorem pioBurst (h : s.Guards t) (p : PioPos) (k : Caller) (n : Nat) : s.GoesGuarded (pioBurst t p k n) := by
  unfold Machine.pioBurst
  split
  · exact h.pioHead _ k
  · exact h.waitFor rfl k

theorem pioStatus (h : s.Guards t) (p : PioPos) (k : Caller) (v : Word) : s.GoesGuarded (pioStatus t p k v) := by
  unfold Machine.pioStatus
  split
  · exact h.pioFail _ _
  · exact (ackTransfer (t := t.latchDone v) h v).pioHead p k

theorem pioFifo (h : s.Guards t) (p : PioPos) (k : Caller) (v : Word) : s.GoesGuarded (pioFifo t p k v) := by
  unfold Machine.pioFifo
  split
  · split
    · exact h.pioBurst p k _
    · split
      · exact h.pioBurst p k _
      · exact h.waitFor rfl k
  · split
    · exact (pioPush _ h).pioHead _ k
    · exact h.waitFor rfl k

theorem pioDrain (h : s.Guards t) (p : PioPos) (k : Caller) (left : Nat) (v : Word) :
    s.GoesGuarded (pioDrain t p k left v) := by
  unfold Machine.pioDrain
  split
  · exact pioHead (t := t.storeWord v) h p k
  · exact waitFor (t := t.storeWord v) h rfl k

theorem pioRecheck (h : s.Guards t) (p : PioPos) (k : Caller) (v : Word) : s.GoesGuarded (pioRecheck t p k v) := by
  unfold Machine.pioRecheck
  split
  · exact h.pioFail _ _
  · split
    · exact h.waitFor rfl k
    · exact h.endOp _

/-! Answers and beginnings. -/

/-- SUBMIT's busy-wait ends: the read, the argument and the command. -/
theorem sendCommand (h : s.Guards t) {c : Command} {raw v : Word} (hraw : raw &&& 0x3F = c.opcode)
    (hv : v &&& busyMask t.cfg c.opcode = 0) : s.Guards ((t.says [.rd offSdcSts v]).sendCommand c raw) := by
  have hcfg : t.cfg = s.cfg := h.2.1
  have sent := h.script (io := [.rd offSdcSts v, .wr offSdcArg c.arg, .wr offSdcCmd raw])
    (.command (by rwa [hraw, ← hcfg]) c.arg)
  simp only [State.sendCommand, State.writeReg_eq, State.says_says]
  exact sent

/-- The answer to SUBMIT's busy-wait: the word that waits has the opcode whose bit was read. -/
theorem answerBusy (h : s.Guards t) {c : Command} {raw : Word} (hraw : raw &&& 0x3F = c.opcode) (n : Nat) (k : Caller)
    (v : Word) : s.GoesGuarded (answer ⟨.busy c raw n, k⟩ v t) := by
  have read : s.Guards (t.says [.rd offSdcSts v]) := h.note (e := .rd _ v) fun _ => rfl
  change s.GoesGuarded (submitBusy (t.says [.rd offSdcSts v]) c raw n k v)
  unfold submitBusy
  split
  · have sent := h.sendCommand hraw ‹_›
    split
    · exact sent.endOp _
    · exact sent.waitFor rfl k
  · split
    · exact read.waitFor rfl k
    · exact commandFailed (t := State.setFsm _ .failed) read _ k

/-- Every answer but those two and the busy-wait's. -/
theorem resume (h : s.Guards t) {w : Wait} (hw : w.writesHostRegister = false) (hb : ∀ c raw n, w ≠ .busy c raw n)
    (k : Caller) (v : Word) : s.GoesGuarded (resume ⟨w, k⟩ v t) := by
  cases w with
  | setBits _ _ | clearBits _ _ => cases hw
  | busy c raw n => exact absurd rfl (hb c raw n)
  | regRead _ => exact h.endOp _
  | cfgEnable => exact ((h.writeReg (off := offCfg) _).note fun _ => rfl).waitFor rfl k
  | cfgMode => exact (((h.writeReg (off := offCfg) _).note fun _ => rfl).setSeq .b2).launch _ _ _ k
  | awaitClear c => exact waitFor (t := State.setFsm _ _) (h.writeReg (off := offInten) _) rfl k
  | poll c n => exact h.awaitPoll c n k v
  | resp _ more got => exact h.readResponse _ _ k
  | pioClear d => exact waitFor (t := State.setDone (State.setRem _ _) _) (h.writeReg (off := offInten) _) rfl k
  | pioRearm p => exact waitFor (h.writeReg (off := offInten) _) rfl k
  | pioStatus p => exact h.pioStatus p k v
  | pioFifo p => exact h.pioFifo p k v
  | pioDrain p left => exact h.pioDrain p k left v
  | pioRecheck p => exact h.pioRecheck p k v

/-- Every answer, but to a register operation of the host, in a state of the invariant. -/
theorem answer (h : s.Guards t) {x : Task} (hw : x.wait.writesHostRegister = false) (hf : x.wait.fits t x.caller)
    (v : Word) : s.GoesGuarded (answer x v t) := by
  obtain ⟨w, k⟩ := x
  by_cases hb : ∃ c raw n, w = .busy c raw n
  · obtain ⟨c, raw, n, rfl⟩ := hb
    obtain ⟨-, -, -, hraw, -⟩ := hf
    exact h.answerBusy hraw n k v
  · exact resume (t := t.emit _) (h.note fun _ => rfl) hw (fun c raw n e => hb ⟨c, raw, n, e⟩) k v

/-- Every beginning but those of the host's register operations. -/
theorem startOf (h : s.Guards t) {i : Instr}
    (hi : ∀ reg x, i ≠ .regWrite reg x ∧ i ≠ .regSetBits reg x ∧ i ≠ .regClearBits reg x)
    (hc : ∀ b, i ≠ .construct b) : s.GoesGuarded (startOf i t) := by
  cases i with
  | construct b => exact absurd rfl (hc b)
  | regWrite reg x => exact absurd rfl (hi reg x).1
  | regSetBits reg x => exact absurd rfl (hi reg x).2.1
  | regClearBits reg x => exact absurd rfl (hi reg x).2.2
  | regRead _ | pioRead =>
    simp only [Machine.startOf]
    split
    · exact h.waitFor rfl _
    · exact h.endOp _
  | pioWrite d =>
    simp only [Machine.startOf]
    split
    · exact waitFor (t := t.setBuf d) h rfl _
    · exact h.endOp _
  | classify o a f =>
    simp only [Machine.startOf]
    split
    · exact h.endOp _
    · exact h.endOp _
  | encode o a k f =>
    simp only [Machine.startOf]
    split
    · exact h.endOp _
    · split
      · split
        · exact h.endOp _
        · exact endOp (t := t.halt) h _
      · exact h.endOp _
  | await =>
    simp only [Machine.startOf]
    split
    · exact h.waitFor rfl _
    · exact h.endOp _
  | bringup =>
    simp only [Machine.startOf]
    split
    · exact h.endOp _
    · exact waitFor (t := (t.setSession none).setSeq .b1) h rfl _
  | ffs _ | selectWindow _ => exact h.endOp _
  | switchPart p =>
    simp only [Machine.startOf]
    split
    · exact h.endOp _
    · split
      · exact h.endOp _
      · exact (h.setSeq .p1).launch _ _ _ _
  | readBlock _ | writeBlockOp _ _ =>
    simp only [Machine.startOf]
    split
    · exact h.endOp _
    · exact (((h.setSeq .io1).writeReg (off := offSdcBlkNum) _).setSeq .io2).launch _ _ _ _
  | resetHook => exact (h.note fun _ => rfl).endOp _
  | deviceReset => exact endOp (t := t.setSession none) h _
  | _ => exact h.launch _ _ _ _

end State.Guards

/-! ## Every step -/

theorem State.GoesGuarded.answer {x : Task} (h : s.GoesGuarded t) (hi : Inv t) (ht : t.task = some x) (v : Word) :
    s.GoesGuarded (answer x v t) := by
  obtain ⟨-, hf⟩ := hi.running x ht
  exact h.guards.answer (h.waits x ht) hf v

/-- A whole run, in states of the invariant. -/
theorem State.GoesGuarded.drive (h : s.GoesGuarded t) (hi : Inv t) (vs : List Word) : s.GoesGuarded (drive vs t) :=
  (drive_keeps (P := fun t => Inv t ∧ s.GoesGuarded t) (fun _ _ v h ht => ⟨h.1.answer ht v, h.2.answer h.1 ht v⟩)
    (fun _ vs h => ⟨h.1.setEnv vs, h.2.guards, h.2.waits⟩) vs t ⟨hi, h⟩).2

/-- A read that fits an operation which is no register operation is not one of theirs. -/
theorem not_writesHostRegister_of_fits {w : Wait} {k : Caller} (hk : k ≠ .regOp) (hw : w.fits s k) :
    w.writesHostRegister = false := by
  cases w with
  | setBits _ _ | clearBits _ _ => exact absurd hw.2 hk
  | _ => rfl

/-- A step that goes on with an operation that is no register operation. -/
theorem stepTask_guards {x : Task} (hi : Inv s) (ht : s.task = some x) (hk : x.caller ≠ .regOp) :
    s.Guards (stepTask x s) := by
  obtain ⟨-, hf⟩ := hi.running x ht
  have hw := not_writesHostRegister_of_fits hk hf
  unfold stepTask
  split
  · exact (State.Guards.answer (t := s.spendFree) (.refl s) hw (hi.spendFree.running x ht).2 _).guards
  · exact (State.GoesGuarded.drive ⟨.refl s, fun y hy => Option.some.inj (ht.symm.trans hy) ▸ hw⟩ hi _).guards

/-- A decoded instruction that is no register operation and not CONSTRUCT. -/
theorem exec_guards {i : Instr} (hi : Inv s) (ht : s.task = none) (hb : i.blockLength)
    (hreg : ∀ reg x, i ≠ .regWrite reg x ∧ i ≠ .regSetBits reg x ∧ i ≠ .regClearBits reg x)
    (hc : ∀ b, i ≠ .construct b) (h : exec i s = .next t) : s.Guards t := by
  obtain ⟨hq, hs⟩ := hi.between ht
  rw [exec_eq_hostOp hc] at h
  simp only [hostOp, Host.Outcome.next.injEq] at h
  subst h
  refine (State.GoesGuarded.drive ?_ ?_ _).guards
  · split
    · exact State.Guards.endOp (t := s.begin) (.refl s) _
    · exact State.Guards.startOf (t := s.begin) (.refl s) hreg hc
  · split
    · exact hi.sound.begin.refuse hs _
    · exact hi.sound.begin.startOf hs (by simpa using ‹¬s.halted = true›) hq hc hb

/-- CONSTRUCT emits no event, whether it accepts the base or not. -/
theorem exec_construct_trace {b : Word} (h : exec (.construct b) s = .next t) : t.trace = s.trace := by
  cases hb : goodBase b with
  | true => exact (exec_construct_good hb h).2
  | false =>
    rw [exec_construct_bad hb] at h
    cases h
    rfl

/-- A step that begins no register operation and goes on with none guards its commands. -/
theorem step_guards (hi : Inv s) (hr : ¬s.inRegOp) (h : step s = .next t) :
    ∃ new, t.trace = s.trace ++ new ∧ CommandsGuarded s.base s.cfg new := by
  have silent (h : t.trace = s.trace) : ∃ new, t.trace = s.trace ++ new ∧ CommandsGuarded s.base s.cfg new :=
    ⟨[], by simp [h], .of_no_write nofun⟩
  cases ht : s.task with
  | some x =>
    rw [step_running ht] at h
    cases h
    obtain ⟨-, -, guarded⟩ := stepTask_guards hi ht fun hk => hr (.inl ⟨x, ht, hk⟩)
    exact guarded
  | none =>
    obtain rfl | ⟨r, rs, i, hq, hd, h⟩ := step_idle ht h
    · exact silent rfl
    by_cases hc : ∃ b, i = .construct b
    · obtain ⟨b, rfl⟩ := hc
      exact silent (exec_construct_trace (s := s.setRequests rs) h)
    · have hreg (reg x : Word) : i ≠ .regWrite reg x ∧ i ≠ .regSetBits reg x ∧ i ≠ .regClearBits reg x := by
        refine ⟨?_, ?_, ?_⟩ <;> (rintro rfl; exact hr (.inr ⟨ht, r, rs, reg, x, hq, by simp [hd]⟩))
      obtain ⟨-, -, guarded⟩ := exec_guards (hi.setRequests rs) ht (decode_blockLength hd) hreg (not_exists.1 hc) h
      exact guarded

/-- Settles O26: a step guards its commands, and by the invariant a word that waits has the opcode of its command. -/
theorem noCommandWithoutAnIdleRead : Obligations.NoCommandWithoutAnIdleRead := by
  intro s t hi hr h
  refine ⟨step_guards hi hr h, fun c raw n k ht => ?_⟩
  obtain ⟨-, -, -, -, hraw, -⟩ := (stepKeepsTheInvariant s t hi h).running _ ht
  exact hraw

end Sys2Proof.Machine
end

section
/-! SUPPORT. SUBMIT, AWAIT, CMD and the command rows from beginning to end with answers that end their spins
(42_command_response_engine.md R301 to R312): each is one run of Laws/Drive.lean and then an end. -/

namespace Sys2Proof.Machine

variable {s t : State}

/-- An operation whose run comes to an end of `t` leaves `t` with the outcome and the answers not consumed. -/
theorem exec_run_ends {i : Instr} {u : State} {r : OpResult} {vs : List Word} (t : State) (rest : List Word)
    (hc : ∀ b, i ≠ .construct b) (h : s.ready) (ht : t.task = none) (hq : t.seq = .s0) (hv : s.env = vs)
    (hu : startOf i s.begin = u) (hr : drive vs u = drive rest (t.begin.endOp r)) :
    exec i s = .next { t with env := rest, result := some r } := by
  rw [exec_eq_hostOp hc, hostOp_ready h.2.2, hv, hu, hr, drive_ended rfl]
  exact congrArg _ (ended_eq (s := t.setEnv rest) ht hq r)

/-- AWAIT with a submitted command in flight begins its work on it. -/
theorem startOf_await {c : Command} (hf : s.fsm = .submitting) (hi : s.inflight = some c) :
    startOf .await s = awaitStart s c .await := by
  simp only [startOf, hf, hi]

/-- AWAIT without one is refused (42_command_response_engine.md R304). -/
theorem startOf_await_refused (h : s.fsm ≠ .submitting ∨ s.inflight = none) :
    startOf .await s = s.refuse .noCommand := by
  simp only [startOf]
  split
  · rename_i c hf hi
    simp [hf, hi] at h
  · rfl

/-- Between operations an error names no step of the session controller. -/
theorem raiseErr_of_s0 (hq : s.seq = .s0) (e : ErrKind) : s.raiseErr e = s.endOp (.err e .s0) := by
  rw [State.raiseErr, hq]

/-- The error bits among the matched ones; response-CRC-error wins over command-timeout (42_command_response_engine.md
R307, R311). -/
theorem cmdError_matched (m : Word) (c : Command) :
    cmdError (m &&& cmdErrMask) c =
      if m &&& 0x400 ≠ 0 then .rspCrcErr (m &&& 0x600) c.opcode c.arg
      else .cmdTimeout (m &&& 0x600) c.opcode c.arg := by
  have hcrc : m &&& cmdErrMask &&& intRspCrcErr = m &&& 0x400 := BitVec.and_assoc ..
  rw [cmdError, hcrc]
  rfl

/-- Settles O24: the run of SUBMIT's busy-wait, with SUBMIT itself as the caller. -/
theorem submitWritesArgumentThenCommand : Obligations.SubmitWritesArgumentThenCommand := by
  intro s o a f kind raw busy idle rest bit ⟨hs, ho⟩ hl hk he hb hi henv
  obtain ⟨ht, hq, hh⟩ := hs
  have sent := drive_submit (s := s.begin.setFsm .submitting) (c := ⟨o, a, f, kind⟩) (raw := raw) (k := .submit)
    (a := ⟨busy, idle, 0, [], 0, []⟩) hl hb hi rest
  rw [if_pos rfl] at sent
  have hv : s.env = answersOf (submitIo ⟨busy, idle, 0, [], 0, []⟩ a raw) ++ rest := by simp [henv, submitIo]
  exact exec_run_ends
    (((s.says (submitIo ⟨busy, idle, 0, [], 0, []⟩ a raw)).setFsm .submitting).setInflight (some ⟨o, a, f, kind⟩))
    rest nofun ⟨ht, hq, hh⟩ ht hq hv (launch_ok (s := s.begin) .submit hh ho hk he) sent

/-- Settles O27: the run of AWAIT on a command that succeeds. -/
theorem awaitSucceeds : Obligations.AwaitSucceeds := by
  intro s c a rest ⟨ht, hq, hh⟩ hl hf hi hp he hw henv
  exact exec_run_ends ((s.says (awaitIo a s.cfg ++ respIo c.kind a.words)).decodedWith a.words) rest nofun
    ⟨ht, hq, hh⟩ ht hq henv (startOf_await (s := s.begin) hf hi)
    (drive_await_succeeds (s := s.begin) (k := .await) hl hp he hw rest)

/-- Settles O28: the run of AWAIT on a command that fails. -/
theorem awaitFails : Obligations.AwaitFails := by
  intro s c a rest ⟨ht, hq, hh⟩ hl hf hi hp he henv m
  have failed := drive_await_fails (s := s.begin) (c := c) (k := .await) hl hp he rest
  rw [commandFailed, raiseErr_of_s0 (by exact hq)] at failed
  rw [← cmdError_matched]
  exact exec_run_ends ((s.says (awaitIo a s.cfg ++ cmdFailIo a s.cfg c.opcode c.arg)).failedWith (m &&& cmdErrMask))
    rest nofun ⟨ht, hq, hh⟩ ht hq henv (startOf_await (s := s.begin) hf hi) failed

/-- CMD and a command row are one operation (log entry 9). -/
theorem exec_command_or_cmd {i : Instr} {o a f : Word} (h : i.command = some (o, a, f) ∨ i = .cmd o a f) (s : State) :
    exec i s = exec (.cmd o a f) s := by
  obtain h | rfl := h
  · exact exec_command h s
  · rfl

/-- Settles O30: the run of a whole command that succeeds, with CMD as the caller. -/
theorem commandsComplete : Obligations.CommandsComplete := by
  intro s i o arg f kind raw a rest hi ⟨⟨ht, hq, hh⟩, ho⟩ hl hk he ha henv
  rw [exec_command_or_cmd hi]
  exact exec_run_ends ((s.says (cmdIo a s.cfg arg raw kind)).decodedWith a.words) rest nofun ⟨ht, hq, hh⟩ ht hq henv
    rfl (drive_command_succeeds (s := s.begin) (k := .cmd) hl hh ho hk he ha nofun rest)

/-- Settles O31: the run of a whole command that fails. -/
theorem commandsReportFailure : Obligations.CommandsReportFailure := by
  intro s i o arg f kind raw a rest hi ⟨⟨ht, hq, hh⟩, ho⟩ hl hk he ha henv m
  have failed := drive_command_fails (s := s.begin) (k := .cmd) hl hh ho hk he ha nofun rest
  rw [commandFailed, raiseErr_of_s0 (by exact hq)] at failed
  rw [exec_command_or_cmd hi, ← cmdError_matched m ⟨o, arg, f, kind⟩]
  exact exec_run_ends
    ((s.says (submitIo a arg raw ++ awaitIo a s.cfg ++ cmdFailIo a s.cfg o arg)).failedWith (m &&& cmdErrMask))
    rest nofun ⟨ht, hq, hh⟩ ht hq henv rfl failed

/-- Settles O29: AWAIT's beginning tests for the command, and its first answer is the read of INTEN. -/
theorem awaitNeedsASubmittedCommand : Obligations.AwaitNeedsASubmittedCommand := by
  refine ⟨fun s hs h => ?_, fun s c e hs hf hi henv => ?_⟩
  · exact exec_ends (i := .await) (r := .refused .noCommand) nofun hs (startOf_await_refused (s := s.begin) h)
  · rw [exec_eq_hostOp (i := .await) nofun, hostOp_ready hs.2.2, startOf_await (s := s.begin) hf hi, henv,
      awaitStart, drive_wait]
    simp only [resume, awaitClear, State.clearBitsWrite_eq, State.waitFor_says, State.says_says]
    rfl

end Sys2Proof.Machine
end

section
/-! SUPPORT. The spins at a finite POLL_LIMIT (60_exceptions.md R410; log entry 16): what an answer to SUBMIT's busy-wait
comes to in each case, the busy-wait up to its last allowed read, and every other spin at its own. -/

namespace Sys2Proof.Machine

variable {s : State}

/-! ## Limits -/

/-- At the last allowed read a spin does not go on. -/
theorem mayPoll_at_limit {limit n : Nat} (hl : s.cfg.pollLimit = some limit) (hn : limit ≤ n + 1) :
    ¬s.mayPoll n = true := by
  simp only [State.mayPoll, hl, decide_eq_true_eq]
  exact Nat.not_lt.2 hn

/-- Before it it does. -/
theorem mayPoll_below_limit {limit n : Nat} (hl : s.cfg.pollLimit = some limit) (hn : n + 1 < limit) :
    s.mayPoll n = true := by
  simp only [State.mayPoll, hl, decide_eq_true hn]

/-! ## SUBMIT's busy-wait -/

section Busy

variable {c : Command} {raw v : Word} {n : Nat} {k : Caller}

/-- Busy, and the wait goes on. -/
theorem submitBusy_again (hv : v &&& busyMask s.cfg c.opcode ≠ 0) (hm : s.mayPoll n = true) :
    submitBusy s c raw n k v = s.waitFor (.busy c raw (n + 1)) k := by
  rw [submitBusy, if_neg hv, if_pos hm]

/-- Busy at the last allowed read. -/
theorem submitBusy_limit (hv : v &&& busyMask s.cfg c.opcode ≠ 0) (hm : ¬s.mayPoll n = true) :
    submitBusy s c raw n k v = commandFailed (s.setFsm .failed) (.pollTimeout .busyWait) k := by
  rw [submitBusy, if_neg hv, if_neg hm]

/-- Not busy, with SUBMIT itself as the caller. -/
theorem submitBusy_idle_submit (hv : v &&& busyMask s.cfg c.opcode = 0) :
    submitBusy s c raw n .submit v = (s.sendCommand c raw).endOp (.ok .unit) := by
  rw [submitBusy, if_pos hv, if_pos rfl]

/-- Not busy, with an operation that goes on with AWAIT as the caller. -/
theorem submitBusy_idle (hk : k ≠ .submit) (hv : v &&& busyMask s.cfg c.opcode = 0) :
    submitBusy s c raw n k v = awaitStart (s.sendCommand c raw) c k := by
  rw [submitBusy, if_pos hv, if_neg hk]

/-- What the busy-wait does with an answer does not depend on the position left behind. -/
theorem submitBusy_waitFor (w : Wait) (k' : Caller) :
    submitBusy (s.waitFor w k') c raw n k v = submitBusy s c raw n k v := by
  cases k <;> rfl

/-- The busy-wait consumes the next answer. -/
theorem drive_busy_cons (vs : List Word) :
    drive (v :: vs) (s.waitFor (.busy c raw n) k) = drive vs (submitBusy (s.says [.rd offSdcSts v]) c raw n k v) := by
  rw [drive_wait]
  exact congrArg (drive vs) (submitBusy_waitFor _ _)

end Busy

/-- The busy-wait of any operation to its last allowed read. -/
theorem drive_busy_limit {c : Command} {raw : Word} {k : Caller} {limit : Nat} (vs busy : List Word) :
    ∀ {s : State} {n : Nat}, s.cfg.pollLimit = some limit → busy ≠ [] → n + busy.length = limit →
      (∀ b ∈ busy, b &&& busyMask s.cfg c.opcode ≠ 0) →
      drive (busy ++ vs) (s.waitFor (.busy c raw n) k) =
        drive vs (commandFailed ((s.says (busy.map (Io.rd offSdcSts))).setFsm .failed) (.pollTimeout .busyWait) k) := by
  induction busy with
  | nil => intro s n _ h; exact absurd rfl h
  | cons b busy ih =>
    intro s n hl _ hn hb
    have hb0 : b &&& busyMask s.cfg c.opcode ≠ 0 := hb b List.mem_cons_self
    rw [List.cons_append, drive_busy_cons]
    cases busy with
    | nil =>
      have hlast : ¬s.mayPoll n = true := mayPoll_at_limit hl hn.ge
      rw [submitBusy_limit (s := s.says [.rd offSdcSts b]) hb0 hlast]
      rfl
    | cons b' busy =>
      have hmore : s.mayPoll n = true := mayPoll_below_limit hl (by simp only [List.length_cons] at hn; omega)
      rw [submitBusy_again (s := s.says [.rd offSdcSts b]) hb0 hmore,
        ih (s := s.says [.rd offSdcSts b]) hl (List.cons_ne_nil _ _) (by simp only [List.length_cons] at hn ⊢; omega)
          fun x hx => hb x (List.mem_cons_of_mem _ hx)]
      simp

/-! ## The other spins at their last allowed read -/

section Limits

variable {v : Word} {n : Nat} {k : Caller}

/-- AWAIT's poll without an awaited bit. -/
theorem awaitPoll_limit {c : Command} (hv : v &&& cmdWaitMask s.cfg = 0) (hm : ¬s.mayPoll n = true) :
    awaitPoll s c n k v = commandFailed ((s.setFsm .failed).setInflight none) (.pollTimeout .intPoll) k := by
  unfold awaitPoll
  exact (if_pos hv).trans (if_neg hm)

/-- The inner loop of a transfer without data-timeout. -/
theorem pioRecheck_limit {p : PioPos} (hv : v &&& intDatTmo = 0) (hm : ¬s.mayPoll p.inner = true) :
    pioRecheck s p k v = s.raiseErr (.pollTimeout .pioInner) := by
  rw [pioRecheck, if_neg (not_not_intro hv), if_neg hm]

/-- An outer status without an error and without transfer-complete, no bytes left and none complete before. -/
theorem pioStatus_limit {p : PioPos} (hv : v &&& xferInts = 0) (hr : s.rem = 0) (hd : s.done = false)
    (hm : ¬s.mayPoll p.outer = true) : pioStatus s p k v = s.raiseErr (.pollTimeout .pioOuter) := by
  have herr : v &&& xferErrMask = 0 := apart_comm (apart_of_within (c := xferInts) (by decide) hv)
  have hcompl : v &&& intXferCompl = 0 := apart_comm (apart_of_within (c := xferInts) (by decide) hv)
  have hlatch : s.latchDone v = s := by
    rw [State.latchDone, hcompl, bne_self_eq_false, Bool.or_false]
    rfl
  have hack : s.ackTransfer v = s := if_neg fun h => h.2 hv
  rw [pioStatus, if_neg (not_not_intro herr), hlatch, hack, pioHead, if_neg (by simp [hr]), if_neg (by simp [hd]),
    if_neg hm]

/-- A SEND_STATUS that finds the card programming. -/
theorem awaitDone_status_limit {p : Word} (hv : cardState v = statePrg) (hm : ¬s.mayPoll n = true) :
    awaitDone s [v] (.status p n) = ((s.decodedWith [v]).setPart none).raiseErr (.pollTimeout .statusLoop) := by
  simp only [awaitDone, commandDone]
  exact (if_pos hv).trans (if_neg hm)

end Limits

/-! ## The end of a spin -/

/-- A step whose first answer ends the operation leaves the other answers queued. -/
theorem step_answer_ends {x : Task} {u : State} {v : Word} {rest : List Word} (ht : s.task = some x)
    (hv : s.env = v :: rest) (hu : answer x v s = u) (he : u.task = none) : step s = .next (u.setEnv rest) := by
  rw [step_running ht, stepTask_queued (by simp [hv]), hv, drive_cons ht, hu, drive_ended he]

/-- A command that fails ends its operation. -/
theorem commandFailed_task (e : ErrKind) (k : Caller) : (commandFailed s e k).task = none := by cases k <;> rfl

/-- Settles O25: a run of busy reads goes on, or ends at the limit; and each spin's answer at its limit ends its
operation. -/
theorem spinsEndAtTheLimit : Obligations.SpinsEndAtTheLimit := by
  refine ⟨fun s o a f kind raw busy ⟨⟨ht, hq, hh⟩, ho⟩ hk he hb => ?_, ?_⟩
  · have launched : startOf (.submit o a f) s.begin =
        (s.begin.setFsm .submitting).waitFor (.busy ⟨o, a, f, kind⟩ raw 0) .submit :=
      launch_ok (s := s.begin) .submit hh ho hk he
    refine ⟨fun hl henv => ?_, fun n rest hl hn henv => ?_⟩
    · have spun := drive_busy (s := s.begin.setFsm .submitting) (c := ⟨o, a, f, kind⟩) (raw := raw) (k := .submit)
        (n := 0) [] busy hl hb
      rw [List.append_nil, Nat.zero_add] at spun
      have begun : exec (.submit o a f) s = .next (drive busy ((s.begin.setFsm .submitting).waitFor
          (.busy ⟨o, a, f, kind⟩ raw 0) .submit)) := by
        rw [exec_eq_hostOp (i := .submit o a f) nofun, hostOp_ready hh, launched, henv]
      exact ⟨_, begun.trans (congrArg _ spun), rfl, rfl, rfl, rfl⟩
    · have spun := drive_busy_limit (s := s.begin.setFsm .submitting) (c := ⟨o, a, f, kind⟩) (raw := raw)
        (k := .submit) (n := 0) rest busy hl (List.ne_nil_of_length_eq_add_one hn) (by omega) hb
      rw [commandFailed, raiseErr_of_s0 (by exact hq)] at spun
      exact exec_run_ends ((s.says (busy.map (Io.rd offSdcSts))).setFsm .failed) rest nofun ⟨ht, hq, hh⟩ ht hq henv
        launched spun
  · intro s k limit v rest hl hv unknown
    refine ⟨fun c raw n ht hn hb => ?_, fun c n ht hn hb => ?_, fun p ht hn hb => ?_, fun p ht hn hb hr hd => ?_,
      fun p n ht hn hb => ?_⟩
    · rw [step_answer_ends ht hv (submitBusy_limit (s := s.says [.rd offSdcSts v]) hb (mayPoll_at_limit hl hn))
        (commandFailed_task _ _)]
      cases k <;> rfl
    · rw [step_answer_ends ht hv (awaitPoll_limit (s := s.says [.rd offInt v]) hb (mayPoll_at_limit hl hn))
        (commandFailed_task _ _)]
      cases k <;> rfl
    · exact step_answer_ends ht hv (pioRecheck_limit (s := s.says [.rd offInt v]) hb (mayPoll_at_limit hl hn)) rfl
    · exact step_answer_ends ht hv (pioStatus_limit (s := s.says [.rd offInt v]) hb hr hd (mayPoll_at_limit hl hn)) rfl
    · have prg : cardState v = statePrg := congrArg BitVec.toNat hb
      exact step_answer_ends ht hv
        (awaitDone_status_limit (s := s.says [.rd offSdcResp0 v]) prg (mayPoll_at_limit hl hn)) rfl

end Sys2Proof.Machine
end

section
/-! SUPPORT. CMD is SUBMIT and then AWAIT (42_command_response_engine.md R312), whatever the environment answers and
whatever POLL_LIMIT is: the busy-wait is the same read by read, and so is the work of AWAIT for its two callers. -/

namespace Sys2Proof.Machine

variable {s : State} {c : Command} {k : Caller}

/-! ## The answers to AWAIT's reads -/

section Poll

variable {v : Word} {n : Nat}

/-- No awaited bit, and the poll goes on. -/
theorem awaitPoll_again (hv : v &&& cmdWaitMask s.cfg = 0) (hm : s.mayPoll n = true) :
    awaitPoll s c n k v = s.waitFor (.poll c (n + 1)) k := by
  unfold awaitPoll
  exact (if_pos hv).trans (if_pos hm)

/-- An error bit among the matched ones. -/
theorem awaitPoll_error (hv : v &&& cmdWaitMask s.cfg ≠ 0) (he : v &&& cmdWaitMask s.cfg &&& cmdErrMask ≠ 0) :
    awaitPoll s c n k v =
      awaitFail (s.writeReg offInt (v &&& cmdWaitMask s.cfg)) c (v &&& cmdWaitMask s.cfg) k := by
  unfold awaitPoll
  exact (if_neg hv).trans (if_pos he)

/-- An awaited bit and no error bit. -/
theorem awaitPoll_ready (hv : v &&& cmdWaitMask s.cfg ≠ 0) (he : ¬v &&& cmdWaitMask s.cfg &&& cmdErrMask ≠ 0) :
    awaitPoll s c n k v = readResponse (s.writeReg offInt (v &&& cmdWaitMask s.cfg)) (respRegs c.kind) [] k := by
  unfold awaitPoll
  exact (if_neg hv).trans (if_neg he)

end Poll

/-! What AWAIT does with an answer does not depend on the position left behind. -/

theorem awaitFail_waitFor (w : Wait) (k' : Caller) (m : Word) :
    awaitFail (s.waitFor w k') c m k = awaitFail s c m k := by
  rw [awaitFail, awaitFail, State.hookUnlessTuning_eq, State.hookUnlessTuning_eq]
  exact commandFailed_waitFor (State.says ((s.failedWith _).emit _) _) w k' _ k

theorem readResponse_waitFor (w : Wait) (k' : Caller) (regs got : List Word) :
    readResponse (s.waitFor w k') regs got k = readResponse s regs got k := by
  cases regs with
  | nil => exact commandDone_waitFor (s.decodedWith got) w k' got k
  | cons off more => rfl

theorem awaitPoll_waitFor (w : Wait) (k' : Caller) (n : Nat) (v : Word) :
    awaitPoll (s.waitFor w k') c n k v = awaitPoll s c n k v := by
  by_cases hv : v &&& cmdWaitMask s.cfg = 0
  · by_cases hm : s.mayPoll n = true
    · rw [awaitPoll_again hv hm]
      exact awaitPoll_again hv hm
    · rw [awaitPoll_limit hv hm, ← commandFailed_waitFor _ w k']
      exact awaitPoll_limit hv hm
  · by_cases he : v &&& cmdWaitMask s.cfg &&& cmdErrMask ≠ 0
    · rw [awaitPoll_error hv he, ← awaitFail_waitFor w k']
      exact awaitPoll_error hv he
    · rw [awaitPoll_ready hv he, ← readResponse_waitFor w k']
      exact awaitPoll_ready hv he

theorem drive_poll_cons (n : Nat) (v : Word) (vs : List Word) :
    drive (v :: vs) (s.waitFor (.poll c n) k) = drive vs (awaitPoll (s.says [.rd offInt v]) c n k v) := by
  rw [drive_wait]
  exact congrArg (drive vs) (awaitPoll_waitFor _ _ _ _)

theorem drive_resp_cons (off : Word) (more got : List Word) (v : Word) (vs : List Word) :
    drive (v :: vs) (s.waitFor (.resp off more got) k) =
      drive vs (readResponse (s.says [.rd off v]) more (got ++ [v]) k) := by
  rw [drive_wait]
  exact congrArg (drive vs) (readResponse_waitFor _ _ _ _)

/-! ## AWAIT's work for its two callers -/

/-- A run that has no answer for the read just issued has not ended. -/
theorem drive_nil_wait_runs (s : State) (w : Wait) (k : Caller) : (drive [] (s.waitFor w k)).task ≠ none := nofun

/-- The response reads, if they come to their end. -/
theorem drive_readResponse_cmd (regs : List Word) : ∀ {s : State} {got vs : List Word},
    (drive vs (readResponse s regs got .await)).task = none →
      drive vs (readResponse s regs got .cmd) = drive vs (readResponse s regs got .await) := by
  induction regs with
  | nil => intro s got vs _; rfl
  | cons off more ih =>
    intro s got vs h
    cases vs with
    | nil => exact absurd h (drive_nil_wait_runs _ _ _)
    | cons v vs =>
      simp only [readResponse, drive_resp_cons] at h ⊢
      exact ih h

/-- AWAIT's poll, if it comes to its end. -/
theorem drive_poll_cmd (vs : List Word) : ∀ {s : State} {n : Nat},
    (drive vs (s.waitFor (.poll c n) .await)).task = none →
      drive vs (s.waitFor (.poll c n) .cmd) = drive vs (s.waitFor (.poll c n) .await) := by
  induction vs with
  | nil => intro s n h; exact absurd h (drive_nil_wait_runs _ _ _)
  | cons v vs ih =>
    intro s n h
    rw [drive_poll_cons] at h ⊢
    rw [drive_poll_cons]
    generalize s.says [.rd offInt v] = s at h ⊢
    by_cases hv : v &&& cmdWaitMask s.cfg = 0
    · by_cases hm : s.mayPoll n = true
      · rw [awaitPoll_again hv hm] at h ⊢
        rw [awaitPoll_again hv hm]
        exact ih h
      · rw [awaitPoll_limit hv hm, awaitPoll_limit hv hm]
        rfl
    · by_cases he : v &&& cmdWaitMask s.cfg &&& cmdErrMask ≠ 0
      · rw [awaitPoll_error hv he, awaitPoll_error hv he]
        rfl
      · rw [awaitPoll_ready hv he] at h ⊢
        rw [awaitPoll_ready hv he]
        exact drive_readResponse_cmd _ h

/-- AWAIT's work on a command, if it comes to its end. -/
theorem drive_awaitStart_cmd {vs : List Word} (h : (drive vs (awaitStart s c .await)).task = none) :
    drive vs (awaitStart s c .cmd) = drive vs (awaitStart s c .await) := by
  cases vs with
  | nil => exact absurd h (drive_nil_wait_runs _ _ _)
  | cons v vs =>
    simp only [awaitStart, drive_wait] at h ⊢
    exact drive_poll_cmd vs h

/-! ## SUBMIT's busy-wait for its two callers -/

/-- SUBMIT's busy-wait, if it comes to its end: it ends in an error, and CMD's in the same, or the command is sent, and
CMD goes on with AWAIT on it where SUBMIT ended. -/
theorem drive_busy_cmd {raw : Word} (vs : List Word) : ∀ {s : State} {n : Nat},
    (drive vs (s.waitFor (.busy c raw n) .submit)).task = none →
      (∃ e q, (drive vs (s.waitFor (.busy c raw n) .submit)).result = some (.err e q) ∧
        drive vs (s.waitFor (.busy c raw n) .cmd) = drive vs (s.waitFor (.busy c raw n) .submit)) ∨
      ∃ io rest,
        drive vs (s.waitFor (.busy c raw n) .submit) =
          (((s.says io).setInflight (some c)).endOp (.ok .unit)).setEnv rest ∧
        drive vs (s.waitFor (.busy c raw n) .cmd) =
          drive rest (awaitStart ((s.says io).setInflight (some c)) c .cmd) := by
  induction vs with
  | nil => intro s n h; exact absurd h (drive_nil_wait_runs _ _ _)
  | cons v vs ih =>
    intro s n h
    rw [drive_busy_cons] at h ⊢
    rw [drive_busy_cons]
    by_cases hv : v &&& busyMask s.cfg c.opcode = 0
    · refine .inr ⟨[.rd offSdcSts v, .wr offSdcArg c.arg, .wr offSdcCmd raw], vs, ?_, ?_⟩
      · rw [submitBusy_idle_submit (s := s.says [.rd offSdcSts v]) hv, drive_ended rfl]
        simp [State.sendCommand, State.writeReg_eq]
      · rw [submitBusy_idle (s := s.says [.rd offSdcSts v]) (k := .cmd) nofun hv]
        simp [State.sendCommand, State.writeReg_eq]
    · by_cases hm : s.mayPoll n = true
      · rw [submitBusy_again (s := s.says [.rd offSdcSts v]) hv hm] at h ⊢
        rw [submitBusy_again (s := s.says [.rd offSdcSts v]) hv hm]
        obtain herr | ⟨io, rest, hsub, hcmd⟩ := ih h
        · exact .inl herr
        · rw [State.says_says] at hsub hcmd
          exact .inr ⟨.rd offSdcSts v :: io, rest, hsub, hcmd⟩
      · rw [submitBusy_limit (s := s.says [.rd offSdcSts v]) hv hm,
          submitBusy_limit (s := s.says [.rd offSdcSts v]) hv hm]
        refine .inl ⟨.pollTimeout .busyWait, s.seq, ?_, rfl⟩
        rw [drive_ended rfl]
        rfl

/-! ## SUBMIT then AWAIT -/

/-- SUBMIT's checks never end it with Ok. -/
theorem submitCheck_error {o a f : Word} {r : OpResult} (h : submitCheck s o a f = .error r) : r ≠ .ok .unit := by
  unfold submitCheck at h
  rintro rfl
  split at h
  · cases h
  · split at h
    · cases h
    · split at h
      · cases h
      · split at h <;> cases h

theorem stopWith_ends (r : OpResult) : (s.stopWith r).task = none ∧ (s.stopWith r).result = some r := by
  cases r <;> exact ⟨rfl, rfl⟩

/-- AWAIT begins after SUBMIT's end as if SUBMIT had not ended. -/
theorem awaitStart_after_end (hq : s.seq = .s0) (hr : s.result = none) (r : OpResult) (rest : List Word) :
    awaitStart ((s.endOp r).setEnv rest).begin c k = (awaitStart s c k).setEnv rest := by
  cases s
  simp_all [awaitStart, State.waitFor, State.begin, State.endOp, State.setEnv]

/-- Settles O32: SUBMIT ends at its checks, in its busy-wait, or with the command sent; CMD does the same, and in the
last case goes on with AWAIT. -/
theorem cmdIsSubmitThenAwait : Obligations.CmdIsSubmitThenAwait := by
  intro s t o a f ⟨ht, hq, hh⟩ hsub hend
  have hcmd : exec (.cmd o a f) s = .next (drive s.env (launch s.begin o a f .cmd)) :=
    hostOp_ready hh (startOf (.cmd o a f))
  have hsubmit : exec (.submit o a f) s = .next (drive s.env (launch s.begin o a f .submit)) :=
    hostOp_ready hh (startOf (.submit o a f))
  obtain rfl := Host.Outcome.next.inj (hsubmit.symm.trans hsub)
  rw [hcmd]
  cases hc : submitCheck s.begin o a f with
  | error r =>
    have stops (k : Caller) : launch s.begin o a f k = s.begin.stopWith r := by rw [launch, hc]
    obtain ⟨hnone, hres⟩ := stopWith_ends (s := s.begin) r
    rw [stops, stops, drive_ended hnone]
    exact ⟨fun h => absurd (Option.some.inj (hres.symm.trans h)) (submitCheck_error hc), fun _ => rfl⟩
  | ok p =>
    obtain ⟨c, raw⟩ := p
    have waits (k : Caller) : launch s.begin o a f k = (s.begin.setFsm .submitting).waitFor (.busy c raw 0) k := by
      rw [launch, hc]
    rw [waits] at hend ⊢
    rw [waits]
    obtain ⟨e, q, hres, hsame⟩ | ⟨io, rest, hsent, hgoes⟩ := drive_busy_cmd s.env hend
    · rw [hsame, hres]
      exact ⟨nofun, fun _ => rfl⟩
    · rw [hsent, hgoes]
      refine ⟨fun _ u hu hnone => ?_, fun h => absurd rfl h⟩
      rw [exec_eq_hostOp (i := .await) nofun, hostOp_ready (by exact hh), startOf_await (c := c) rfl rfl,
        awaitStart_after_end (by exact hq) rfl, drive_setEnv] at hu
      obtain rfl := Host.Outcome.next.inj hu
      exact congrArg _ (drive_awaitStart_cmd hnone)

end Sys2Proof.Machine
end

section
/-! SUPPORT. PIO_READ and PIO_WRITE from their refusal to a whole block (43_pio_transfer.md R330 to R344): the runs of
Laws/Transfer.lean begun by the host, and the frame of the command and of SESSION. -/

namespace Sys2Proof.Machine

variable {s t : State}

/-- Without a command that ended well a transfer is refused (43_pio_transfer.md R330). -/
theorem exec_pio_refused {i : Instr} (hi : i = .pioRead ∨ ∃ d, i = .pioWrite d) (h : s.ready) (hf : s.fsm ≠ .decoded) :
    exec i s = .next { s with result := some (.refused .noCompanionCommand) } := by
  obtain rfl | ⟨d, rfl⟩ := hi
  · exact exec_ends nofun h (if_neg (c := s.begin.fsm = .decoded) hf)
  · exact exec_ends nofun h (if_neg (c := s.begin.fsm = .decoded) hf)

/-- A transfer has no right on SESSION. -/
theorem exec_pio_session {i : Instr} (hi : i = .pioRead ∨ ∃ d, i = .pioWrite d) (h : exec i s = .next t) :
    t.session = s.session := by
  obtain rfl | ⟨d, rfl⟩ := hi
  · exact (exec_comes (i := .pioRead) (r := .touching False False True) nofun trivial h).session id id
  · exact (exec_comes (i := .pioWrite d) (r := .touching False False True) nofun trivial h).session id id

/-- Settles O34: the refusal is the beginning's, and a transfer spares the command and has no right on SESSION, when it
begins and when it goes on. -/
theorem pioNeedsItsCommand : Obligations.PioNeedsItsCommand := by
  refine ⟨fun s i hi => ⟨exec_pio_refused hi, fun t h => ?_⟩, fun s t w hinv ht h => ?_⟩
  · have hc : i.commandless = true := by obtain rfl | ⟨d, rfl⟩ := hi <;> rfl
    obtain ⟨hf, hi', -, -⟩ := (exec_spares hc h).command
    exact ⟨hf, hi', exec_pio_session hi h⟩
  · obtain ⟨-, hw⟩ := hinv.running _ ht
    rw [step_running ht] at h
    cases h
    obtain ⟨hf, hi', -, -⟩ := (stepTask_spares ht (commandless_of_fits (.inl rfl) hw)).command
    have hs := stepTask_comes (r := .touching False False True) ht (touching_wait trivial _) trivial
    exact ⟨hf, hi', hs.session id id⟩

/-- Settles O35: a whole PIO_READ, begun by the host. -/
theorem pioReadReturnsTheBlock : Obligations.PioReadReturnsTheBlock := by
  intro s a rest hs hf hb hl ha henv
  obtain ⟨ht, hq, -⟩ := id hs
  have begins : startOf .pioRead s.begin = pioStart s.begin .rx .pio := if_pos (c := s.begin.fsm = .decoded) hf
  exact exec_run_ends ((((s.says (pioReadIo s.cfg a)).setBuf (pioReadBlock a)).setRem 0).setDone true) rest nofun hs ht
    hq henv begins (drive_pio_read (s := s.begin) hl hb ha rest)

/-- Settles O36: a whole PIO_WRITE, begun by the host with the block in BUF. -/
theorem pioWritePushesTheBlock : Obligations.PioWritePushesTheBlock := by
  intro s data a rest hs hf _ hl ha henv
  obtain ⟨ht, hq, -⟩ := id hs
  have begins : startOf (.pioWrite data) s.begin = pioStart (s.begin.setBuf data) .tx .pio :=
    if_pos (c := s.begin.fsm = .decoded) hf
  exact exec_run_ends ((((s.setBuf data).says (pioWriteIo s.cfg a data)).setRem 0).setDone true) rest nofun hs ht
    hq henv begins (drive_pio_write (s := s.begin.setBuf data) hl ha rest)

end Sys2Proof.Machine
end

section
/-! SUPPORT. The loops of a transfer read by read (43_pio_transfer.md R331 to R341): what the answer to a FIFOCS read
and to the inner re-check comes to in each case, and the steps these answers and that to an outer status read make. -/

namespace Sys2Proof.Machine

variable {s : State} {p : PioPos} {k : Caller} {o i : Nat} {f v : Word}

/-! ## What the head of the inner loop leaves alone -/

@[simp] theorem pioHead_trace : (pioHead s p k).trace = s.trace := by unfold pioHead; split_ifs <;> rfl
@[simp] theorem pioHead_rem : (pioHead s p k).rem = s.rem := by unfold pioHead; split_ifs <;> rfl
@[simp] theorem pioHead_buf : (pioHead s p k).buf = s.buf := by unfold pioHead; split_ifs <;> rfl

/-! ## The FIFOCS read -/

/-- The count allows a burst: 64 bytes, or the whole remainder (43_pio_transfer.md R332, R333). -/
theorem pioFifo_burst (hf : min 64 s.rem ≤ rxCnt f) :
    pioFifo s ⟨.rx, o, i⟩ k f = pioBurst s ⟨.rx, o, i⟩ k (min 64 s.rem / 4) := by
  simp only [pioFifo]
  by_cases hr : 64 ≤ s.rem
  · rw [Nat.min_eq_left hr] at hf ⊢
    exact if_pos ⟨hr, hf⟩
  · have hlt : s.rem < 64 := Nat.not_le.1 hr
    rw [Nat.min_eq_right hlt.le] at hf ⊢
    exact (if_neg fun h => hr h.1).trans (if_pos ⟨hlt, hf⟩)

/-- The count allows none (43_pio_transfer.md R334). -/
theorem pioFifo_rx_wait (hf : rxCnt f < min 64 s.rem) :
    pioFifo s ⟨.rx, o, i⟩ k f = s.waitFor (.pioRecheck ⟨.rx, o, i⟩) k := by
  obtain ⟨h64, hrem⟩ := Nat.lt_min.1 hf
  simp only [pioFifo]
  exact (if_neg fun h => h64.not_ge h.2).trans (if_neg fun h => hrem.not_ge h.2)

/-- TXCNT is 0 (43_pio_transfer.md R339). -/
theorem pioFifo_chunk (hf : txCnt s.cfg f = 0) :
    pioFifo s ⟨.tx, o, i⟩ k f = pioHead (pioPush (min 128 s.rem / 4) s) ⟨.tx, o, 0⟩ k := if_pos hf

/-- TXCNT is not 0 (43_pio_transfer.md R338). -/
theorem pioFifo_tx_wait (hf : txCnt s.cfg f ≠ 0) :
    pioFifo s ⟨.tx, o, i⟩ k f = s.waitFor (.pioRecheck ⟨.tx, o, i⟩) k := if_neg hf

/-! ## The inner re-check -/

/-- Data-timeout (43_pio_transfer.md R334, R338). -/
theorem pioRecheck_timeout (hv : v &&& intDatTmo ≠ 0) : pioRecheck s p k v = pioFail s v false := if_pos hv

/-- No data-timeout, with unbounded spins. -/
theorem pioRecheck_again (hv : v &&& intDatTmo = 0) (hl : s.cfg.pollLimit = none) :
    pioRecheck s p k v = s.waitFor (.pioFifo { p with inner := p.inner + 1 }) k :=
  (if_neg (not_not_intro hv)).trans (if_pos (mayPoll_of_unbounded hl _))

/-- The events of a failed transfer, then its end (43_pio_transfer.md R341). -/
theorem pioFail_eq (c : Bool) :
    pioFail s v c = (s.says [.diag (.dataFailed v), .hook]).raiseErr (if c then .dataCrcErr v else .dataTimeout v) := by
  rw [pioFail, State.emit_diag, State.hook_eq, State.says_says]
  rfl

/-! ## Steps -/

/-- A step of a running operation is a run from its first answer. -/
theorem step_answers {x : Task} (ht : s.task = some x) {vs : List Word} (hv : s.env = v :: vs) :
    step s = .next (drive vs (resume x v (s.says [.rd x.wait.off v]))) := by
  rw [step_running ht, stepTask_queued (by simp [hv]), hv, drive_cons ht]
  rfl

/-- A FIFOCS read after which the re-check is issued is followed by one read of INT: the inner loop
goes on, or the transfer ends (43_pio_transfer.md R334, R338). -/
theorem step_fifo_recheck (ht : s.task = some ⟨.pioFifo p, k⟩) (hv : s.env = [f, v])
    (hf : pioFifo (s.says [.rd 0x14 f]) p k f = (s.says [.rd 0x14 f]).waitFor (.pioRecheck p) k) :
    (v &&& 0x4000 = 0 → s.cfg.pollLimit = none →
      step s = .next { s.ran [.rd 0x14 f, .rd 0x0C v] [] with
        task := some ⟨.pioFifo { p with inner := p.inner + 1 }, k⟩ }) ∧
    (v &&& 0x4000 ≠ 0 →
      step s = .next { s.ran [.rd 0x14 f, .rd 0x0C v, .diag (.dataFailed v), .hook] [] with
        task := none, seq := .s0, result := some (.err (.dataTimeout v) s.seq) }) := by
  have rechecks : step s = .next
      (drive [] (pioRecheck ((s.says [.rd 0x14 f, .rd 0x0C v]).waitFor (.pioRecheck p) k) p k v)) := by
    rw [step_answers ht hv]
    refine (congrArg (fun u => Host.Outcome.next (drive [v] u)) hf).trans ?_
    rw [drive_wait, State.says_says]
    rfl
  refine ⟨fun hn hl => ?_, fun hn => ?_⟩
  · rw [rechecks, pioRecheck_again hn (by exact hl)]
    rfl
  · rw [rechecks, pioRecheck_timeout hn, pioFail_eq, State.waitFor_says, State.says_says]
    rfl

/-- Settles O39: too few bytes for a burst, and INT is read. -/
theorem readWithoutDataRechecksInt : Obligations.ReadWithoutDataRechecksInt := by
  intro s k outer inner f v ht _ hf hv
  exact step_fifo_recheck ht hv (pioFifo_rx_wait hf)

/-- A chunk's writes are one script (43_pio_transfer.md R339). -/
theorem step_chunk {n : Nat} (ht : s.task = some ⟨.pioFifo ⟨.tx, o, i⟩, k⟩) (hv : s.env = [f])
    (hf : txCnt s.cfg f = 0) (hn : min 128 s.rem / 4 = n) (h512 : s.rem ≤ blksz) :
    step s = .next ((pioHead ((s.says (.rd offFifocs f :: chunkIo s.buf n (blksz - s.rem))).setRem (s.rem - 4 * n))
      ⟨.tx, o, 0⟩ k).setEnv []) := by
  have pushed : pioFifo (s.says [.rd offFifocs f]) ⟨.tx, o, i⟩ k f =
      pioHead (pioPush n (s.says [.rd offFifocs f])) ⟨.tx, o, 0⟩ k := hn ▸ pioFifo_chunk hf
  rw [pioPush_eq (s := s.says [.rd offFifocs f]) n h512 (by show 4 * n ≤ s.rem; omega), State.says_says] at pushed
  rw [step_answers ht hv]
  exact congrArg (fun u => Host.Outcome.next (State.setEnv u [])) pushed

/-- Settles O40: an empty FIFO takes a chunk, whose writes are a script; else INT is read. -/
theorem writeChunkFollowsAnEmptyFifo : Obligations.WriteChunkFollowsAnEmptyFifo := by
  intro s k outer inner f ht _ h4 h512
  refine ⟨fun hf hv => ?_, fun v hf hv => ?_⟩
  · have empty : txCnt s.cfg f = 0 := congrArg BitVec.toNat hf
    have whole : 4 * (min 128 s.rem / 4) = min 128 s.rem := by omega
    refine ⟨_, step_chunk ht hv empty rfl h512, rfl, ?_, ?_⟩
    · rw [State.setEnv_rem, pioHead_rem, whole]
      rfl
    · rw [State.setEnv_trace, pioHead_trace]
      rfl
  · have full : txCnt s.cfg f ≠ 0 := fun h => hf (BitVec.eq_of_toNat_eq h)
    exact step_fifo_recheck ht hv (pioFifo_tx_wait full)

/-- A burst's reads are one script, and the words read lie in BUF (43_pio_transfer.md R332, R333, R336). -/
theorem step_burst {w : Word} {ws : List Word} (ht : s.task = some ⟨.pioFifo ⟨.rx, o, i⟩, k⟩)
    (hv : s.env = f :: w :: ws) (hf : min 64 s.rem ≤ rxCnt f) (hn : min 64 s.rem / 4 = ws.length + 1)
    (h512 : s.rem ≤ blksz) :
    step s = .next
      ((pioHead
        (((s.says (.rd offFifocs f :: (w :: ws).map (Io.rd offRxdata))).setBuf
          (setWords s.buf (blksz - s.rem) (w :: ws))).setRem (s.rem - 4 * (ws.length + 1)))
        ⟨.rx, o, 0⟩ k).setEnv []) := by
  have begun : pioFifo (s.says [.rd offFifocs f]) ⟨.rx, o, i⟩ k f =
      (s.says [.rd offFifocs f]).waitFor (.pioDrain ⟨.rx, o, 0⟩ (ws.length + 1)) k :=
    (pioFifo_burst (s := s.says [.rd offFifocs f]) hf).trans (by rw [State.says_rem, hn]; rfl)
  have drained := drive_drain (s := s.says [.rd offFifocs f]) (k := k) (p := ⟨.rx, o, 0⟩) (w := w) [] ws h512
    (by show 4 * (ws.length + 1) ≤ s.rem; omega)
  rw [List.append_nil, State.says_says] at drained
  rw [step_answers ht hv]
  exact congrArg Host.Outcome.next ((congrArg (drive (w :: ws)) begun).trans drained)

/-- Settles O38: the count allows a burst, whose words are drained one after the other. -/
theorem readBurstFollowsTheCount : Obligations.ReadBurstFollowsTheCount := by
  intro s k outer inner f words ht hpos h4 h512 hf hlen hv
  obtain ⟨w, ws, rfl⟩ := List.exists_cons_of_length_pos (l := words) (by omega)
  rw [List.length_cons] at hlen
  have whole : 4 * (ws.length + 1) = min 64 s.rem := by omega
  refine ⟨_, step_burst ht hv hf hlen.symm h512, ?_, ?_, rfl, fun hb => ?_, fun h64 => ?_⟩
  · rw [State.setEnv_trace, pioHead_trace]
    rfl
  · rw [State.setEnv_rem, pioHead_rem, whole]
    rfl
  · rw [State.setEnv_buf, pioHead_buf]
    exact setWords_eq (w :: ws) s.buf (512 - s.rem) (by rw [List.length_cons]; omega)
  · rw [pioHead_left (by rw [State.setRem_rem]; omega)]
    exact ⟨0, rfl⟩

/-- Settles O41: an error bit ends the transfer in the answer itself; without one DONE is latched and the head of the
inner loop follows. -/
theorem dataErrorEndsTheTransfer : Obligations.DataErrorEndsTheTransfer := by
  intro s k p v rest ht hv
  refine ⟨fun hn => ?_, fun hn hrest hrem hack => ?_⟩
  · have failed : resume ⟨.pioStatus p, k⟩ v (s.says [.rd 0x0C v]) =
        (s.says [.rd 0x0C v, .diag (.dataFailed v), .hook]).raiseErr
          (if v &&& 0x8000 ≠ 0 then .dataCrcErr v else .dataTimeout v) := by
      refine (if_pos hn).trans ?_
      rw [pioFail_eq, State.says_says]
      simp [intDatCrcErr]
    exact step_answer_ends ht hv failed rfl
  · have latched : resume ⟨.pioStatus p, k⟩ v (s.says [.rd 0x0C v]) =
        ((s.says [.rd 0x0C v]).latchDone v).waitFor (.pioFifo p) k := by
      refine (if_neg (not_not_intro hn)).trans ?_
      rw [State.ackTransfer, if_neg (by simp [State.latchDone, hack])]
      exact pioHead_left hrem
    rw [step_answers ht hv, hrest]
    exact congrArg (fun u => Host.Outcome.next (State.setEnv u [])) latched

end Sys2Proof.Machine
end

section
/-! SUPPORT. What a transfer has moved, counted along its events whatever the environment answers (43_pio_transfer.md
R335, R340, R342): no data word while its command runs, and after REM is set one for every 4 bytes REM has fallen; DONE
is set only when a read of INT showed transfer-complete. So a transfer that ends Ok has moved its block. -/

namespace Sys2Proof.Machine

/-- A transfer of one block: a read, or the write of a block. -/
inductive Transfer where
  | read
  | write (data : List Byte)

namespace Transfer

/-- The direction of a transfer. -/
def dir : Transfer → Dir
  | .read => .rx
  | .write _ => .tx

/-- Whether an event moves one word of the transfer. -/
def moves (x : Transfer) (base : Word) (e : Event) : Bool :=
  match x with
  | .read => e.reads (base + offRxdata)
  | .write _ => e.writes (base + offTxdata)

/-- What a transfer needs BUF to be: a write pushes its block from there. -/
def keeps : Transfer → List Byte → Prop
  | .read, _ => True
  | .write data, b => b = data

/-- The single-block operation that sends its own command and then runs the transfer (44_card_session.md R367, R369). -/
def caller : Transfer → Caller
  | .read => .readBlock
  | .write data => .writeBlock data

/-- A read of another register than RXDATA moves no word. -/
theorem moves_rd (x : Transfer) (base v : Word) {off : Word} (ho : off ≠ offRxdata) :
    x.moves base (.rd (base + off) v) = false := by
  cases x with
  | read => exact beq_false_of_ne fun e => ho ((BitVec.add_right_inj base).1 e)
  | write _ => rfl

/-- A write of another register than TXDATA moves none. -/
theorem moves_wr (x : Transfer) (base v : Word) {off : Word} (ho : off ≠ offTxdata) :
    x.moves base (.wr (base + off) v) = false := by
  cases x with
  | read => rfl
  | write _ => exact beq_false_of_ne fun e => ho ((BitVec.add_right_inj base).1 e)

end Transfer

/-- A read of INT among these events showed transfer-complete. -/
def sawComplete (base : Word) (new : List Event) : Prop :=
  ∃ w, .rd (base + offInt) w ∈ new ∧ w &&& intXferCompl ≠ 0

/-- `t` goes on from `s` without an outcome yet; the events since move `n` words, and if `c` holds one of them showed
transfer-complete. -/
def State.Moved (s : State) (x : Transfer) (n : Nat) (c : Bool) (t : State) : Prop :=
  t.base = s.base ∧ t.result = none ∧
    ∃ new, t.trace = s.trace ++ new ∧ new.countP (x.moves s.base) = n ∧ (c = true → sawComplete s.base new)

/-- The transfer runs: the words moved and the bytes left make up the block, and DONE set means transfer-complete
was seen. -/
def State.Moving (s : State) (x : Transfer) (t : State) : Prop :=
  x.keeps t.buf ∧ ∃ n, 4 * n + t.rem = blksz ∧ s.Moved x n t.done t

/-- The reads of a command, none of which is one of RXDATA. -/
def Wait.ofCommand : Wait → Prop
  | .busy _ _ _ | .awaitClear _ | .poll _ _ => True
  | .resp off more _ => off :: more ⊆ respRegs .kR2
  | _ => False

/-- The reads of a running transfer; the reads due of a burst are within REM. -/
def Wait.ofTransfer (x : Transfer) (rem : Nat) : Wait → Prop
  | .pioRearm p | .pioStatus p | .pioFifo p | .pioRecheck p => p.dir = x.dir
  | .pioDrain p left => x = .read ∧ p.dir = .rx ∧ 1 ≤ left ∧ 4 * left ≤ rem
  | _ => False

/-- Where an operation with this transfer stands: at its command, before its first data, in its data, at its end, or
failed, whatever the state then. -/
inductive State.Transfers (s : State) (x : Transfer) : State → Prop where
  | commands {t : State} {w : Wait} (h : s.Moved x 0 false t) (hw : w.ofCommand) : s.Transfers x (t.waitFor w x.caller)
  | clears {t : State} (k : Caller) (hb : x.keeps t.buf) (h : s.Moved x 0 false t) :
    s.Transfers x (t.waitFor (.pioClear x.dir) k)
  | moves {t : State} {w : Wait} (k : Caller) (h : s.Moving x t) (hw : w.ofTransfer x t.rem) :
    s.Transfers x (t.waitFor w k)
  | ends {t : State} (h : s.Moving x t) (hr : t.rem = 0) (hd : t.done = true) :
    s.Transfers x (t.endOp (.ok (pioValue t x.dir)))
  | fails (t : State) {r : OpResult} (hr : ∀ v, r ≠ .ok v) : s.Transfers x (t.endOp r)

variable {s t : State} {x : Transfer} {n : Nat} {c : Bool}

/-- SUBMIT's checks never end an operation with Ok. -/
theorem submitCheck_ne_ok {o a f : Word} (v : Value) : submitCheck s o a f ≠ .error (.ok v) := by
  unfold submitCheck
  split
  · nofun
  · split
    · nofun
    · split
      · nofun
      · split <;> nofun

namespace State.Moved

/-- Nothing has moved yet. -/
theorem start (hb : t.base = s.base) (hr : t.result = none) (ht : t.trace = s.trace) : s.Moved x 0 false t :=
  ⟨hb, hr, [], by simp [ht], rfl, nofun⟩

/-- One more event: it is counted if it moves a word, and it may be the read of INT that shows transfer-complete. -/
theorem event (h : s.Moved x n c t) (e : Event) {c' : Bool}
    (hc' : c' = true → c = true ∨ ∃ w, e = .rd (s.base + offInt) w ∧ w &&& intXferCompl ≠ 0) :
    s.Moved x (n + if x.moves s.base e then 1 else 0) c' (t.emit e) := by
  obtain ⟨hb, hr, new, ht, hn, hc⟩ := h
  refine ⟨hb, hr, new ++ [e], by rw [State.emit_trace, ht, List.append_assoc], ?_, fun hd => ?_⟩
  · rw [List.countP_append, hn, List.countP_singleton]
  · obtain hd | ⟨w, rfl, hw⟩ := hc' hd
    · obtain ⟨w, hmem, hw⟩ := hc hd
      exact ⟨w, List.mem_append_left _ hmem, hw⟩
    · exact ⟨w, List.mem_append_right _ (List.mem_singleton_self _), hw⟩

/-- An event that moves no word. -/
theorem emit (h : s.Moved x n c t) {e : Event} (he : x.moves s.base e = false) : s.Moved x n c (t.emit e) := by
  have hm := h.event e .inl
  rwa [he] at hm

/-- An event that moves one. -/
theorem move (h : s.Moved x n c t) {e : Event} (he : x.moves s.base e = true) : s.Moved x (n + 1) c (t.emit e) := by
  have hm := h.event e .inl
  rwa [he] at hm

theorem result_none (h : s.Moved x n c t) : t.result = none := h.2.1

theorem addr_eq (h : s.Moved x n c t) (off : Word) : t.addr off = s.base + off := by rw [State.addr, h.1]

/-- A read of another register than RXDATA. -/
theorem readReg (h : s.Moved x n c t) {off : Word} (v : Word) (ho : off ≠ offRxdata := by decide) :
    s.Moved x n c (t.emit (.rd (t.addr off) v)) :=
  h.emit (h.addr_eq off ▸ x.moves_rd _ v ho)

/-- A write of another register than TXDATA. -/
theorem writeReg (h : s.Moved x n c t) {off : Word} (v : Word) (ho : off ≠ offTxdata := by decide) :
    s.Moved x n c (t.writeReg off v) :=
  h.emit (h.addr_eq off ▸ x.moves_wr _ v ho)

/-- A read of INT shows transfer-complete, or leaves what was seen. -/
theorem readInt (h : s.Moved x n c t) (v : Word) :
    s.Moved x n (c || v &&& intXferCompl != 0) (t.emit (.rd (t.addr offInt) v)) := by
  have hm := h.event (.rd (t.addr offInt) v) (c' := c || v &&& intXferCompl != 0) fun hc =>
    (Bool.or_eq_true .. ▸ hc).imp_right fun hv => ⟨v, by rw [h.addr_eq], by simpa using hv⟩
  rw [h.addr_eq] at hm ⊢
  rwa [x.moves_rd _ v (by decide)] at hm

/-! What an operation with this transfer comes to while its command runs. -/

theorem launch (h : s.Moved x 0 false t) (o a f : Word) : s.Transfers x (launch t o a f x.caller) := by
  unfold Machine.launch
  split
  · rename_i r hc
    have hr : ∀ v, r ≠ .ok v := fun v e => submitCheck_ne_ok v (e ▸ hc)
    cases r with
    | fatal _ => exact .fails t.halt hr
    | ok _ | err _ _ | refused _ => exact .fails t hr
  · exact .commands (t := t.setFsm .submitting) h trivial

/-- The command has succeeded: the transfer begins, with the block of a write in BUF. -/
theorem commandDone (h : s.Moved x 0 false t) (ws : List Word) : s.Transfers x (commandDone t ws x.caller) := by
  cases x with
  | read => exact .clears (t := t.setSeq .io3) _ trivial h
  | write data => exact .clears (t := (t.setSeq .io3).setBuf data) _ rfl h

theorem commandFailed (e : ErrKind) : s.Transfers x (commandFailed t e x.caller) := by
  cases x <;> exact .fails t nofun

theorem readResponse (h : s.Moved x 0 false t) {regs : List Word} (hr : regs ⊆ respRegs .kR2) (got : List Word) :
    s.Transfers x (readResponse t regs got x.caller) := by
  cases regs with
  | nil => exact commandDone (t := t.decodedWith got) h got
  | cons off more => exact .commands h hr

theorem submitBusy (h : s.Moved x 0 false t) (cmd : Command) (raw : Word) (i : Nat) (v : Word) :
    s.Transfers x (submitBusy t cmd raw i x.caller v) := by
  have hk : x.caller ≠ .submit := by cases x <;> exact nofun
  unfold Machine.submitBusy
  rw [if_neg hk]
  split
  · have sent : s.Moved x 0 false (t.sendCommand cmd raw) :=
      (h.writeReg (off := offSdcArg) _).writeReg (off := offSdcCmd) _
    exact .commands sent trivial
  · split
    · exact .commands h trivial
    · exact commandFailed _

theorem awaitClear (h : s.Moved x 0 false t) (cmd : Command) (v : Word) :
    s.Transfers x (awaitClear t cmd x.caller v) :=
  .commands (t := (t.clearBitsWrite offInten (cmdWaitMask t.cfg) v).setFsm .awaitingResponse)
    (h.writeReg (off := offInten) _) trivial

theorem awaitPoll (h : s.Moved x 0 false t) (cmd : Command) (i : Nat) (v : Word) :
    s.Transfers x (awaitPoll t cmd i x.caller v) := by
  unfold Machine.awaitPoll
  simp only
  split
  · split
    · exact .commands h trivial
    · exact commandFailed _
  · split
    · exact commandFailed _
    · exact (h.writeReg _).readResponse (by cases cmd.kind <;> decide) _

end State.Moved

namespace State.Moving

/-- An event that moves no word. -/
theorem readReg (h : s.Moving x t) {off : Word} (v : Word) (ho : off ≠ offRxdata := by decide) :
    s.Moving x (t.emit (.rd (t.addr off) v)) := by
  obtain ⟨hb, n, hn, hm⟩ := h
  exact ⟨hb, n, hn, hm.readReg v ho⟩

theorem writeReg (h : s.Moving x t) {off : Word} (v : Word) (ho : off ≠ offTxdata := by decide) :
    s.Moving x (t.writeReg off v) := by
  obtain ⟨hb, n, hn, hm⟩ := h
  exact ⟨hb, n, hn, hm.writeReg v ho⟩

theorem ackTransfer (h : s.Moving x t) (v : Word) : s.Moving x (t.ackTransfer v) := by
  unfold State.ackTransfer
  split
  · exact h.writeReg _
  · exact h

/-- The outer status read latches in DONE what it showed (43_pio_transfer.md R331). -/
theorem latchDone (h : s.Moving x t) (v : Word) : s.Moving x ((t.emit (.rd (t.addr offInt) v)).latchDone v) := by
  obtain ⟨hb, n, hn, hm⟩ := h
  exact ⟨hb, n, hn, hm.readInt v⟩

/-- A word read from RXDATA (43_pio_transfer.md R331). -/
theorem storeWord (h : s.Moving .read t) (hr : 4 ≤ t.rem) (w : Word) :
    s.Moving .read ((t.emit (.rd (t.addr offRxdata) w)).storeWord w) := by
  obtain ⟨-, n, hn, hm⟩ := h
  have moved := hm.move (e := .rd (t.addr offRxdata) w) (hm.addr_eq _ ▸ beq_self_eq_true _)
  exact ⟨trivial, n + 1, by show 4 * (n + 1) + (t.rem - 4) = blksz; omega, moved⟩

/-- Words written to TXDATA (43_pio_transfer.md R337, R339). -/
theorem pioPush {data : List Byte} (n : Nat) : ∀ {t : State}, s.Moving (.write data) t → 4 * n ≤ t.rem →
    s.Moving (.write data) (pioPush n t) := by
  induction n with
  | zero => exact fun h _ => h
  | succ n ih =>
    intro t ⟨hb, i, hi, hm⟩ hr
    have moved := hm.move (e := .wr (t.addr offTxdata) (wordAt t.buf (blksz - t.rem)))
      (hm.addr_eq _ ▸ beq_self_eq_true _)
    exact ih ⟨hb, i + 1, by show 4 * (i + 1) + (t.rem - 4) = blksz; omega, moved⟩
      (by show 4 * n ≤ t.rem - 4; omega)

/-! What the transfer comes to. -/

theorem pioHead (h : s.Moving x t) {p : PioPos} (hp : p.dir = x.dir) (k : Caller) : s.Transfers x (pioHead t p k) := by
  unfold Machine.pioHead
  split
  · exact .moves k h hp
  · rename_i hr
    split
    · rw [hp]
      exact .ends h (Nat.eq_zero_of_not_pos hr) ‹_›
    · split
      · exact .moves k h hp
      · exact .fails t nofun

theorem pioFail (v : Word) (crc : Bool) : s.Transfers x (pioFail t v crc) := .fails _ nofun

theorem pioStatus (h : s.Moving x t) {p : PioPos} (hp : p.dir = x.dir) (k : Caller) (v : Word) :
    s.Transfers x (pioStatus (t.emit (.rd (t.addr offInt) v)) p k v) := by
  unfold Machine.pioStatus
  split
  · exact pioFail v _
  · exact ((h.latchDone v).ackTransfer v).pioHead hp k

theorem pioBurst (h : s.Moving .read t) {p : PioPos} (hp : p.dir = .rx) (k : Caller) {i : Nat} (hi : 4 * i ≤ t.rem) :
    s.Transfers .read (pioBurst t p k i) := by
  unfold Machine.pioBurst
  split
  · exact State.Moving.pioHead h (p := { p with inner := 0 }) hp k
  · exact .moves k h ⟨rfl, hp, Nat.pos_of_ne_zero ‹_›, hi⟩

theorem pioFifo (h : s.Moving x t) {p : PioPos} (hp : p.dir = x.dir) (k : Caller) (f : Word) :
    s.Transfers x (pioFifo t p k f) := by
  obtain ⟨_, o, i⟩ := p
  obtain rfl : _ = x.dir := hp
  cases x with
  | read =>
    rw [Transfer.dir]
    by_cases hf : min 64 t.rem ≤ rxCnt f
    · rw [pioFifo_burst hf]
      exact h.pioBurst rfl k ((Nat.mul_div_le _ _).trans (min_le_right _ _))
    · rw [pioFifo_rx_wait (Nat.not_le.1 hf)]
      exact .moves k h rfl
  | write data =>
    rw [Transfer.dir]
    by_cases hf : txCnt t.cfg f = 0
    · rw [pioFifo_chunk hf]
      exact (h.pioPush _ ((Nat.mul_div_le _ _).trans (min_le_right _ _))).pioHead rfl k
    · rw [pioFifo_tx_wait hf]
      exact .moves k h rfl

theorem pioDrain (h : s.Moving .read t) {p : PioPos} (hp : p.dir = .rx) (k : Caller) {left : Nat} (hl : 1 ≤ left)
    (hr : 4 * left ≤ t.rem) (w : Word) :
    s.Transfers .read (pioDrain (t.emit (.rd (t.addr offRxdata) w)) p k left w) := by
  have stored := h.storeWord (by omega) w
  unfold Machine.pioDrain
  split
  · exact stored.pioHead hp k
  · exact .moves k stored ⟨rfl, hp, by omega, by show 4 * (left - 1) ≤ t.rem - 4; omega⟩

theorem pioRecheck (h : s.Moving x t) {p : PioPos} (hp : p.dir = x.dir) (k : Caller) (v : Word) :
    s.Transfers x (pioRecheck t p k v) := by
  unfold Machine.pioRecheck
  split
  · exact pioFail v _
  · split
    · exact .moves k h hp
    · exact .fails t nofun

/-- Every answer to a read of the transfer. -/
theorem answer (h : s.Moving x t) {w : Wait} (hw : w.ofTransfer x t.rem) (k : Caller) (v : Word) :
    s.Transfers x (answer ⟨w, k⟩ v t) := by
  cases w with
  | pioRearm p => exact .moves (w := .pioStatus p) k ((h.readReg (off := offInten) v).writeReg (off := offInten) _) hw
  | pioStatus p => exact h.pioStatus hw k v
  | pioFifo p => exact (h.readReg (off := offFifocs) v).pioFifo hw k v
  | pioDrain p left =>
    obtain ⟨rfl, hp, hl, hr⟩ := hw
    exact h.pioDrain hp k hl hr v
  | pioRecheck p => exact (h.readReg (off := offInt) v).pioRecheck hw k v
  | _ => cases hw

end State.Moving

namespace State.Moved

/-- The answer to the clear of INTEN sets REM and DONE, and the data begins (43_pio_transfer.md R331). -/
theorem pioClear (h : s.Moved x 0 false t) (hb : x.keeps t.buf) (k : Caller) (v : Word) :
    s.Transfers x (pioClear t x.dir k v) :=
  .moves (w := .pioRearm ⟨x.dir, 0, 0⟩) (t := ((t.clearBitsWrite offInten xferInts v).setRem blksz).setDone false) k
    ⟨hb, 0, rfl, h.writeReg (off := offInten) _⟩ rfl

/-- Every answer to a read of the command. -/
theorem answer (h : s.Moved x 0 false t) {w : Wait} (hw : w.ofCommand) (v : Word) :
    s.Transfers x (answer ⟨w, x.caller⟩ v t) := by
  have apart : w.off ≠ offRxdata := by
    cases w with
    | busy _ _ _ | awaitClear _ | poll _ _ => simp only [Wait.off]; decide
    | resp off more _ =>
      have e : off ∈ respRegs .kR2 := hw List.mem_cons_self
      rintro rfl
      exact absurd e (by decide)
    | _ => cases hw
  have read := h.readReg v apart
  cases w with
  | busy cmd raw i => exact read.submitBusy cmd raw i v
  | awaitClear cmd => exact read.awaitClear cmd v
  | poll cmd i => exact read.awaitPoll cmd i v
  | resp off more got => exact read.readResponse (fun _ ho => hw (List.mem_cons_of_mem _ ho)) _
  | _ => cases hw

end State.Moved

namespace State.Transfers

theorem setEnv (h : s.Transfers x t) (vs : List Word) : s.Transfers x (t.setEnv vs) := by
  cases h with
  | @commands t w h hw => exact .commands (t := t.setEnv vs) h hw
  | @clears t k hb h => exact .clears (t := t.setEnv vs) k hb h
  | @moves t w k h hw => exact .moves (t := t.setEnv vs) k h hw
  | @ends t h hr hd => exact .ends (t := t.setEnv vs) h hr hd
  | fails t hr => exact .fails (t.setEnv vs) hr

/-- An operation that still runs goes on. -/
theorem answer (h : s.Transfers x t) {y : Task} (ht : t.task = some y) (v : Word) : s.Transfers x (answer y v t) := by
  cases h with
  | @commands t w h hw =>
    obtain rfl := Option.some.inj ht
    exact State.Moved.answer (t := t.waitFor w x.caller) h hw v
  | @clears t k hb h =>
    obtain rfl := Option.some.inj ht
    exact State.Moved.pioClear (h.readReg (off := offInten) v) hb k v
  | @moves t w k h hw =>
    obtain rfl := Option.some.inj ht
    exact State.Moving.answer (t := t.waitFor w k) h hw k v
  | ends h hr hd => cases ht
  | fails t hr => cases ht

/-- A whole run. -/
theorem drive (h : s.Transfers x t) (vs : List Word) : s.Transfers x (drive vs t) :=
  drive_keeps (P := fun t => s.Transfers x t) (fun _ _ v h ht => h.answer ht v) (fun _ vs h => h.setEnv vs) vs t h

/-- An operation that ends Ok has moved its whole block and seen transfer-complete. -/
theorem whole (h : s.Transfers x t) {v : Value} (hv : t.result = some (.ok v)) :
    v = pioValue t x.dir ∧ x.keeps t.buf ∧ t.rem = 0 ∧ t.done = true ∧
      ∃ new, t.trace = s.trace ++ new ∧ new.countP (x.moves s.base) = 128 ∧ sawComplete s.base new := by
  cases h with
  | commands h hw => cases h.result_none.symm.trans hv
  | clears k hb h => cases h.result_none.symm.trans hv
  | moves k h hw =>
    obtain ⟨-, n, -, hm⟩ := h
    cases hm.result_none.symm.trans hv
  | @ends t h hr hd =>
    obtain ⟨hb, n, hn, -, -, new, ht, hm, hc⟩ := h
    obtain rfl : pioValue t x.dir = v := OpResult.ok.inj (Option.some.inj hv)
    refine ⟨by cases x <;> rfl, hb, hr, hd, new, ht, ?_, hc hd⟩
    rw [hm]
    rw [hr] at hn
    exact Nat.eq_of_mul_eq_mul_left (by decide) hn
  | fails t hr => exact absurd (Option.some.inj hv) (hr v)

end State.Transfers

/-- The host's request for a transfer, alone or with its command. -/
def Transfer.instr (x : Transfer) (i : Instr) : Prop :=
  match x with
  | .read => i = .pioRead ∨ ∃ addr, i = .readBlock addr
  | .write data => i = .pioWrite data ∨ ∃ addr, i = .writeBlockOp addr data

/-- The command of a single-block operation. -/
theorem blockCommand_transfers (s : State) (x : Transfer) (o addr : Word) :
    s.Transfers x (blockCommand s.begin o addr x.caller) :=
  have begun : s.Moved x 0 false s.begin := .start rfl rfl rfl
  State.Moved.launch (t := ((s.begin.setSeq .io1).writeReg offSdcBlkNum 1).setSeq .io2)
    (begun.writeReg (off := offSdcBlkNum) 1) o addr _

/-- Every beginning: it is refused, or the command begins, or the transfer. -/
theorem startOf_transfers {i : Instr} (hi : x.instr i) : s.Transfers x (startOf i s.begin) := by
  cases x with
  | read =>
    obtain rfl | ⟨addr, rfl⟩ := hi
    · simp only [startOf]
      split
      · exact .clears _ trivial (.start rfl rfl rfl)
      · exact .fails _ nofun
    · simp only [startOf]
      split
      · exact .fails _ nofun
      · exact blockCommand_transfers s .read _ addr
  | write data =>
    obtain rfl | ⟨addr, rfl⟩ := hi
    · simp only [startOf]
      split
      · exact .clears (t := s.begin.setBuf data) _ rfl (.start rfl rfl rfl)
      · exact .fails _ nofun
    · simp only [startOf]
      split
      · exact .fails _ nofun
      · exact blockCommand_transfers s (.write data) _ addr

/-- Every such operation, with the answers queued. -/
theorem exec_transfers {i : Instr} (hi : x.instr i) (h : exec i s = .next t) : s.Transfers x t := by
  have hc : ∀ b, i ≠ .construct b := by
    rintro b rfl
    cases x <;> simp [Transfer.instr] at hi
  rw [exec_eq_hostOp hc] at h
  simp only [hostOp, Host.Outcome.next.injEq] at h
  subst h
  refine State.Transfers.drive ?_ _
  split
  · exact .fails s.begin nofun
  · exact startOf_transfers hi

/-- Settles O37: an operation that transfers ends Ok at the end of its data only. -/
theorem pioEndsOnlyAfterTheWholeBlock : Obligations.PioEndsOnlyAfterTheWholeBlock := by
  refine ⟨fun s t i v hi h hv => ?_, fun s t i data v hi h hv => ?_⟩
  · obtain ⟨rfl, -, hr, hd, hnew⟩ := (exec_transfers (x := .read) hi h).whole hv
    exact ⟨rfl, hr, hd, hnew⟩
  · obtain ⟨rfl, hb, hr, hd, hnew⟩ := (exec_transfers (x := .write data) hi h).whole hv
    exact ⟨rfl, hb, hr, hd, hnew⟩

end Sys2Proof.Machine
end

section
/-! SUPPORT. FFS and SELECT_WINDOW (44_card_session.md R355, R356): each halving keeps the word shifted down to a place
below which it has no bit, with a set bit among ever fewer low bits, so that in the end the low bit is the lowest one. -/

namespace Sys2Proof.Machine

/-- The lowest set bit. -/
def IsLowestBit (x : Word) (b : Nat) : Prop := x.getLsbD b = true ∧ ∀ j < b, x.getLsbD j = false

/-- A word has one lowest bit. -/
theorem IsLowestBit.unique {x : Word} {b c : Nat} (hb : IsLowestBit x b) (hc : IsLowestBit x c) : b = c := by
  obtain h | h | h := Nat.lt_trichotomy b c
  · exact absurd (hb.1.symm.trans (hc.2 b h)) nofun
  · exact h
  · exact absurd (hc.1.symm.trans (hb.2 c h)) nofun

/-- Where the halving of `x` stands: `n - 1` bits, all clear, are shifted out, and of the rest one of the low `w` bits is
set. -/
structure HalvedTo (x : Word) (w : Nat) (p : Word × Nat) : Prop where
  count   : 1 ≤ p.2
  shifted : p.1 = x >>> (p.2 - 1)
  clear   : ∀ j < p.2 - 1, x.getLsbD j = false
  low     : ∃ j < w, p.1.getLsbD j = true

/-- Nothing shifted out yet. -/
theorem halvedTo_start {x : Word} (hx : x ≠ 0) : HalvedTo x 32 (x, 1) where
  count := Nat.le_refl 1
  shifted := (BitVec.ushiftRight_zero x).symm
  clear := fun _ hj => absurd hj (Nat.not_lt_zero _)
  low := by
    by_contra h
    refine hx (BitVec.eq_of_getLsbD_eq fun j hj => ?_)
    have hb : x.getLsbD j = false := Bool.eq_false_of_not_eq_true fun hb => h ⟨j, hj, hb⟩
    exact hb.trans BitVec.getLsbD_zero.symm

/-- The bits of a mask of the low `k` bits. -/
theorem getLsbD_lowMask (k j : Nat) : (BitVec.ofNat 32 (2 ^ k - 1)).getLsbD j = (decide (j < 32) && decide (j < k)) := by
  rw [BitVec.getLsbD_ofNat, Nat.testBit_two_pow_sub_one]

/-- The low `k` bits are clear exactly if they do not meet their mask. -/
theorem and_lowMask_eq_zero_iff (y : Word) (k : Nat) :
    y &&& BitVec.ofNat 32 (2 ^ k - 1) = 0 ↔ ∀ j < k, y.getLsbD j = false := by
  constructor
  · intro h j hj
    by_cases h32 : j < 32
    · have hbit := congrArg (BitVec.getLsbD · j) h
      simp only [BitVec.getLsbD_and, getLsbD_lowMask, h32, hj, decide_true, Bool.and_self, Bool.and_true] at hbit
      exact hbit.trans BitVec.getLsbD_zero
    · exact BitVec.getLsbD_of_ge y j (Nat.not_lt.1 h32)
  · intro h
    refine BitVec.eq_of_getLsbD_eq fun j _ => ?_
    rw [BitVec.getLsbD_and, getLsbD_lowMask]
    by_cases hj : j < k
    · rw [h j hj, Bool.false_and]
      exact BitVec.getLsbD_zero.symm
    · rw [decide_eq_false hj, Bool.and_false, Bool.and_false]
      exact BitVec.getLsbD_zero.symm

/-- One halving step. -/
theorem HalvedTo.halve {x : Word} {k : Nat} {p : Word × Nat} (h : HalvedTo x (k + k) p) :
    HalvedTo x k (ffsHalve (BitVec.ofNat 32 (2 ^ k - 1)) k p) := by
  obtain ⟨y, n⟩ := p
  obtain ⟨count, shifted, clear, j, hj, hbit⟩ := h
  simp only at count shifted clear hbit
  unfold ffsHalve
  split
  · rename_i hlow
    have hclear := (and_lowMask_eq_zero_iff y k).1 hlow
    have hkj : k ≤ j := Nat.not_lt.1 fun hjk => absurd (hbit.symm.trans (hclear j hjk)) nofun
    refine ⟨by omega, ?_, fun i hi => ?_, j - k, by omega, ?_⟩
    · show y >>> k = x >>> (n + k - 1)
      rw [shifted, ← BitVec.shiftRight_add, show n - 1 + k = n + k - 1 by omega]
    · by_cases hin : i < n - 1
      · exact clear i hin
      · have hi' := hclear (i - (n - 1)) (by simp only at hi; omega)
        rwa [shifted, BitVec.getLsbD_ushiftRight, Nat.add_sub_cancel' (Nat.not_lt.1 hin)] at hi'
    · rwa [BitVec.getLsbD_ushiftRight, Nat.add_sub_cancel' hkj]
  · rename_i hlow
    rw [and_lowMask_eq_zero_iff] at hlow
    push Not at hlow
    obtain ⟨i, hi, hb⟩ := hlow
    exact ⟨count, shifted, clear, i, hi, Bool.eq_true_of_not_eq_false hb⟩

/-- Halved down to one bit, that bit is the lowest. -/
theorem HalvedTo.lowest {x : Word} {p : Word × Nat} (h : HalvedTo x 1 p) : IsLowestBit x (p.2 - 1) := by
  obtain ⟨j, hj, hbit⟩ := h.low
  obtain rfl : j = 0 := by omega
  rw [h.shifted, BitVec.getLsbD_ushiftRight, Nat.add_zero] at hbit
  exact ⟨hbit, h.clear⟩

theorem ffs_zero : ffs 0 = 0 := rfl

/-- FFS counts the lowest set bit from 1. -/
theorem ffs_spec {x : Word} (hx : x ≠ 0) : 1 ≤ ffs x ∧ IsLowestBit x (ffs x - 1) := by
  have h := (halvedTo_start hx).halve (k := 16) |>.halve (k := 8) |>.halve (k := 4) |>.halve (k := 2) |>.halve (k := 1)
  have hf : ffs x = _ := if_neg hx
  rw [hf]
  exact ⟨h.count, h.lowest⟩

/-- SELECT_WINDOW is the field at the lowest set bit. -/
theorem selectWindow_eq {m : Word} {b : Nat} (hb : IsLowestBit m b) : selectWindow m = m &&& ((3 : Word) <<< b) := by
  have hm : m ≠ 0 := by
    rintro rfl
    exact absurd hb.1 (by simp)
  obtain ⟨hpos, hlow⟩ := ffs_spec hm
  rw [selectWindow, if_neg (by omega), hlow.unique hb]

/-- The two bits of the field. -/
theorem getLsbD_three_shiftLeft {b j : Nat} (hj : j < 32) : ((3 : Word) <<< b).getLsbD j = (j == b || j == b + 1) := by
  have h3 : ∀ i < 32, (3 : Word).getLsbD i = (i == 0 || i == 1) := by decide
  rw [BitVec.getLsbD_shiftLeft, h3 _ (by omega), Bool.eq_iff_iff]
  simp only [Bool.and_eq_true, Bool.or_eq_true, Bool.not_eq_true', decide_eq_true_eq, decide_eq_false_iff_not, beq_iff_eq]
  omega

/-- Settles O43: the halving ends at the lowest set bit. -/
theorem ffsFindsTheLowestSetBit : Obligations.FfsFindsTheLowestSetBit := by
  intro s x hs
  refine ⟨ffs x, exec_ends (i := .ffs x) nofun hs rfl, ?_, fun hx => ?_⟩
  · rintro rfl
    exact ffs_zero
  · obtain ⟨hpos, hbit, hclear⟩ := ffs_spec hx
    have h32 : ffs x - 1 < 32 := BitVec.lt_of_getLsbD hbit
    exact ⟨hpos, by omega, hbit, hclear⟩

/-- Settles O44: the lowest set bit is the one FFS finds, so the field is anchored there. -/
theorem selectWindowTakesTheLowestField : Obligations.SelectWindowTakesTheLowestField := by
  intro s m hs
  refine ⟨selectWindow m, exec_ends (i := .selectWindow m) nofun hs rfl, ?_, fun b hb hlow j => ?_⟩
  · rintro rfl
    rfl
  · rw [selectWindow_eq ⟨hb, hlow⟩, BitVec.getLsbD_and]
    by_cases hj : j < 32
    · rw [getLsbD_three_shiftLeft hj]
    · rw [BitVec.getLsbD_of_ge m j (Nat.not_lt.1 hj), Bool.false_and, Bool.false_and]

end Sys2Proof.Machine
end

section
/-! SUPPORT. The commands of the session controller one after the other: what the next one needs, and OPCOND_LOOP up to
its last attempt, whatever called it (44_card_session.md R353); how a failed command ends its operation (R363, R364). -/

namespace Sys2Proof.Machine

/-- The session controller may send its next command, under these parameters. -/
structure State.CanSend (s : State) (cfg : Config) : Prop where
  cfg_eq : s.cfg = cfg
  usual  : cfg.usual
  live   : s.halted = false
  idle   : s.outstanding = false

variable {s : State} {cfg : Config}

namespace State.CanSend

/-- At the beginning of an operation. -/
theorem of_free (h : s.free) (hu : s.cfg.usual) : s.begin.CanSend s.cfg := by
  obtain ⟨⟨-, -, hh⟩, ho⟩ := h
  exact ⟨rfl, hu, hh, ho⟩

/-- Its spins are unbounded. -/
theorem unbounded (h : s.CanSend cfg) : s.cfg.pollLimit = none := by
  obtain ⟨rfl, ⟨-, -, hl⟩, -, -⟩ := h
  exact hl

theorem setSeq (h : s.CanSend cfg) (q : Seq) : (s.setSeq q).CanSend cfg := ⟨h.cfg_eq, h.usual, h.live, h.idle⟩

theorem emits (h : s.CanSend cfg) (io : List Io) : (s.says io).CanSend cfg := ⟨h.cfg_eq, h.usual, h.live, h.idle⟩

/-- After a command that succeeded. -/
theorem decodedWith (h : s.CanSend cfg) (io : List Io) (ws : List Word) : ((s.says io).decodedWith ws).CanSend cfg :=
  ⟨h.cfg_eq, h.usual, h.live, rfl⟩

theorem flags (h : s.CanSend cfg) :
    flagsGoIdle s.cfg = 0x40 ∧ flagsOpCond s.cfg = 0x61 ∧ flagsSendCid s.cfg = 0x67 ∧ flagsR1Ac s.cfg = 0x15 ∧
      flagsR1BAc s.cfg = 0x1D ∧ flagsR1Adtc s.cfg = 0x35 := by
  rw [h.cfg_eq]
  exact flags_usual h.usual

end State.CanSend

/-- A command that succeeds, with its flags value written out. -/
theorem drive_sent {o arg f f' : Word} {kind : Kind} {k : Caller} {a : CmdAnswers} (h : s.CanSend cfg) (hf : f' = f)
    (hk : classify defaultConfig o arg f = .ok kind) (hs : a.succeeds cfg o kind) (vs : List Word)
    (h18 : o ≠ 18 := by decide) (h25 : o ≠ 25 := by decide) (hc : k ≠ .submit := by nofun) :
    drive (answersOf (cmdIo a cfg arg (rawWord cfg o kind f) kind) ++ vs) (launch s o arg f' k) =
      drive vs (commandDone ((s.says (cmdIo a cfg arg (rawWord cfg o kind f) kind)).decodedWith a.words) a.words k) := by
  obtain ⟨rfl, hu, hh, ho⟩ := h
  rw [hf]
  exact drive_usual_succeeds ⟨hu, hh, ho, hk, h18, h25⟩ hs hc vs

/-- SEND_OP_COND has its kind with any argument (41_command_codec.md R256). -/
theorem classify_sendOpCond (arg : Word) : classify defaultConfig 1 arg 0x61 = .ok .kR3 :=
  (classify_arg _ (by decide) arg 0 _).trans (by decide)

/-- Of two commands that succeeded one after the other the last is the last command. -/
@[simp] theorem State.decodedWith_decodedWith (ws ws' : List Word) :
    (s.decodedWith ws).decodedWith ws' = s.decodedWith ws' := rfl

/-! ## OPCOND_LOOP -/

/-- After the waiting attempts the next one begins. Of the state they leave only the trace outlasts the next command. -/
theorem drive_opcond_waited {arg : Word} {p : OpcondFor} {waiting : List CmdAnswers} (h : s.CanSend cfg)
    (hw : ∀ x ∈ waiting, x.succeeds cfg 1 .kR3 ∧ x.notReady) (h0 : arg = 0 → waiting = []) (hn : waiting.length < 100)
    (vs : List Word) :
    ∃ t : State, t.CanSend cfg ∧
      (∀ io ws, (t.says io).decodedWith ws = (s.says (opcondWaitIo cfg arg waiting ++ io)).decodedWith ws) ∧
      (∀ io flag, (t.says io).failedWith flag = (s.says (opcondWaitIo cfg arg waiting ++ io)).failedWith flag) ∧
      drive (answersOf (opcondWaitIo cfg arg waiting) ++ vs) (opcondAttempt s arg 1 p) =
        drive vs (opcondAttempt t arg (1 + waiting.length) p) := by
  obtain ⟨rfl, hu, hh, ho⟩ := id h
  cases waiting with
  | nil => exact ⟨s, h, fun _ _ => rfl, fun _ _ => rfl, rfl⟩
  | cons x xs =>
    have ha : arg ≠ 0 := fun e => List.cons_ne_nil _ _ (h0 e)
    obtain ⟨t, rfl, ht⟩ := drive_opcond_waiting (p := p) (i := 1) ha vs (x :: xs) hu hh ho hw
      (by rw [opcondAttempts]; omega)
    rw [if_neg (List.cons_ne_nil _ _)] at ht
    refine ⟨_, h.decodedWith _ _, fun io ws => ?_, fun io flag => ?_, ht⟩
    · rw [State.decodedWith_says, State.says_says]
      rfl
    · rw [State.decodedWith_says, State.says_says]
      rfl

/-- OPCOND_LOOP up to the end of an attempt that succeeds. -/
theorem drive_opcond_succeeds {arg : Word} {p : OpcondFor} {waiting : List CmdAnswers} {a : CmdAnswers}
    (h : s.CanSend cfg) (hw : ∀ x ∈ waiting, x.succeeds cfg 1 .kR3 ∧ x.notReady) (h0 : arg = 0 → waiting = [])
    (hn : waiting.length < 100) (hs : a.succeeds cfg 1 .kR3) (vs : List Word) :
    let io := opcondWaitIo cfg arg waiting ++ cmdIo a cfg arg (rawWord cfg 1 .kR3 0x61) .kR3
    drive (answersOf io ++ vs) (opcondAttempt s arg 1 p) =
      drive vs (opcondNext ((s.says io).decodedWith a.words) arg (1 + waiting.length) p (word0 a.words)) := by
  obtain ⟨t, ht, hdec, -, hrun⟩ := drive_opcond_waited (p := p) h hw h0 hn
    (answersOf (cmdIo a cfg arg (rawWord cfg 1 .kR3 0x61) .kR3) ++ vs)
  obtain ⟨-, hf, -⟩ := ht.flags
  simp only
  rw [answersOf_append, List.append_assoc, hrun, ← hdec]
  exact drive_sent (k := .opcond arg (1 + waiting.length) p) ht hf (classify_sendOpCond arg) hs vs

/-- OPCOND_LOOP up to an attempt that fails. -/
theorem drive_opcond_fails {arg : Word} {p : OpcondFor} {waiting : List CmdAnswers} {a : CmdAnswers}
    (h : s.CanSend cfg) (hw : ∀ x ∈ waiting, x.succeeds cfg 1 .kR3 ∧ x.notReady) (h0 : arg = 0 → waiting = [])
    (hn : waiting.length < 100) (hs : a.fails cfg 1) (vs : List Word) :
    let io := opcondWaitIo cfg arg waiting ++ submitIo a arg (rawWord cfg 1 .kR3 0x61) ++ awaitIo a cfg
    drive (answersOf io ++ vs) (opcondAttempt s arg 1 p) =
      drive vs
        (commandFailed ((s.says (io ++ cmdFailIo a cfg 1 arg)).failedWith (a.matched cfg &&& cmdErrMask))
          (cmdError (a.matched cfg &&& cmdErrMask) ⟨1, arg, 0x61, .kR3⟩) (.opcond arg (1 + waiting.length) p)) := by
  obtain ⟨t, ht, -, hfail, hrun⟩ := drive_opcond_waited (p := p) h hw h0 hn
    (answersOf (submitIo a arg (rawWord cfg 1 .kR3 0x61) ++ awaitIo a cfg) ++ vs)
  obtain ⟨-, hf, -⟩ := ht.flags
  obtain ⟨rfl, hu, hh, ho⟩ := ht
  have failed := drive_usual_fails (k := .opcond arg (1 + waiting.length) p)
    ⟨hu, hh, ho, classify_sendOpCond arg, by decide, by decide⟩ hs nofun vs
  simp only
  rw [List.append_assoc, answersOf_append, List.append_assoc, hrun, opcondAttempt, hf, List.append_assoc, ← hfail]
  exact failed

section Next

variable {arg w : Word} {i : Nat} {p : OpcondFor}

/-- The response ends the loop. -/
theorem opcondNext_returns (h : arg = 0 ∨ ocrReady w = true) : opcondNext s arg i p w = opcondReturn s w p := by
  rw [opcondNext]
  by_cases h0 : arg = 0
  · exact if_pos h0
  · rw [if_neg h0, if_pos (h.resolve_left h0)]

/-- The last attempt finds the card not ready. -/
theorem opcondNext_gives_up (ha : arg ≠ 0) (hr : ocrReady w = false) (hi : 100 ≤ i) :
    opcondNext s arg i p w = s.raiseErr .cardNotReady := by
  rw [opcondNext, if_neg ha, if_neg (by simp [hr]), if_neg (c := i < opcondAttempts) (Nat.not_lt.2 hi)]

end Next

/-- Settles O42: the loop up to its last attempt, called by the host, and then its three endings. -/
theorem opcondLoopNegotiates : Obligations.OpcondLoopNegotiates := by
  intro s arg waiting a rest hfree hu hw h0 raw io failIo m
  have can := State.CanSend.of_free hfree hu
  obtain ⟨hs, -⟩ := id hfree
  obtain ⟨ht, hq, -⟩ := id hs
  have run (ha : a.succeeds s.cfg 1 .kR3) (hn : waiting.length < 100) :=
    drive_opcond_succeeds (p := .host) can hw h0 hn ha rest
  refine ⟨fun ha hend hn henv => ?_, fun ha harg hnot hn henv => ?_, fun ha hn henv => ?_⟩
  · have hr : arg = 0 ∨ ocrReady (word0 a.words) = true := hend.imp_right Bool.eq_true_of_not_eq_false
    exact exec_run_ends ((s.says io).decodedWith a.words) rest nofun hs ht hq henv rfl
      ((run ha hn).trans (congrArg _ (opcondNext_returns hr)))
  · have gives := opcondNext_gives_up (s := (s.begin.says io).decodedWith a.words) (p := .host)
      (i := 1 + waiting.length) harg hnot (by omega)
    rw [raiseErr_of_s0 (by exact hq)] at gives
    exact exec_run_ends ((s.says io).decodedWith a.words) rest nofun hs ht hq henv rfl
      ((run ha (by omega)).trans (congrArg _ gives))
  · have failed := drive_opcond_fails (p := .host) can hw h0 hn ha rest
    simp only at failed
    rw [commandFailed, raiseErr_of_s0 (by exact hq)] at failed
    rw [← cmdError_matched m ⟨1, arg, 0x61, .kR3⟩]
    exact exec_run_ends ((s.says (failIo ++ cmdFailIo a s.cfg 1 arg)).failedWith (m &&& cmdErrMask)) rest nofun hs ht hq
      henv rfl failed

/-! ## A command that fails -/

/-- The events of a failed command after its acknowledge, then the end of its operation (42_command_response_engine.md
R307, R308). -/
theorem awaitFail_eq (c : Command) (m : Word) (k : Caller) :
    awaitFail s c m k =
      commandFailed
        ((s.says (.diag (.cmdFailed c.opcode c.arg m) ::
            (if c.opcode ∈ s.cfg.tuningOpcodes then [] else [.hook]))).failedWith (m &&& cmdErrMask))
        (cmdError (m &&& cmdErrMask) c) k := by
  rw [awaitFail, State.emit_diag, State.hookUnlessTuning_eq, State.says_says]
  rfl

/-- Settles O46: the poll read shows an error bit, and the operation ends as its caller says. -/
theorem commandFailureEndsTheOperation : Obligations.CommandFailureEndsTheOperation := by
  intro s c n k v rest ht hv he m
  have hm : m ≠ 0 := by
    intro h0
    refine he ?_
    rw [show v &&& cmdWaitMask s.cfg = 0 from h0]
    exact BitVec.zero_and
  have failed : answer ⟨.poll c n, k⟩ v s = _ := awaitPoll_error (s := s.says [.rd offInt v]) hm he
  rw [State.writeReg_eq, State.says_says, awaitFail_eq, State.says_says, cmdError_matched] at failed
  rw [step_answer_ends ht hv failed (commandFailed_task _ _)]
  cases k <;> rfl

end Sys2Proof.Machine
end

section
/-! SUPPORT. BRINGUP from beginning to end (44_card_session.md R350 to R362): its register writes, the two loops of
SEND_OP_COND, and the three commands that follow once the card is ready. -/

namespace Sys2Proof.Machine

variable {s : State} {cfg : Config}

/-- Step 1, then the command of step 2 (44_card_session.md R351, R352). -/
theorem drive_config (h : s.cfg = cfg) (c1 c2 : Word) (vs : List Word) :
    drive (answersOf (configIo cfg c1 c2) ++ vs) (s.waitFor .cfgEnable .goIdle) =
      drive vs
        (launch ((s.says (configIo cfg c1 c2)).setSeq .b2) opGoIdleState 0 (flagsGoIdle cfg) .goIdle) := by
  subst h
  have h1 (s : State) : resume ⟨.cfgEnable, .goIdle⟩ c1 (s.waitFor .cfgEnable .goIdle) =
      (s.says [.wr offCfg (c1 ||| s.cfg.cfgEnable), .delay s.cfg.tSettle]).waitFor .cfgMode .goIdle := by
    simp [resume, State.setBitsWrite_eq, State.emit_delay]
  have h2 (s : State) : resume ⟨.cfgMode, .goIdle⟩ c2 (s.waitFor .cfgMode .goIdle) =
      launch ((s.says [.wr offCfg (c2 ||| s.cfg.cfgMode), .delay s.cfg.tSettle]).setSeq .b2) opGoIdleState 0
        (flagsGoIdle s.cfg) .goIdle := by
    simp [resume, State.setBitsWrite_eq, State.emit_delay, launch_waitFor]
  simp only [configIo, answersOf_rd, answersOf_wr, answersOf_delay, answersOf_nil, List.cons_append, List.nil_append]
  rw [drive_wait, h1, drive_wait, h2]
  simp [Wait.off]

/-- The host-capacity-support bit is always asked for, so step 5 repeats (44_card_session.md R358). -/
theorem negotiationArg_ne_zero (supported probe : Word) : negotiationArg supported probe ≠ 0 := by
  intro h
  exact absurd (BitVec.or_eq_zero_iff.1 h).2 (by decide)

/-- Step 2, then the probe of step 3 begins (44_card_session.md R352, R354). -/
theorem drive_goIdle {a : CmdAnswers} (h : s.CanSend cfg) (ha : a.succeeds cfg 0 .kNone) (vs : List Word) :
    let io := cmdIo a cfg 0 (rawWord cfg 0 .kNone 0x40) .kNone
    drive (answersOf io ++ vs) (launch s opGoIdleState 0 (flagsGoIdle cfg) .goIdle) =
      drive vs (opcondAttempt (((s.says io).decodedWith a.words).setSeq .b3) 0 1 .probe) := by
  obtain ⟨hf, -⟩ := flags_usual h.usual
  exact drive_sent (k := .goIdle) h hf (by decide) ha vs

/-- The probe of step 3 is one command; its response gives the window that step 5 asks for (44_card_session.md R354,
R357, R358). -/
theorem drive_probe {a : CmdAnswers} (h : s.CanSend cfg) (ha : a.succeeds cfg 1 .kR3) (vs : List Word) :
    let io := cmdIo a cfg 0 (rawWord cfg 1 .kR3 0x61) .kR3
    drive (answersOf io ++ vs) (opcondAttempt s 0 1 .probe) =
      drive vs
        (opcondAttempt (((s.says io).decodedWith a.words).setSeq .b5)
          (negotiationArg s.ocrSupported (word0 a.words)) 1 .negotiate) := by
  have probed := drive_opcond_succeeds (p := .probe) (arg := 0) (waiting := []) h nofun (fun _ => rfl) (by decide) ha vs
  simp only [opcondNext_returns (Or.inl rfl)] at probed
  exact probed

/-- Steps 1 to 5 up to the end of an attempt of step 5 (44_card_session.md R350 to R358). -/
theorem drive_negotiation {a : BringupAnswers} (h : s.CanSend cfg) (hg : a.goIdle.succeeds cfg 0 .kNone)
    (hp : a.probe.succeeds cfg 1 .kR3) (hw : ∀ x ∈ a.waiting, x.succeeds cfg 1 .kR3 ∧ x.notReady)
    (hn : a.waiting.length < 100) (hr : a.ready.succeeds cfg 1 .kR3) (vs : List Word) :
    drive (answersOf (negotiationIo cfg s.ocrSupported a) ++ vs) ((s.setSeq .b1).waitFor .cfgEnable .goIdle) =
      drive vs
        (opcondNext (((s.says (negotiationIo cfg s.ocrSupported a)).decodedWith a.ready.words).setSeq .b5)
          (negotiationArg s.ocrSupported (word0 a.probe.words)) (1 + a.waiting.length) .negotiate
          (word0 a.ready.words)) := by
  have can2 := ((h.setSeq .b1).emits (configIo cfg a.cfg1 a.cfg2)).setSeq .b2
  have can3 := (can2.decodedWith (cmdIo a.goIdle cfg 0 (rawWord cfg 0 .kNone 0x40) .kNone) a.goIdle.words).setSeq .b3
  have can5 := (can3.decodedWith (cmdIo a.probe cfg 0 (rawWord cfg 1 .kR3 0x61) .kR3) a.probe.words).setSeq .b5
  have negotiated := drive_opcond_succeeds (p := .negotiate) can5 hw
    (fun e => absurd e (negotiationArg_ne_zero s.ocrSupported (word0 a.probe.words))) hn hr vs
  simp only [answersOf_append, List.append_assoc] at negotiated
  simp only [negotiationIo, answersOf_append, List.append_assoc]
  rw [drive_config (s := s.setSeq .b1) h.cfg_eq, drive_goIdle can2 hg, drive_probe can3 hp]
  refine negotiated.trans ?_
  simp

/-- The events of steps 6 and 7 (44_card_session.md R359 to R361). -/
def identificationIo (cfg : Config) (a : BringupAnswers) : List Io :=
  cmdIo a.cid cfg 0 (rawWord cfg 2 .kR2 0x67) .kR2 ++ cmdIo a.setRca cfg 0x00010000 (rawWord cfg 3 .kR1 0x15) .kR1 ++
    cmdIo a.select cfg 0x00010000 (rawWord cfg 7 .kR1B 0x1D) .kR1B

/-- They are the second part of a bring-up that succeeds. -/
theorem bringupIo_eq (cfg : Config) (supported : Word) (a : BringupAnswers) :
    bringupIo cfg supported a = negotiationIo cfg supported a ++ identificationIo cfg a := by
  simp only [bringupIo, identificationIo, List.append_assoc]

/-- Steps 6 and 7 from the response that ended step 5 (44_card_session.md R359 to R362). -/
theorem drive_identification {a : BringupAnswers} (h : s.CanSend cfg) (hc : a.cid.succeeds cfg 2 .kR2)
    (hr : a.setRca.succeeds cfg 3 .kR1) (hs : a.select.succeeds cfg 7 .kR1B) (vs : List Word) :
    drive (answersOf (identificationIo cfg a) ++ vs) (opcondReturn s (word0 a.ready.words) .negotiate) =
      drive vs
        ((((s.says (identificationIo cfg a)).decodedWith a.select.words).setSession
          (some (a.session s.ocrSupported))).endOp (.ok (.session (a.session s.ocrSupported)))) := by
  obtain ⟨-, -, hf6, hf7, hf7', -⟩ := h.flags
  have can7 := ((h.setSeq .b6).decodedWith (cmdIo a.cid cfg 0 (rawWord cfg 2 .kR2 0x67) .kR2) a.cid.words).setSeq .b7
  have can7' := can7.decodedWith (cmdIo a.setRca cfg 0x00010000 (rawWord cfg 3 .kR1 0x15) .kR1) a.setRca.words
  have identified := drive_sent (arg := 0) (k := .sendCid (word0 a.ready.words)) (h.setSeq .b6) hf6 (by decide) hc
  have addressed := drive_sent (arg := 0x00010000) (k := .setRca (word0 a.ready.words) (cidOf a.cid.words)) can7 hf7
    (by decide) hr
  have selected := drive_sent (arg := 0x00010000) (k := .selectCard (word0 a.ready.words) (cidOf a.cid.words)) can7' hf7'
    (by decide) hs vs
  simp only [identificationIo, answersOf_append, List.append_assoc]
  refine (identified _).trans ((addressed _).trans (selected.trans ?_))
  simp [commandDone, BringupAnswers.session, rca]

/-- Settles O45: the card is ready at some attempt of step 5 and the rest follows, or it is not at the last. -/
theorem bringupBuildsTheSessionOfAReadyCard : Obligations.BringupBuildsTheSessionOfAReadyCard := by
  intro s a rest hfree hu
  obtain ⟨hs, ho⟩ := id hfree
  obtain ⟨ht, hq, hh⟩ := id hs
  have can : (s.begin.setSession none).CanSend s.cfg := ⟨rfl, hu, hh, ho⟩
  have begins : startOf .bringup s.begin = ((s.begin.setSession none).setSeq .b1).waitFor .cfgEnable .goIdle :=
    if_neg (by simp [ho])
  refine ⟨fun ⟨hg, hp, hw, hn, hr, hready, hc, ha, hsel⟩ henv => ?_, fun ⟨hg, hp, hw, hn, hr, hnot⟩ henv => ?_⟩
  · have ready : ocrReady (word0 a.ready.words) = true := Bool.eq_true_of_not_eq_false hready
    have negotiated := drive_negotiation can hg hp hw hn hr (answersOf (identificationIo s.cfg a) ++ rest)
    have can5 := (can.decodedWith (negotiationIo s.cfg s.ocrSupported a) a.ready.words).setSeq .b5
    have identified := drive_identification can5 hc ha hsel rest
    rw [opcondNext_returns (.inr ready)] at negotiated
    rw [bringupIo_eq, answersOf_append, List.append_assoc] at henv
    rw [bringupIo_eq]
    refine exec_run_ends (((s.says (negotiationIo s.cfg s.ocrSupported a ++ identificationIo s.cfg a)).decodedWith
      a.select.words).setSession (some (a.session s.ocrSupported))) rest nofun hs ht hq henv begins
      (negotiated.trans (identified.trans ?_))
    simp
  · have negotiated := drive_negotiation can hg hp hw (by omega) hr rest
    rw [opcondNext_gives_up (negotiationArg_ne_zero _ _) hnot (by omega)] at negotiated
    exact exec_run_ends (((s.setSession none).says (negotiationIo s.cfg s.ocrSupported a)).decodedWith a.ready.words) rest
      nofun hs ht hq henv begins negotiated

end Sys2Proof.Machine
end

section
/-! SUPPORT. What the operations on a session ask for (44_card_session.md R370), and SWITCH_PART from beginning to end
(R364 to R366): SWITCH, the loop of SEND_STATUS, and the end on the final status word. -/

namespace Sys2Proof.Machine

variable {s : State} {cfg : Config}

/-! ## What the session operations need -/

theorem sessionRefusal_none (ho : s.outstanding = false) (hs : s.session ≠ none) : sessionRefusal s = none := by
  rw [sessionRefusal, if_neg (by simp [ho]), if_neg (by simp [hs])]

theorem sessionRefusal_noSession (ho : s.outstanding = false) (hs : s.session = none) :
    sessionRefusal s = some .noSession := by
  rw [sessionRefusal, if_neg (by simp [ho]), if_pos (by simp [hs])]

/-- Settles O48: the session is asked for first, then the partition. -/
theorem sessionOperationsNeedASession : Obligations.SessionOperationsNeedASession := by
  intro s p addr data ⟨hs, ho⟩
  refine ⟨fun hn i hi => ?_, fun hsome hp => ?_⟩
  · have refused : sessionRefusal s.begin = some .noSession := sessionRefusal_noSession (s := s.begin) ho hn
    obtain rfl | rfl | rfl := hi
    · exact exec_ends nofun hs (by simp only [startOf, refused]; rfl)
    · exact exec_ends nofun hs (by simp only [startOf, refused]; rfl)
    · exact exec_ends nofun hs (by simp only [startOf, refused]; rfl)
  · have taken : sessionRefusal s.begin = none := sessionRefusal_none (s := s.begin) ho hsome
    exact exec_ends nofun hs (by simp only [startOf, taken, if_pos hp]; rfl)

/-! ## SWITCH_PART -/

/-- Layout B of the argument, its constant bytes together (30_encoding.md R212). -/
theorem switchArg_eq (p : Word) : switchArg p = 0x03B34800 ||| p <<< 8 := by
  rw [switchArg, BitVec.shiftLeft_or_distrib, ← BitVec.or_assoc]
  rfl

/-- SWITCH has its kind with any argument (41_command_codec.md R259). -/
theorem classify_switch (arg : Word) : classify defaultConfig 6 arg 0x1D = .ok .kR1B :=
  (classify_arg _ (by decide) arg 0 _).trans (by decide)

/-- The events of SEND_STATUS commands one after the other (44_card_session.md R365). -/
def statusIo (cfg : Config) (xs : List CmdAnswers) : List Io :=
  xs.flatMap (fun x => cmdIo x cfg 0x00010000 (rawWord cfg 13 .kR1 0x15) .kR1)

theorem statusIo_cons (cfg : Config) (x : CmdAnswers) (xs : List CmdAnswers) :
    statusIo cfg (x :: xs) = cmdIo x cfg 0x00010000 (rawWord cfg 13 .kR1 0x15) .kR1 ++ statusIo cfg xs :=
  List.flatMap_cons

/-- One SEND_STATUS. -/
theorem drive_sendStatus {p : Word} {polls : Nat} {x : CmdAnswers} (h : s.CanSend cfg) (hx : x.succeeds cfg 13 .kR1)
    (vs : List Word) :
    let io := cmdIo x cfg 0x00010000 (rawWord cfg 13 .kR1 0x15) .kR1
    drive (answersOf io ++ vs) (sendStatusPoll s p polls) =
      drive vs (commandDone ((s.says io).decodedWith x.words) x.words (.status p polls)) := by
  obtain ⟨-, -, -, hf, -⟩ := h.flags
  exact drive_sent (arg := 0x00010000) (k := .status p polls) h hf (by decide) hx vs

/-- The card is programming: SEND_STATUS again (44_card_session.md R365). -/
theorem commandDone_programming {p : Word} {polls : Nat} {ws : List Word} (hl : s.cfg.pollLimit = none)
    (hp : cardState (word0 ws) = 7) : commandDone s ws (.status p polls) = sendStatusPoll s p (polls + 1) :=
  (if_pos hp).trans (if_pos (mayPoll_of_unbounded hl polls))

/-- It is not, and the switch ends. -/
theorem commandDone_programmed {p : Word} {polls : Nat} {ws : List Word} (hp : cardState (word0 ws) ≠ 7) :
    commandDone s ws (.status p polls) = switchFinish s p (word0 ws) := if_neg hp

/-- The loop of SEND_STATUS to its end (44_card_session.md R365). -/
theorem drive_statusLoop {p : Word} {final : CmdAnswers} (hf : final.succeeds cfg 13 .kR1)
    (hdone : cardState (word0 final.words) ≠ 7) (vs : List Word) (programming : List CmdAnswers) :
    ∀ {s : State} {polls : Nat}, s.CanSend cfg →
      (∀ x ∈ programming, x.succeeds cfg 13 .kR1 ∧ cardState (word0 x.words) = 7) →
      drive (answersOf (statusIo cfg (programming ++ [final])) ++ vs) (sendStatusPoll s p polls) =
        drive vs
          (switchFinish ((s.says (statusIo cfg (programming ++ [final]))).decodedWith final.words) p
            (word0 final.words)) := by
  induction programming with
  | nil =>
    intro s polls h _
    rw [List.nil_append, statusIo, List.flatMap_singleton, drive_sendStatus h hf, commandDone_programmed hdone]
  | cons x xs ih =>
    intro s polls h hx
    obtain ⟨hx1, hx7⟩ := hx x List.mem_cons_self
    have can := h.decodedWith (cmdIo x cfg 0x00010000 (rawWord cfg 13 .kR1 0x15) .kR1) x.words
    rw [List.cons_append, statusIo_cons, answersOf_append, List.append_assoc, drive_sendStatus h hx1,
      commandDone_programming can.unbounded hx7, ih can fun y hy => hx y (List.mem_cons_of_mem _ hy)]
    simp

/-- The events of a partition switch are those of SWITCH with layout B and of the SEND_STATUS commands. -/
theorem switchIo_eq (cfg : Config) (p : Word) (a : SwitchAnswers) :
    switchIo cfg p a =
      cmdIo a.switch cfg (switchArg p) (rawWord cfg 6 .kR1B 0x1D) .kR1B ++ statusIo cfg (a.programming ++ [a.final]) := by
  rw [switchArg_eq]
  rfl

/-- SWITCH, then the loop. -/
theorem drive_switch {p : Word} {a : SwitchAnswers} (h : s.CanSend cfg) (ha : a.succeeds cfg) (vs : List Word) :
    drive (answersOf (switchIo cfg p a) ++ vs)
        (launch (s.setSeq .p1) opSwitch (switchArg p) (flagsR1BAc s.cfg) (.switchCmd p)) =
      drive vs
        (switchFinish (((s.says (switchIo cfg p a)).decodedWith a.final.words).setSeq .p2) p (word0 a.final.words)) := by
  obtain ⟨hs, hp, hf, hdone⟩ := ha
  obtain ⟨-, -, -, -, hflags, -⟩ := h.flags
  have switched := drive_sent (arg := switchArg p) (k := .switchCmd p) (h.setSeq .p1) hflags (classify_switch _) hs
    (answersOf (statusIo cfg (a.programming ++ [a.final])) ++ vs)
  have polled := drive_statusLoop (p := p) hf hdone vs a.programming (polls := 0)
    (((h.setSeq .p1).decodedWith (cmdIo a.switch cfg (switchArg p) (rawWord cfg 6 .kR1B 0x1D) .kR1B)
      a.switch.words).setSeq .p2) hp
  rw [switchIo_eq, answersOf_append, List.append_assoc]
  refine switched.trans (polled.trans ?_)
  simp

/-- The report of unexpected bits (44_card_session.md R366). -/
def warnIo (cfg : Config) (st : Word) : List Io :=
  if st &&& cfg.r1UnexpectedMask != 0 then [.diag (.unexpectedStatus st)] else []

theorem warn_eq_says (st : Word) : s.warn st = s.says (warnIo s.cfg st) := by
  rw [State.warn_eq, warnIo]
  by_cases h : st &&& s.cfg.r1UnexpectedMask = 0#32 <;> simp [h]

/-- The end without the switch-error bit. -/
theorem switchFinish_ok {p st : Word} (h : st &&& s.cfg.r1SwitchError = 0) :
    switchFinish s p st =
      ((s.says (warnIo s.cfg st)).setPart (some (p.setWidth 3))).endOp
        (.ok (.warnings (st &&& s.cfg.r1UnexpectedMask != 0))) := by
  rw [switchFinish, if_neg (not_not_intro h), warn_eq_says]

/-- The end with it. -/
theorem switchFinish_error {p st : Word} (h : st &&& s.cfg.r1SwitchError ≠ 0) :
    switchFinish s p st =
      ((s.says (warnIo s.cfg st ++ [.diag (.switchError st)])).setPart none).raiseErr (.switchError st) := by
  rw [switchFinish, if_pos h, warn_eq_says, State.emit_diag, State.says_says]

/-- The partition of the session at hand. -/
theorem setPart_of_session {x : Session} (h : s.session = some x) (q : Option (BitVec 3)) :
    s.setPart q = s.setSession (some { x with part := q }) := by
  rw [State.setPart, h]
  rfl

/-- Settles O47: the run to the final status word, and its two ends. -/
theorem switchPartSetsThePartition : Obligations.SwitchPartSetsThePartition := by
  intro s p x a rest hfree hu hx hp ha henv st unexpected warn
  obtain ⟨hs, ho⟩ := id hfree
  obtain ⟨ht, hq, -⟩ := id hs
  have taken : sessionRefusal s.begin = none := sessionRefusal_none (s := s.begin) ho (by simp [hx])
  have begins : startOf (.switchPart p) s.begin =
      launch (s.begin.setSeq .p1) opSwitch (switchArg p) (flagsR1BAc s.begin.cfg) (.switchCmd p) := by
    simp only [startOf, taken, if_neg (Nat.not_lt.2 hp)]
  have run := drive_switch (p := p) (State.CanSend.of_free hfree hu) ha rest
  refine ⟨fun herr => ?_, fun herr => ?_⟩
  · rw [switchFinish_ok (by exact herr), setPart_of_session (x := x) (by exact hx)] at run
    refine exec_run_ends (i := .switchPart p) (((s.says (switchIo s.cfg p a ++ warnIo s.cfg st)).decodedWith
      a.final.words).setSession (some { x with part := some (p.setWidth 3) })) rest nofun hs ht hq henv begins
      (run.trans ?_)
    simp [unexpected, st]
  · rw [switchFinish_error (by exact herr), setPart_of_session (x := x) (by exact hx)] at run
    refine exec_run_ends (i := .switchPart p)
      (((s.says (switchIo s.cfg p a ++ warnIo s.cfg st ++ [.diag (.switchError st)])).decodedWith
        a.final.words).setSession (some { x with part := none })) rest nofun hs ht hq henv begins (run.trans ?_)
    simp [State.raiseErr, st]

end Sys2Proof.Machine
end

section
/-! SUPPORT. READ_BLOCK and WRITE_BLOCK from beginning to end (44_card_session.md R367 to R369): the block-count write and
the command, then the transfer. -/

namespace Sys2Proof.Machine

variable {s : State} {cfg : Config}

/-- READ_SINGLE_BLOCK and WRITE_BLOCK have their kind at any address (41_command_codec.md R265, R268). -/
theorem classify_block {o : Word} (ho : o = 17 ∨ o = 24) (addr : Word) :
    classify defaultConfig o addr 0x35 = .ok .kR1 := by
  obtain rfl | rfl := ho
  · exact (classify_arg _ (by decide) addr 0 _).trans (by decide)
  · exact (classify_arg _ (by decide) addr 0 _).trans (by decide)

/-- The block-count write, the command, and what follows it. -/
theorem drive_blockCommand {o : Word} {k : Caller} {c : CmdAnswers} (h : s.CanSend cfg) (ho : o = 17 ∨ o = 24)
    (hc : c.succeeds cfg o .kR1) (hk : k ≠ .submit) (addr : Word) (vs : List Word) :
    drive (answersOf (blockIo cfg o addr c) ++ vs) (blockCommand s o addr k) =
      drive vs (commandDone (((s.says (blockIo cfg o addr c)).decodedWith c.words).setSeq .io2) c.words k) := by
  obtain ⟨-, -, -, -, -, hf⟩ := h.flags
  have sent := drive_sent (k := k) (((h.setSeq .io1).emits [.wr offSdcBlkNum 1]).setSeq .io2) hf (classify_block ho addr)
    hc vs (by obtain rfl | rfl := ho <;> decide) (by obtain rfl | rfl := ho <;> decide) hk
  rw [blockIo, answersOf_wr]
  refine sent.trans ?_
  simp

/-- Settles O49: the command, then a whole PIO_READ. -/
theorem readBlockReturnsTheBlock : Obligations.ReadBlockReturnsTheBlock := by
  intro s addr c a rest hfree hu hx hb hc ha henv
  obtain ⟨hs, ho⟩ := id hfree
  obtain ⟨ht, hq, -⟩ := id hs
  have taken : sessionRefusal s.begin = none := sessionRefusal_none (s := s.begin) ho hx
  have begins : startOf (.readBlock addr) s.begin = blockCommand s.begin opReadSingleBlock addr .readBlock := by
    simp only [startOf, taken]
  have can := State.CanSend.of_free hfree hu
  have sent := drive_blockCommand (k := .readBlock) can (.inl rfl) hc nofun addr (answersOf (pioReadIo s.cfg a) ++ rest)
  have moved := drive_pio_read (s := (((s.begin.says (blockIo s.cfg 17 addr c)).decodedWith c.words).setSeq .io3))
    (k := .readBlock) can.unbounded hb ha rest
  rw [answersOf_append, List.append_assoc] at henv
  refine exec_run_ends (((((s.says (blockIo s.cfg 17 addr c ++ pioReadIo s.cfg a)).decodedWith c.words).setBuf
    (pioReadBlock a)).setRem 0).setDone true) rest nofun hs ht hq henv begins (sent.trans (moved.trans ?_))
  simp

/-- Settles O50: the command, then a whole PIO_WRITE of the block. -/
theorem writeBlockSendsTheBlock : Obligations.WriteBlockSendsTheBlock := by
  intro s addr data c a rest hfree hu hx _ hc ha henv
  obtain ⟨hs, ho⟩ := id hfree
  obtain ⟨ht, hq, -⟩ := id hs
  have taken : sessionRefusal s.begin = none := sessionRefusal_none (s := s.begin) ho hx
  have begins : startOf (.writeBlockOp addr data) s.begin =
      blockCommand s.begin opWriteBlock addr (.writeBlock data) := by
    simp only [startOf, taken]
  have can := State.CanSend.of_free hfree hu
  have sent := drive_blockCommand (k := .writeBlock data) can (.inr rfl) hc nofun addr
    (answersOf (pioWriteIo s.cfg a data) ++ rest)
  have moved := drive_pio_write
    (s := (((s.begin.says (blockIo s.cfg 24 addr c)).decodedWith c.words).setSeq .io3).setBuf data)
    (k := .writeBlock data) can.unbounded ha rest
  rw [answersOf_append, List.append_assoc] at henv
  refine exec_run_ends (((((s.says (blockIo s.cfg 24 addr c ++ pioWriteIo s.cfg a data)).decodedWith c.words).setBuf
    data).setRem 0).setDone true) rest nofun hs ht hq henv begins (sent.trans (moved.trans ?_))
  simp

end Sys2Proof.Machine
end

section
/-! SUPPORT. CONSTRUCT, RESET_HOOK and DEVICE_RESET with their whole next state (70_reset_and_hazards.md R440 to R442). -/

namespace Sys2Proof.Machine

/-- The accepted bases are the multiples of 4 at which the map ends below 2^32 (20_memory.md R177). -/
theorem goodBase_iff {base : Word} :
    goodBase base = true ↔ base.toNat % 4 = 0 ∧ base.toNat + 0xFC ≤ 0xFFFFFFFF := by
  simp only [goodBase, Bool.and_eq_true, beq_iff_eq, decide_eq_true_eq]

theorem not_goodBase {base : Word} (h : base.toNat % 4 ≠ 0 ∨ 0xFFFFFFFF < base.toNat + 0xFC) :
    goodBase base = false := by
  rw [← Bool.not_eq_true, goodBase_iff]
  omega

/-- CONSTRUCT at an accepted base is a new engine with the next free value in REM, DONE and BUF; the host's queues and the
trace stay (10_state.md R155, R156). -/
theorem exec_construct_eq {base : Word} (hb : goodBase base = true) (s : State) :
    exec (.construct base) s =
      .next { State.constructed s.cfg base with
        rem := Config.freeRem s.freeCount, done := Config.freeDone s.freeCount,
        buf := (List.range blksz).map (Config.freeByte s.freeCount), requests := s.requests, env := s.env,
        freeCount := s.freeCount + 1, trace := s.trace, result := some (.ok .unit) } :=
  if_pos hb

/-- Settles O51: the free values of an accepted base are the witnesses; a refusal between operations changes the outcome
alone. -/
theorem constructSetsTheEngineState : Obligations.ConstructSetsTheEngineState := by
  refine fun s base => ⟨fun haligned hfits => ?_, fun hbad ht hq => ?_⟩
  · have accepted := goodBase_iff.2 ⟨haligned, hfits⟩
    exact ⟨_, _, _, Nat.le_of_lt_succ (Fin.isLt _), by simp [blksz], exec_construct_eq accepted s⟩
  · rw [exec_construct_bad (not_goodBase hbad)]
    exact congrArg _ (ended_eq (s := s) ht hq _)

/-- Settles O52: RESET_HOOK is its event and an end. DEVICE_RESET is an end as well, and an end leaves SEQ at S0 whatever it
was. -/
theorem resetHookAndDeviceReset : Obligations.ResetHookAndDeviceReset := by
  refine fun s ht hh => ⟨?_, fun hq => ?_⟩
  · rw [exec_eq_hostOp (i := .deviceReset) nofun, hostOp_ready hh, startOf, drive_ended rfl]
    exact congrArg _ (ended_eq (s := (s.setSession none).setSeq .s0) ht rfl _)
  · exact exec_says_ends (io := [.hook]) nofun ⟨ht, hq, hh⟩ rfl

end Sys2Proof.Machine
end
